-- ==== Sys2Proof/Word.lean ====
section
/-! DEFINITION. The widths of the machine (10_state.md R20, R21, R32; 30_encoding.md R63 to R66). -/

namespace Sys2Proof

/-- A register, IA or address value of XLEN = 32 bits (R20, R24, R32), and an instruction word (R60). -/
abbrev Word := BitVec 32

/-- The addressable unit of memory (R32). -/
abbrev Byte := BitVec 8

/-- A register field: the value `i` selects R`i` (R21). -/
abbrev Reg := BitVec 5

/-- The 12-bit `#imm` of format I (R65); also a system-register number (R29). -/
abbrev Imm12 := BitVec 12

/-- The 20-bit `#limm` of format L (R63). -/
abbrev Imm20 := BitVec 20

/-- The 25-bit `#disp` of format D (R64). -/
abbrev Disp25 := BitVec 25

end Sys2Proof
end

