-- ==== Sys2Proof/Config.lean ====
section
/-! DEFINITION. The implementation parameters `P_*` of 00_scope.md R5 as plain data, and the opaque constants that stand
for what an implementation supplies and the spec does not say. The values taken at reset are in Machine/Launch.lean. -/

namespace Sys2Proof

/-- The four exceptions of the source (60_exceptions.md R230). `addr` of ALI is information for the fault record only (R231). -/
inductive Exc where
  /-- `#ALI`, Alignment Error, with the misaligned address. -/
  | ali (addr : Word)
  /-- `#PRV`, Privilege Error. -/
  | prv
  /-- `#SYS`, System Call. -/
  | sys
  /-- `#UDF`, Undefined Instruction. -/
  | udf
  deriving DecidableEq, Repr

/-- `P_LAYOUT` (R5, 30_encoding.md R65, R66): the lowest bit of each field of formats I and R. Format R* splits the
field `rSec` into `size` (low five bits) and `shift` (high five bits). Formats L and D leave no choice (R63, R64), and the
primary opcode is `w[6:0]` in every format (R62). -/
structure Layout where
  iRd : Nat
  iRs : Nat
  iSec : Nat
  iImm : Nat
  rRd : Nat
  rRa : Nat
  rRb : Nat
  rSec : Nat
  deriving DecidableEq, Repr

/-- What `P_BITFIELD_SELECT` can answer other than `none` (30_encoding.md R67). -/
inductive BitfieldKind where
  | ext
  | exts
  | ins
  | insz
  deriving DecidableEq, Repr

/-- One row of `P_BITFIELD_SELECT` as plain data: a word `w` with `w &&& mask = value` spells `kind`; the first row that
fits decides, and where none fits the answer is `none`. Every function from words to answers can be written so. -/
structure BitfieldRow where
  mask : Word
  value : Word
  kind : BitfieldKind
  deriving DecidableEq, Repr

/-- `P_UNUSED_BITS` (30_encoding.md R76). -/
inductive UnusedBits where
  | refuse
  | ignore
  deriving DecidableEq, Repr

/-- `P_BYTE_ORDER` (20_memory.md R42). -/
inductive ByteOrder where
  | little
  | big
  deriving DecidableEq, Repr

/-- `P_SMC` (20_memory.md R53). -/
inductive Smc where
  | refuse
  | coherent
  deriving DecidableEq, Repr

/-- `P_MULF_SIGNED` (43_multiply.md R161): `signed` is true, `unsigned` is false, `absent` is absent, under which R161
refuses where the two readings of the product differ. `unknown` is a Boolean of which nothing is known,
`Config.mulfSigned` (log entry 22). -/
inductive MulfSign where
  | signed
  | unsigned
  | absent
  | unknown
  deriving DecidableEq, Repr

/-- `P_SR` (10_state.md R30): absent (a privileged MFS or MTS is refused), a draw ("any 32-bit value per read, under no
law"), or the platform's own read and write functions `Config.srRead` and `Config.srWrite`. -/
inductive SysRegs where
  | absent
  | draw
  | platform
  deriving DecidableEq, Repr

/-- The `kind` of an access (20_memory.md R40). -/
inductive AccessKind where
  | load
  | store
  | fetch
  deriving DecidableEq, Repr

/-- One row of `P_MEMMAP` as plain data (20_memory.md R40): the accesses at the addresses `base` to `base + size - 1`, with
the sizes in bytes that a load, a store and a fetch at such an address may have. A list of rows is the predicate on address,
size and kind that holds where some row does; every predicate can be written so (`memMap_complete` of Laws/Ops.lean). -/
structure Region where
  base : Nat
  size : Nat
  loads : List Nat
  stores : List Nat
  fetches : List Nat
  deriving DecidableEq, Repr

/-- `P_EXC_CODE` (60_exceptions.md R231): the numeric cause codes of a platform that has them. -/
structure ExcCodes where
  ali : Nat
  prv : Nat
  sys : Nat
  udf : Nat
  deriving DecidableEq, Repr

/-- The parameters of 00_scope.md R5, all plain data. No step changes them. -/
structure Params where
  /-- `P_LAYOUT` -/
  layout : Layout
  /-- `P_BITFIELD_SELECT` -/
  bitfieldSelect : List BitfieldRow
  /-- `P_UNUSED_BITS` -/
  unusedBits : UnusedBits
  /-- `P_BYTE_ORDER` -/
  byteOrder : ByteOrder
  /-- `P_UNALIGNED` -/
  unaligned : Bool
  /-- `P_R0_ZERO` -/
  r0Zero : Bool
  /-- whether `P_TRAP` is supplied; the function is `Config.trapEntry` -/
  trapSupplied : Bool
  /-- `P_EXC_CODE` -/
  excCode : Option ExcCodes
  /-- `P_SR` -/
  sysRegs : SysRegs
  /-- `P_MEMMAP` -/
  memMap : List Region
  /-- `P_SMC` -/
  smc : Smc
  /-- `P_MULF_SIGNED` -/
  mulfSign : MulfSign
  /-- `P_END_IA` -/
  endIa : Option Word
  deriving DecidableEq, Repr

/-- What a supplied `P_TRAP` leaves (60_exceptions.md R236): the registers, IA, T and PRIV after the entry, and what it
writes to system registers and to memory. Every change of the architectural state of 10_state.md R36 can be written so
(log entry 35), with 32 bits for each system register (log entry 36). -/
structure TrapEffect where
  regs : Vector Word 32
  pc : Word
  t : Bool
  priv : Bool
  srWrites : List (Imm12 × Word)
  memWrites : List (Word × Byte)
  deriving Inhabited

/-- What a supplied `SRRead` or `SRWrite` changes beside its result (47_system.md R223, 60_exceptions.md R241): system
registers, PRIV, and T where a system register shows it (92_eei_decisions.md D20). MTS writes no general register (R223),
and system registers are not memory (10_state.md R32) (log entry 34). DESIGN CHOICE: a system register holds 32 bits
(log entry 36). -/
structure SrEffect where
  srWrites : List (Imm12 × Word)
  t : Bool
  priv : Bool
  deriving Inhabited

/-! A supplied `P_TRAP` or `P_SR` may itself be a draw (70_reset_and_hazards.md R266): each of the three functions below
is given, as `k`, how many values have been drawn before, so that two uses in equal architectural states may differ. One
that is no draw is one whose answer does not depend on `k` (log entry 15). -/

/-- A supplied `P_TRAP` (R5, R236): from the exception, its numeric code if `P_EXC_CODE` gives one, and the whole
architectural state before the raising instruction. Nothing is known of it. -/
opaque Config.trapEntry (k : Nat) (x : Exc) (code : Option Nat) (regs : Vector Word 32) (pc : Word) (t priv : Bool)
    (sr : List (Nat × Word)) (mem : List Host.Cell) : TrapEffect

/-- A supplied `SRRead` (10_state.md R30) of system register `n`: the value read, and what the read changes. Nothing is
known of it; like `P_TRAP` it may depend on the whole architectural state. -/
opaque Config.srRead (k : Nat) (n : Imm12) (regs : Vector Word 32) (pc : Word) (t priv : Bool)
    (sr : List (Nat × Word)) (mem : List Host.Cell) : Word × SrEffect

/-- A supplied `SRWrite` (10_state.md R30) of `v` to system register `n`: what the write changes and, for a write that
resumes interrupted code (60_exceptions.md R237), where the next instruction is. Nothing is known of it. -/
opaque Config.srWrite (k : Nat) (n : Imm12) (v : Word) (regs : Vector Word 32) (pc : Word) (t priv : Bool)
    (sr : List (Nat × Word)) (mem : List Host.Cell) : SrEffect × Option Word

/-- The `k`-th value drawn by a `P_SR` that is a draw (10_state.md R30). Nothing is known of it. -/
opaque Config.srDraw (k : Nat) : Word

/-- The `P_MULF_SIGNED` of a machine on which it is not known (43_multiply.md R161). Nothing is known of it. -/
opaque Config.mulfSigned : Bool

end Sys2Proof
end

