-- ==== Sys2Proof/Machine/Bits.lean ====
section
/-! DEFINITION. Values without state: extensions (00_scope.md R8, R9), byte order (20_memory.md R42), and the bit
functions of 42_bit_ops.md R130 to R133 and R145. -/

namespace Sys2Proof.Machine

/-- `zext_12` (R8). -/
def zext12 (imm : Imm12) : Word := imm.setWidth 32

/-- `sext_12` (R8). -/
def sext12 (imm : Imm12) : Word := imm.signExtend 32

/-- `limm << 12` (41_long_immediate.md R124). -/
def highImm (limm : Imm20) : Word := limm ++ 0#12

/-- `sext_25(disp) << 2`, the byte offset of a format-D branch (30_encoding.md R70). -/
def branchOffset (disp : Disp25) : Word := disp.signExtend 32 <<< 2

/-- The low byte of an assembled value, sign-extended (45_load_store.md R193). -/
def sext8 (v : Word) : Word := (v.setWidth 8).signExtend 32

/-- The low halfword of an assembled value, sign-extended (45_load_store.md R197). -/
def sext16 (v : Word) : Word := (v.setWidth 16).signExtend 32

/-- Bytes at ascending addresses, the first the least significant (20_memory.md R42, `little`). -/
def assembleLittle : List Byte → Word
  | [] => 0#32
  | b :: bs => b.setWidth 32 ||| (assembleLittle bs <<< 8)

/-- The value of bytes at ascending addresses (20_memory.md R42). -/
def assemble (o : ByteOrder) (bs : List Byte) : Word :=
  match o with
  | .little => assembleLittle bs
  | .big => assembleLittle bs.reverse

/-- The low `n` bytes of `v`, the least significant first. -/
def splitLittle : Nat → Word → List Byte
  | 0, _ => []
  | n + 1, v => v.setWidth 8 :: splitLittle n (v >>> 8)

/-- The low `n` bytes of `v` in the order of ascending addresses (20_memory.md R42). -/
def split (o : ByteOrder) (n : Nat) (v : Word) : List Byte :=
  match o with
  | .little => splitLittle n v
  | .big => (splitLittle n v).reverse

/-- How many 0 bits stand at bit `n - 1` and below before the first 1. -/
def leadingZeros (v : Word) : Nat → Nat
  | 0 => 0
  | n + 1 => if v.getLsbD n then 0 else leadingZeros v n + 1

/-- `clz(v)` (R130). -/
def clz (v : Word) : Word := BitVec.ofNat 32 (leadingZeros v 32)

/-- `clo(v)` (R131). -/
def clo (v : Word) : Word := clz (~~~v)

/-- The low `n` bits of `rev(v)`: bit `i` is `v[31 - i]`. -/
def reversedBits (v : Word) : (n : Nat) → BitVec n
  | 0 => BitVec.nil
  | n + 1 => BitVec.cons (v.getLsbD (31 - n)) (reversedBits v n)

/-- `rev(v)` (R132). -/
def rev (v : Word) : Word := reversedBits v 32

/-- `ror(v, k)` (R133). -/
def ror (v : Word) (k : BitVec 5) : Word := v.rotateRight k.toNat

/-- SWPB's byte reversal (R137). -/
def swapBytes (v : Word) : Word :=
  v.extractLsb' 0 8 ++ v.extractLsb' 8 8 ++ v.extractLsb' 16 8 ++ v.extractLsb' 24 8

/-- SWPH's exchange of halfwords (R138). -/
def swapHalves (v : Word) : Word := v.extractLsb' 0 16 ++ v.extractLsb' 16 16

/-- Unsigned clip to at most `hi` (R139, R140). -/
def clipUnsigned (hi v : Word) : Word := if hi.ult v then hi else v

/-- Signed clip to `lo` to `hi` (R141, R142). -/
def clipSigned (lo hi v : Word) : Word :=
  if hi.slt v then hi else if v.slt lo then lo else v

/-- `S`, the true size of a bit-field: a `size` field of 0 encodes 32 (R145). -/
def trueSize (size : BitVec 5) : Nat := if size = 0#5 then 32 else size.toNat

/-- `M(S) = 2^S - 1` (R145). -/
def lowMask (n : Nat) : Word := BitVec.allOnes 32 >>> (32 - n)

/-- EXT's value (R146). -/
def extract (v : Word) (size shift : BitVec 5) : Word :=
  (v >>> shift.toNat) &&& lowMask (trueSize size)

/-- EXTS's value: `sext_S` of EXT's (R147). -/
def extractSigned (v : Word) (size shift : BitVec 5) : Word :=
  (extract v size shift <<< (32 - trueSize size)).sshiftRight (32 - trueSize size)

/-- INS's mask `(M(S) << h) mod 2^32` (R148). -/
def insertMask (size shift : BitVec 5) : Word := lowMask (trueSize size) <<< shift.toNat

/-- INS's value (R148). -/
def insert (background v : Word) (size shift : BitVec 5) : Word :=
  (background &&& ~~~insertMask size shift) ||| ((v <<< shift.toNat) &&& insertMask size shift)

/-- INSZ's value (R149). -/
def insertZero (v : Word) (size shift : BitVec 5) : Word :=
  (v &&& lowMask (trueSize size)) <<< shift.toNat

/-- Bits 47 to 16 of the product of the operands read as unsigned (43_multiply.md R161, `ru`). -/
def mulfUnsigned (a b : Word) : Word := (a.setWidth 64 * b.setWidth 64).extractLsb' 16 32

/-- Bits 47 to 16 of the product of the operands read as signed (43_multiply.md R161, `rs`). -/
def mulfSigned (a b : Word) : Word := (a.signExtend 64 * b.signExtend 64).extractLsb' 16 32

end Sys2Proof.Machine
end

