-- ==== Sys2Proof/Machine/Launch.lean ====
section
/-! DEFINITION. The values of the parameters and of the state that the spec leaves to the launch (00_scope.md R5,
70_reset_and_hazards.md R263), as this model takes them at reset. Each is named in a log entry. -/

namespace Sys2Proof.Machine

/-- The default `P_LAYOUT` (30_encoding.md R65, R66). -/
def defaultLayout : Layout where
  iRd := 7
  iRs := 12
  iSec := 17
  iImm := 20
  rRd := 7
  rRa := 12
  rRb := 17
  rSec := 22

/-- DESIGN CHOICE (entry 20, unsafe): the spec gives `P_MEMMAP` no default; the whole 32-bit space admits every access. -/
def wholeSpace : Region where
  base := 0
  size := 2 ^ 32
  loads := [1, 2, 4]
  stores := [1, 2, 4]
  fetches := [1, 2, 4]

/-- The defaults of 00_scope.md R5. `memMap` has none there: it is a launch premise, which `wholeSpace` supplies (entry 20). -/
def defaultParams : Params where
  layout := defaultLayout
  bitfieldSelect := []
  unusedBits := .refuse
  byteOrder := .little
  unaligned := false
  r0Zero := false
  trapSupplied := false
  excCode := none
  sysRegs := .absent
  memMap := [wholeSpace]
  smc := .refuse
  mulfSign := .absent
  endIa := none

/-- The parameters of the reset state: the defaults of R5 with two arguments supplied, so that no instruction is refused
that could be executed. DESIGN CHOICE: `P_SR` is the draw that 10_state.md R30 allows (entry 14), and `P_MULF_SIGNED` is a
Boolean of which nothing is known (entry 22). -/
def resetParams : Params := { defaultParams with sysRegs := .draw, mulfSign := .unknown }

/-- DESIGN CHOICE (entry 18, unsafe): `P_RESET_IA`, which the spec leaves to the claim (70_reset_and_hazards.md R261). -/
def resetIa : Word := 0#32

/-- DESIGN CHOICE (entry 13, unsafe): `P_RESET_PRIV`, which the spec leaves to the claim (70_reset_and_hazards.md R262). -/
def resetPriv : Bool := false

/-- DESIGN CHOICE (entry 17, unsafe): the value of every general register at reset; the spec gives none (10_state.md R34). -/
def resetReg : Word := 0#32

/-- DESIGN CHOICE (entry 16, unsafe): T at reset; the spec gives none (10_state.md R34). -/
def resetT : Bool := false

/-- DESIGN CHOICE (entry 19, unsafe): what a byte of memory that nothing has written reads as; the spec gives no memory
contents (10_state.md R34). -/
def unwrittenByte : Byte := 0#8

end Sys2Proof.Machine
end

