-- ==== Sys2Proof/Syntax.lean ====
section
/-! DEFINITION. The 77 instruction forms (30_encoding.md R72). A mnemonic with two pages has two constructors: `1` the
immediate or displacement form, `2` the register form. Only the fields a form uses are its arguments (R75). -/

namespace Sys2Proof

/-- The instructions, one constructor per row of spec/opcode_table.json. -/
inductive Instr where
  -- 40_alu.md R100 to R113
  | add1 (rd rs : Reg) (imm : Imm12)
  | add2 (rd ra rb : Reg)
  | sub1 (rd rs : Reg) (imm : Imm12)
  | sub2 (rd ra rb : Reg)
  | neg (rd rb : Reg)
  | movn (rd rb : Reg)
  | or1 (rd rs : Reg) (imm : Imm12)
  | or2 (rd ra rb : Reg)
  | xor1 (rd rs : Reg) (imm : Imm12)
  | xor2 (rd ra rb : Reg)
  | and1 (rd rs : Reg) (imm : Imm12)
  | and2 (rd ra rb : Reg)
  | andn1 (rd rs : Reg) (imm : Imm12)
  | andn2 (rd ra rb : Reg)
  -- 41_long_immediate.md R120 to R123
  | movh (rd : Reg) (limm : Imm20)
  | addh (rd : Reg) (limm : Imm20)
  | orh (rd : Reg) (limm : Imm20)
  | xorh (rd : Reg) (limm : Imm20)
  -- 42_bit_ops.md R134 to R149
  | rev (rd rs : Reg)
  | clz (rd rs : Reg)
  | clo (rd rs : Reg)
  | swpb (rd rs : Reg)
  | swph (rd rs : Reg)
  | clpb (rd rs : Reg)
  | clph (rd rs : Reg)
  | clpbs (rd rs : Reg)
  | clphs (rd rs : Reg)
  | ror1 (rd rs : Reg) (imm : Imm12)
  | ror2 (rd ra rb : Reg)
  | ext (rd ra : Reg) (size shift : BitVec 5)
  | exts (rd ra : Reg) (size shift : BitVec 5)
  | ins (rd ra rb : Reg) (size shift : BitVec 5)
  | insz (rd rb : Reg) (size shift : BitVec 5)
  -- 43_multiply.md R160 to R162
  | mul (rd ra rb : Reg)
  | mulf (rd ra rb : Reg)
  | mac (rd ra rb : Reg)
  -- 44_compare_select.md R170 to R182
  | ceq1 (rs : Reg) (imm : Imm12)
  | ceq2 (ra rb : Reg)
  | cne1 (rs : Reg) (imm : Imm12)
  | cne2 (ra rb : Reg)
  | chi1 (rs : Reg) (imm : Imm12)
  | chi2 (ra rb : Reg)
  | cls1 (rs : Reg) (imm : Imm12)
  | cls2 (ra rb : Reg)
  | cgt1 (rs : Reg) (imm : Imm12)
  | cgt2 (ra rb : Reg)
  | cle1 (rs : Reg) (imm : Imm12)
  | cle2 (ra rb : Reg)
  | sel (rd ra rb : Reg)
  -- 45_load_store.md R191 to R206; in the stores `rd` is the data register
  | lb1 (rd rs : Reg) (imm : Imm12)
  | lb2 (rd ra rb : Reg)
  | lbs1 (rd rs : Reg) (imm : Imm12)
  | lbs2 (rd ra rb : Reg)
  | lh1 (rd rs : Reg) (imm : Imm12)
  | lh2 (rd ra rb : Reg)
  | lhs1 (rd rs : Reg) (imm : Imm12)
  | lhs2 (rd ra rb : Reg)
  | lw1 (rd rs : Reg) (imm : Imm12)
  | lw2 (rd ra rb : Reg)
  | sb1 (rd rs : Reg) (imm : Imm12)
  | sb2 (rd ra rb : Reg)
  | sh1 (rd rs : Reg) (imm : Imm12)
  | sh2 (rd ra rb : Reg)
  | sw1 (rd rs : Reg) (imm : Imm12)
  | sw2 (rd ra rb : Reg)
  -- 46_branch.md R210 to R217; in the register forms `rd` is the target register
  | b1 (disp : Disp25)
  | b2 (rd : Reg)
  | bt1 (disp : Disp25)
  | bt2 (rd : Reg)
  | bl1 (disp : Disp25)
  | bl2 (rd : Reg)
  | blt1 (disp : Disp25)
  | blt2 (rd : Reg)
  -- 47_system.md R220 to R223; `imm` is a system-register number
  | udf
  | syscall
  | mfs (rd : Reg) (imm : Imm12)
  | mts (rd : Reg) (imm : Imm12)
  deriving DecidableEq, Repr

end Sys2Proof
end

