-- ==== Sys2Proof/WellFormed.lean ====
section
/-! DEFINITION. Which instructions the spec admits as operands go. Field widths are carried by the types, so the only
check left is the operand restriction of BL (2) and BLT (2): "R31 cannot be specified for RD" (46_branch.md R215, R217). -/

namespace Sys2Proof

/-- The instruction's operands are ones its page admits. -/
def Instr.wellFormed : Instr → Bool
  | .add1 _ _ _ => true
  | .add2 _ _ _ => true
  | .sub1 _ _ _ => true
  | .sub2 _ _ _ => true
  | .neg _ _ => true
  | .movn _ _ => true
  | .or1 _ _ _ => true
  | .or2 _ _ _ => true
  | .xor1 _ _ _ => true
  | .xor2 _ _ _ => true
  | .and1 _ _ _ => true
  | .and2 _ _ _ => true
  | .andn1 _ _ _ => true
  | .andn2 _ _ _ => true
  | .movh _ _ => true
  | .addh _ _ => true
  | .orh _ _ => true
  | .xorh _ _ => true
  | .rev _ _ => true
  | .clz _ _ => true
  | .clo _ _ => true
  | .swpb _ _ => true
  | .swph _ _ => true
  | .clpb _ _ => true
  | .clph _ _ => true
  | .clpbs _ _ => true
  | .clphs _ _ => true
  | .ror1 _ _ _ => true
  | .ror2 _ _ _ => true
  | .ext _ _ _ _ => true
  | .exts _ _ _ _ => true
  | .ins _ _ _ _ _ => true
  | .insz _ _ _ _ => true
  | .mul _ _ _ => true
  | .mulf _ _ _ => true
  | .mac _ _ _ => true
  | .ceq1 _ _ => true
  | .ceq2 _ _ => true
  | .cne1 _ _ => true
  | .cne2 _ _ => true
  | .chi1 _ _ => true
  | .chi2 _ _ => true
  | .cls1 _ _ => true
  | .cls2 _ _ => true
  | .cgt1 _ _ => true
  | .cgt2 _ _ => true
  | .cle1 _ _ => true
  | .cle2 _ _ => true
  | .sel _ _ _ => true
  | .lb1 _ _ _ => true
  | .lb2 _ _ _ => true
  | .lbs1 _ _ _ => true
  | .lbs2 _ _ _ => true
  | .lh1 _ _ _ => true
  | .lh2 _ _ _ => true
  | .lhs1 _ _ _ => true
  | .lhs2 _ _ _ => true
  | .lw1 _ _ _ => true
  | .lw2 _ _ _ => true
  | .sb1 _ _ _ => true
  | .sb2 _ _ _ => true
  | .sh1 _ _ _ => true
  | .sh2 _ _ _ => true
  | .sw1 _ _ _ => true
  | .sw2 _ _ _ => true
  | .b1 _ => true
  | .b2 _ => true
  | .bt1 _ => true
  | .bt2 _ => true
  | .bl1 _ => true
  | .bl2 rd => rd != 31#5
  | .blt1 _ => true
  | .blt2 rd => rd != 31#5
  | .udf => true
  | .syscall => true
  | .mfs _ _ => true
  | .mts _ _ => true

end Sys2Proof
end

