-- ==== Sys2Proof/Decode.lean ====
section
/-! DEFINITION. Decoding of a word in the order of 30_encoding.md R81, total and rejecting by name, and after it the
encoder, from the same formats (R63 to R66) and the list of R72. -/

namespace Sys2Proof

/-- What decoding a word ends in (R81, 60_exceptions.md R233). -/
inductive Decoded where
  /-- an instruction with its fields -/
  | instr (i : Instr)
  /-- `ReservedEncoding`: the opcode or the secondary is not allocated (R78) -/
  | reservedEncoding
  /-- `BitfieldUndecodable`: opcode `0001100` and the selector answers none (R67) -/
  | bitfieldUndecodable
  /-- `UnusedBitsNonZero` (R76) -/
  | unusedBitsNonZero
  /-- `LinkRegisterAsTarget`: BL (2) or BLT (2) with `rd = 31` (46_branch.md R215, R217) -/
  | linkRegisterAsTarget
  /-- fewer than the four bytes of a word were given (R60); never reached by a fetch -/
  | tooShort
  deriving DecidableEq, Repr

/-! ### Fields -/

/-- The primary opcode `w[6:0]` (R62). -/
def opcodeOf (w : Word) : BitVec 7 := w.extractLsb' 0 7

/-- `limm` of format L (R63). -/
def limmOf (w : Word) : Imm20 := w.extractLsb' 12 20

/-- `rd` of format L (R63). -/
def lRdOf (w : Word) : Reg := w.extractLsb' 7 5

/-- `disp` of format D (R64). -/
def dispOf (w : Word) : Disp25 := w.extractLsb' 7 25

/-- `rd` of format I (R65). -/
def iRdOf (l : Layout) (w : Word) : Reg := w.extractLsb' l.iRd 5

/-- `rs` of format I (R65). -/
def iRsOf (l : Layout) (w : Word) : Reg := w.extractLsb' l.iRs 5

/-- `sec3` of format I (R65, R68). -/
def sec3Of (l : Layout) (w : Word) : BitVec 3 := w.extractLsb' l.iSec 3

/-- `imm` of format I (R65). -/
def immOf (l : Layout) (w : Word) : Imm12 := w.extractLsb' l.iImm 12

/-- `rd` of formats R and R* (R66). -/
def rRdOf (l : Layout) (w : Word) : Reg := w.extractLsb' l.rRd 5

/-- `ra` of formats R and R* (R66). -/
def rRaOf (l : Layout) (w : Word) : Reg := w.extractLsb' l.rRa 5

/-- `rb` of formats R and R* (R66). -/
def rRbOf (l : Layout) (w : Word) : Reg := w.extractLsb' l.rRb 5

/-- `sec10` of format R, `secopc` of format R* (R66). -/
def sec10Of (l : Layout) (w : Word) : BitVec 10 := w.extractLsb' l.rSec 10

/-- `size = secopc[4:0]` (R66). -/
def bfSizeOf (l : Layout) (w : Word) : BitVec 5 := (sec10Of l w).extractLsb' 0 5

/-- `shift = secopc[9:5]` (R66). -/
def bfShiftOf (l : Layout) (w : Word) : BitVec 5 := (sec10Of l w).extractLsb' 5 5

/-! ### Decoding -/

/-- Step 4 of R81: the instruction is known; `unusedZero` says whether its unused fields (R75) are all zero. -/
def accept (p : Params) (unusedZero : Bool) (i : Instr) : Decoded :=
  match p.unusedBits, unusedZero with
  | .refuse, false => .unusedBitsNonZero
  | _, _ => .instr i

/-- Steps 4 and 5 of R81 for BL (2) and BLT (2): R31 cannot be the target register. -/
def acceptLink (p : Params) (unusedZero : Bool) (rd : Reg) (i : Instr) : Decoded :=
  match p.unusedBits, unusedZero with
  | .refuse, false => .unusedBitsNonZero
  | _, _ => if rd = 31#5 then .linkRegisterAsTarget else .instr i

/-- `P_BITFIELD_SELECT` (R67): the first row that the word fits. -/
def selectBitfield : List BitfieldRow → Word → Option BitfieldKind
  | [], _ => none
  | r :: rs, w => if w &&& r.mask = r.value then some r.kind else selectBitfield rs w

/-- The ALU immediate group `1001000` (R74). -/
def decodeAluImm (l : Layout) (w : Word) : Decoded :=
  match (sec3Of l w).toNat with
  | 0 => .instr (.add1 (iRdOf l w) (iRsOf l w) (immOf l w))
  | 1 => .instr (.sub1 (iRdOf l w) (iRsOf l w) (immOf l w))
  | 4 => .instr (.or1 (iRdOf l w) (iRsOf l w) (immOf l w))
  | 5 => .instr (.xor1 (iRdOf l w) (iRsOf l w) (immOf l w))
  | 6 => .instr (.and1 (iRdOf l w) (iRsOf l w) (immOf l w))
  | 7 => .instr (.andn1 (iRdOf l w) (iRsOf l w) (immOf l w))
  | _ => .reservedEncoding

/-- The ALU register group `0001000` (R74). -/
def decodeAluReg (p : Params) (w : Word) : Decoded :=
  let l := p.layout
  match (sec10Of l w).toNat with
  | 0 => .instr (.add2 (rRdOf l w) (rRaOf l w) (rRbOf l w))
  | 1 => .instr (.sub2 (rRdOf l w) (rRaOf l w) (rRbOf l w))
  | 2 => accept p (rRaOf l w == 0#5) (.neg (rRdOf l w) (rRbOf l w))
  | 3 => accept p (rRaOf l w == 0#5) (.movn (rRdOf l w) (rRbOf l w))
  | 4 => .instr (.or2 (rRdOf l w) (rRaOf l w) (rRbOf l w))
  | 5 => .instr (.xor2 (rRdOf l w) (rRaOf l w) (rRbOf l w))
  | 6 => .instr (.and2 (rRdOf l w) (rRaOf l w) (rRbOf l w))
  | 7 => .instr (.andn2 (rRdOf l w) (rRaOf l w) (rRbOf l w))
  | _ => .reservedEncoding

/-- The unary bit group `1001001` (R74); `imm` is unused (R75). -/
def decodeUnary (p : Params) (w : Word) : Decoded :=
  let l := p.layout
  match (sec3Of l w).toNat with
  | 0 => accept p (immOf l w == 0#12) (.rev (iRdOf l w) (iRsOf l w))
  | 2 => accept p (immOf l w == 0#12) (.clz (iRdOf l w) (iRsOf l w))
  | 3 => accept p (immOf l w == 0#12) (.clo (iRdOf l w) (iRsOf l w))
  | 4 => accept p (immOf l w == 0#12) (.swpb (iRdOf l w) (iRsOf l w))
  | 5 => accept p (immOf l w == 0#12) (.swph (iRdOf l w) (iRsOf l w))
  | _ => .reservedEncoding

/-- The clip group `1001010` (R74); `imm` is unused (R75). -/
def decodeClip (p : Params) (w : Word) : Decoded :=
  let l := p.layout
  match (sec3Of l w).toNat with
  | 0 => accept p (immOf l w == 0#12) (.clpb (iRdOf l w) (iRsOf l w))
  | 1 => accept p (immOf l w == 0#12) (.clph (iRdOf l w) (iRsOf l w))
  | 4 => accept p (immOf l w == 0#12) (.clpbs (iRdOf l w) (iRsOf l w))
  | 5 => accept p (immOf l w == 0#12) (.clphs (iRdOf l w) (iRsOf l w))
  | _ => .reservedEncoding

/-- The bit-field group `0001100`, step 2 of R81; EXT and EXTS do not use `rb`, INSZ does not use `ra` (R75). -/
def decodeBitfield (p : Params) (w : Word) : Decoded :=
  let l := p.layout
  match selectBitfield p.bitfieldSelect w with
  | none => .bitfieldUndecodable
  | some .ext => accept p (rRbOf l w == 0#5) (.ext (rRdOf l w) (rRaOf l w) (bfSizeOf l w) (bfShiftOf l w))
  | some .exts => accept p (rRbOf l w == 0#5) (.exts (rRdOf l w) (rRaOf l w) (bfSizeOf l w) (bfShiftOf l w))
  | some .ins => .instr (.ins (rRdOf l w) (rRaOf l w) (rRbOf l w) (bfSizeOf l w) (bfShiftOf l w))
  | some .insz => accept p (rRaOf l w == 0#5) (.insz (rRdOf l w) (rRbOf l w) (bfSizeOf l w) (bfShiftOf l w))

/-- The multiply group `0001101` (R74). -/
def decodeMultiply (l : Layout) (w : Word) : Decoded :=
  match (sec10Of l w).toNat with
  | 0 => .instr (.mul (rRdOf l w) (rRaOf l w) (rRbOf l w))
  | 1 => .instr (.mulf (rRdOf l w) (rRaOf l w) (rRbOf l w))
  | 2 => .instr (.mac (rRdOf l w) (rRaOf l w) (rRbOf l w))
  | _ => .reservedEncoding

/-- The compare immediate group `1001110` (R74); `rd` is unused (R75). -/
def decodeCompareImm (p : Params) (w : Word) : Decoded :=
  let l := p.layout
  match (sec3Of l w).toNat with
  | 0 => accept p (iRdOf l w == 0#5) (.ceq1 (iRsOf l w) (immOf l w))
  | 1 => accept p (iRdOf l w == 0#5) (.chi1 (iRsOf l w) (immOf l w))
  | 3 => accept p (iRdOf l w == 0#5) (.cgt1 (iRsOf l w) (immOf l w))
  | 4 => accept p (iRdOf l w == 0#5) (.cne1 (iRsOf l w) (immOf l w))
  | 5 => accept p (iRdOf l w == 0#5) (.cls1 (iRsOf l w) (immOf l w))
  | 7 => accept p (iRdOf l w == 0#5) (.cle1 (iRsOf l w) (immOf l w))
  | _ => .reservedEncoding

/-- The compare register group `0001110` (R74); `rd` is unused (R75). -/
def decodeCompareReg (p : Params) (w : Word) : Decoded :=
  let l := p.layout
  match (sec10Of l w).toNat with
  | 0 => accept p (rRdOf l w == 0#5) (.ceq2 (rRaOf l w) (rRbOf l w))
  | 1 => accept p (rRdOf l w == 0#5) (.chi2 (rRaOf l w) (rRbOf l w))
  | 3 => accept p (rRdOf l w == 0#5) (.cgt2 (rRaOf l w) (rRbOf l w))
  | 4 => accept p (rRdOf l w == 0#5) (.cne2 (rRaOf l w) (rRbOf l w))
  | 5 => accept p (rRdOf l w == 0#5) (.cls2 (rRaOf l w) (rRbOf l w))
  | 7 => accept p (rRdOf l w == 0#5) (.cle2 (rRaOf l w) (rRbOf l w))
  | _ => .reservedEncoding

/-- The load immediate group `1010000` (R74). -/
def decodeLoadImm (l : Layout) (w : Word) : Decoded :=
  match (sec3Of l w).toNat with
  | 0 => .instr (.lb1 (iRdOf l w) (iRsOf l w) (immOf l w))
  | 1 => .instr (.lh1 (iRdOf l w) (iRsOf l w) (immOf l w))
  | 2 => .instr (.lw1 (iRdOf l w) (iRsOf l w) (immOf l w))
  | 4 => .instr (.lbs1 (iRdOf l w) (iRsOf l w) (immOf l w))
  | 5 => .instr (.lhs1 (iRdOf l w) (iRsOf l w) (immOf l w))
  | _ => .reservedEncoding

/-- The load register group `0010000` (R74). -/
def decodeLoadReg (l : Layout) (w : Word) : Decoded :=
  match (sec10Of l w).toNat with
  | 0 => .instr (.lb2 (rRdOf l w) (rRaOf l w) (rRbOf l w))
  | 1 => .instr (.lh2 (rRdOf l w) (rRaOf l w) (rRbOf l w))
  | 2 => .instr (.lw2 (rRdOf l w) (rRaOf l w) (rRbOf l w))
  | 4 => .instr (.lbs2 (rRdOf l w) (rRaOf l w) (rRbOf l w))
  | 5 => .instr (.lhs2 (rRdOf l w) (rRaOf l w) (rRbOf l w))
  | _ => .reservedEncoding

/-- The store immediate group `1010001` (R74). -/
def decodeStoreImm (l : Layout) (w : Word) : Decoded :=
  match (sec3Of l w).toNat with
  | 0 => .instr (.sb1 (iRdOf l w) (iRsOf l w) (immOf l w))
  | 1 => .instr (.sh1 (iRdOf l w) (iRsOf l w) (immOf l w))
  | 2 => .instr (.sw1 (iRdOf l w) (iRsOf l w) (immOf l w))
  | _ => .reservedEncoding

/-- The store register group `0010001` (R74; the opcode of SB (2) and SH (2) as corrected by 90_conflicts.md C1). -/
def decodeStoreReg (l : Layout) (w : Word) : Decoded :=
  match (sec10Of l w).toNat with
  | 0 => .instr (.sb2 (rRdOf l w) (rRaOf l w) (rRbOf l w))
  | 1 => .instr (.sh2 (rRdOf l w) (rRaOf l w) (rRbOf l w))
  | 2 => .instr (.sw2 (rRdOf l w) (rRaOf l w) (rRbOf l w))
  | _ => .reservedEncoding

/-- `ra`, `rb` and `sec10` are zero: the unused fields of the register branches (R75). -/
def upperRFieldsZero (l : Layout) (w : Word) : Bool :=
  rRaOf l w == 0#5 && rRbOf l w == 0#5 && sec10Of l w == 0#10

/-- Decoding of a word (R81) by its primary opcode (R73). -/
def decode (p : Params) (w : Word) : Decoded :=
  let l := p.layout
  match (opcodeOf w).toNat with
  | 0x00 => accept p (rRdOf l w == 0#5 && upperRFieldsZero l w) .udf
  | 0x01 => accept p (rRdOf l w == 0#5 && upperRFieldsZero l w) .syscall
  | 0x08 => decodeAluReg p w
  | 0x0B => accept p (sec10Of l w == 0#10) (.ror2 (rRdOf l w) (rRaOf l w) (rRbOf l w))
  | 0x0C => decodeBitfield p w
  | 0x0D => decodeMultiply l w
  | 0x0E => decodeCompareReg p w
  | 0x0F => accept p (sec10Of l w == 0#10) (.sel (rRdOf l w) (rRaOf l w) (rRbOf l w))
  | 0x10 => decodeLoadReg l w
  | 0x11 => decodeStoreReg l w
  | 0x3C => accept p (upperRFieldsZero l w) (.b2 (rRdOf l w))
  | 0x3D => accept p (upperRFieldsZero l w) (.bt2 (rRdOf l w))
  | 0x3E => acceptLink p (upperRFieldsZero l w) (rRdOf l w) (.bl2 (rRdOf l w))
  | 0x3F => acceptLink p (upperRFieldsZero l w) (rRdOf l w) (.blt2 (rRdOf l w))
  | 0x44 => accept p (iRsOf l w == 0#5 && sec3Of l w == 0#3) (.mfs (iRdOf l w) (immOf l w))
  | 0x45 => accept p (iRsOf l w == 0#5 && sec3Of l w == 0#3) (.mts (iRdOf l w) (immOf l w))
  | 0x48 => decodeAluImm l w
  | 0x49 => decodeUnary p w
  | 0x4A => decodeClip p w
  | 0x4B => accept p (sec3Of l w == 0#3) (.ror1 (iRdOf l w) (iRsOf l w) (immOf l w))
  | 0x4E => decodeCompareImm p w
  | 0x50 => decodeLoadImm l w
  | 0x51 => decodeStoreImm l w
  | 0x78 => .instr (.movh (lRdOf w) (limmOf w))
  | 0x79 => .instr (.addh (lRdOf w) (limmOf w))
  | 0x7A => .instr (.orh (lRdOf w) (limmOf w))
  | 0x7B => .instr (.xorh (lRdOf w) (limmOf w))
  | 0x7C => .instr (.b1 (dispOf w))
  | 0x7D => .instr (.bt1 (dispOf w))
  | 0x7E => .instr (.bl1 (dispOf w))
  | 0x7F => .instr (.blt1 (dispOf w))
  | _ => .reservedEncoding

/-- Decoding of the bytes of memory at ascending addresses, assembled as a fetch assembles them (20_memory.md R43). -/
def decodeBytes (p : Params) : List Byte → Decoded
  | b0 :: b1 :: b2 :: b3 :: _ => decode p (Machine.assemble p.byteOrder [b0, b1, b2, b3])
  | _ => .tooShort

/-- The instruction that the decoder reads, under the parameters of reset, from an instruction whose bits are `w`
(bits from `nbits` on are zero), laid out in memory as the hardware stores it. -/
def decodeTableWord (nbits w : Nat) : Option Instr :=
  match decodeBytes Machine.defaultParams
      (Machine.split Machine.defaultParams.byteOrder 4 (BitVec.ofNat 32 (w % 2 ^ nbits))) with
  | .instr i => some i
  | _ => none

/-! ### Encoding -/

/-- Two bit ranges, each a lowest bit and a width, have no bit in common. -/
abbrev disjointFields (lo n lo' n' : Nat) : Prop := lo + n ≤ lo' ∨ lo' + n' ≤ lo

/-- The fields of a layout lie in bits 31 to 7 and do not overlap, in format I and in format R (R65, R66). -/
abbrev Layout.wf (l : Layout) : Prop :=
  (7 ≤ l.iRd ∧ l.iRd + 5 ≤ 32 ∧ 7 ≤ l.iRs ∧ l.iRs + 5 ≤ 32 ∧ 7 ≤ l.iSec ∧ l.iSec + 3 ≤ 32 ∧ 7 ≤ l.iImm ∧ l.iImm + 12 ≤ 32) ∧
  (disjointFields l.iRd 5 l.iRs 5 ∧ disjointFields l.iRd 5 l.iSec 3 ∧ disjointFields l.iRd 5 l.iImm 12 ∧
    disjointFields l.iRs 5 l.iSec 3 ∧ disjointFields l.iRs 5 l.iImm 12 ∧ disjointFields l.iSec 3 l.iImm 12) ∧
  (7 ≤ l.rRd ∧ l.rRd + 5 ≤ 32 ∧ 7 ≤ l.rRa ∧ l.rRa + 5 ≤ 32 ∧ 7 ≤ l.rRb ∧ l.rRb + 5 ≤ 32 ∧ 7 ≤ l.rSec ∧ l.rSec + 10 ≤ 32) ∧
  (disjointFields l.rRd 5 l.rRa 5 ∧ disjointFields l.rRd 5 l.rRb 5 ∧ disjointFields l.rRd 5 l.rSec 10 ∧
    disjointFields l.rRa 5 l.rRb 5 ∧ disjointFields l.rRa 5 l.rSec 10 ∧ disjointFields l.rRb 5 l.rSec 10)

/-- A field's bits at their place in the word. -/
def place {n : Nat} (v : BitVec n) (lo : Nat) : Word := v.setWidth 32 <<< lo

/-- A format-I word (R65). -/
def packI (l : Layout) (op : BitVec 7) (rd rs : Reg) (sec : BitVec 3) (imm : Imm12) : Word :=
  place op 0 ||| place rd l.iRd ||| place rs l.iRs ||| place sec l.iSec ||| place imm l.iImm

/-- A format-R word (R66). -/
def packR (l : Layout) (op : BitVec 7) (rd ra rb : Reg) (sec : BitVec 10) : Word :=
  place op 0 ||| place rd l.rRd ||| place ra l.rRa ||| place rb l.rRb ||| place sec l.rSec

/-- A format-L word (R63). -/
def packL (op : BitVec 7) (rd : Reg) (limm : Imm20) : Word := limm ++ rd ++ op

/-- A format-D word (R64). -/
def packD (op : BitVec 7) (disp : Disp25) : Word := disp ++ op

/-- The canonical word of an instruction: unused fields are zero (R72, R76). The four bit-field instructions share one
opcode and the word carries nothing that tells them apart (R67). -/
def encode (l : Layout) : Instr → Word
  | .add1 rd rs imm => packI l 0b1001000#7 rd rs 0b000#3 imm
  | .add2 rd ra rb => packR l 0b0001000#7 rd ra rb 0b0000000000#10
  | .sub1 rd rs imm => packI l 0b1001000#7 rd rs 0b001#3 imm
  | .sub2 rd ra rb => packR l 0b0001000#7 rd ra rb 0b0000000001#10
  | .neg rd rb => packR l 0b0001000#7 rd 0#5 rb 0b0000000010#10
  | .movn rd rb => packR l 0b0001000#7 rd 0#5 rb 0b0000000011#10
  | .or1 rd rs imm => packI l 0b1001000#7 rd rs 0b100#3 imm
  | .or2 rd ra rb => packR l 0b0001000#7 rd ra rb 0b0000000100#10
  | .xor1 rd rs imm => packI l 0b1001000#7 rd rs 0b101#3 imm
  | .xor2 rd ra rb => packR l 0b0001000#7 rd ra rb 0b0000000101#10
  | .and1 rd rs imm => packI l 0b1001000#7 rd rs 0b110#3 imm
  | .and2 rd ra rb => packR l 0b0001000#7 rd ra rb 0b0000000110#10
  | .andn1 rd rs imm => packI l 0b1001000#7 rd rs 0b111#3 imm
  | .andn2 rd ra rb => packR l 0b0001000#7 rd ra rb 0b0000000111#10
  | .movh rd limm => packL 0b1111000#7 rd limm
  | .addh rd limm => packL 0b1111001#7 rd limm
  | .orh rd limm => packL 0b1111010#7 rd limm
  | .xorh rd limm => packL 0b1111011#7 rd limm
  | .rev rd rs => packI l 0b1001001#7 rd rs 0b000#3 0#12
  | .clz rd rs => packI l 0b1001001#7 rd rs 0b010#3 0#12
  | .clo rd rs => packI l 0b1001001#7 rd rs 0b011#3 0#12
  | .swpb rd rs => packI l 0b1001001#7 rd rs 0b100#3 0#12
  | .swph rd rs => packI l 0b1001001#7 rd rs 0b101#3 0#12
  | .clpb rd rs => packI l 0b1001010#7 rd rs 0b000#3 0#12
  | .clph rd rs => packI l 0b1001010#7 rd rs 0b001#3 0#12
  | .clpbs rd rs => packI l 0b1001010#7 rd rs 0b100#3 0#12
  | .clphs rd rs => packI l 0b1001010#7 rd rs 0b101#3 0#12
  | .ror1 rd rs imm => packI l 0b1001011#7 rd rs 0b000#3 imm
  | .ror2 rd ra rb => packR l 0b0001011#7 rd ra rb 0b0000000000#10
  | .ext rd ra size shift => packR l 0b0001100#7 rd ra 0#5 (shift ++ size)
  | .exts rd ra size shift => packR l 0b0001100#7 rd ra 0#5 (shift ++ size)
  | .ins rd ra rb size shift => packR l 0b0001100#7 rd ra rb (shift ++ size)
  | .insz rd rb size shift => packR l 0b0001100#7 rd 0#5 rb (shift ++ size)
  | .mul rd ra rb => packR l 0b0001101#7 rd ra rb 0b0000000000#10
  | .mulf rd ra rb => packR l 0b0001101#7 rd ra rb 0b0000000001#10
  | .mac rd ra rb => packR l 0b0001101#7 rd ra rb 0b0000000010#10
  | .ceq1 rs imm => packI l 0b1001110#7 0#5 rs 0b000#3 imm
  | .ceq2 ra rb => packR l 0b0001110#7 0#5 ra rb 0b0000000000#10
  | .cne1 rs imm => packI l 0b1001110#7 0#5 rs 0b100#3 imm
  | .cne2 ra rb => packR l 0b0001110#7 0#5 ra rb 0b0000000100#10
  | .chi1 rs imm => packI l 0b1001110#7 0#5 rs 0b001#3 imm
  | .chi2 ra rb => packR l 0b0001110#7 0#5 ra rb 0b0000000001#10
  | .cls1 rs imm => packI l 0b1001110#7 0#5 rs 0b101#3 imm
  | .cls2 ra rb => packR l 0b0001110#7 0#5 ra rb 0b0000000101#10
  | .cgt1 rs imm => packI l 0b1001110#7 0#5 rs 0b011#3 imm
  | .cgt2 ra rb => packR l 0b0001110#7 0#5 ra rb 0b0000000011#10
  | .cle1 rs imm => packI l 0b1001110#7 0#5 rs 0b111#3 imm
  | .cle2 ra rb => packR l 0b0001110#7 0#5 ra rb 0b0000000111#10
  | .sel rd ra rb => packR l 0b0001111#7 rd ra rb 0b0000000000#10
  | .lb1 rd rs imm => packI l 0b1010000#7 rd rs 0b000#3 imm
  | .lb2 rd ra rb => packR l 0b0010000#7 rd ra rb 0b0000000000#10
  | .lbs1 rd rs imm => packI l 0b1010000#7 rd rs 0b100#3 imm
  | .lbs2 rd ra rb => packR l 0b0010000#7 rd ra rb 0b0000000100#10
  | .lh1 rd rs imm => packI l 0b1010000#7 rd rs 0b001#3 imm
  | .lh2 rd ra rb => packR l 0b0010000#7 rd ra rb 0b0000000001#10
  | .lhs1 rd rs imm => packI l 0b1010000#7 rd rs 0b101#3 imm
  | .lhs2 rd ra rb => packR l 0b0010000#7 rd ra rb 0b0000000101#10
  | .lw1 rd rs imm => packI l 0b1010000#7 rd rs 0b010#3 imm
  | .lw2 rd ra rb => packR l 0b0010000#7 rd ra rb 0b0000000010#10
  | .sb1 rd rs imm => packI l 0b1010001#7 rd rs 0b000#3 imm
  | .sb2 rd ra rb => packR l 0b0010001#7 rd ra rb 0b0000000000#10
  | .sh1 rd rs imm => packI l 0b1010001#7 rd rs 0b001#3 imm
  | .sh2 rd ra rb => packR l 0b0010001#7 rd ra rb 0b0000000001#10
  | .sw1 rd rs imm => packI l 0b1010001#7 rd rs 0b010#3 imm
  | .sw2 rd ra rb => packR l 0b0010001#7 rd ra rb 0b0000000010#10
  | .b1 disp => packD 0b1111100#7 disp
  | .b2 rd => packR l 0b0111100#7 rd 0#5 0#5 0#10
  | .bt1 disp => packD 0b1111101#7 disp
  | .bt2 rd => packR l 0b0111101#7 rd 0#5 0#5 0#10
  | .bl1 disp => packD 0b1111110#7 disp
  | .bl2 rd => packR l 0b0111110#7 rd 0#5 0#5 0#10
  | .blt1 disp => packD 0b1111111#7 disp
  | .blt2 rd => packR l 0b0111111#7 rd 0#5 0#5 0#10
  | .udf => packR l 0b0000000#7 0#5 0#5 0#5 0#10
  | .syscall => packR l 0b0000001#7 0#5 0#5 0#5 0#10
  | .mfs rd imm => packI l 0b1000100#7 rd 0#5 0#3 imm
  | .mts rd imm => packI l 0b1000101#7 rd 0#5 0#3 imm

end Sys2Proof
end

