-- ==== Sys2Proof/Machine/Memory.lean ====
section
/-! DEFINITION. The three sparse stores of State as lists in one canonical form, addresses strictly rising: memory bytes,
the set of stored addresses, and written system registers. The laws of every operation are in Laws/Memory.lean and hold of
every list, canonical or not. -/

namespace Sys2Proof.Machine

/-- Memory as its listed bytes (20_memory.md R40); an unlisted byte reads as `unwrittenByte`. -/
abbrev Memory := List Host.Cell

/-- The byte at an address. The addresses rise, so the search ends at the first greater one. -/
def Memory.get : Memory → Nat → Byte
  | [], _ => unwrittenByte
  | (a, b) :: m, k => if a < k then Memory.get m k else if a = k then b else unwrittenByte

/-- `m` without its leading entries at `k` or below. -/
def Memory.dropTo : Memory → Nat → Memory
  | [], _ => []
  | (a, b) :: m, k => if a ≤ k then Memory.dropTo m k else (a, b) :: m

/-- Write one byte; writing the value that an unlisted address reads as removes the entry. -/
def Memory.set : Memory → Nat → Byte → Memory
  | [], k, v => if v = unwrittenByte then [] else [(k, v)]
  | (a, b) :: m, k, v =>
    if a < k then (a, b) :: Memory.set m k v
    else if v = unwrittenByte then Memory.dropTo ((a, b) :: m) k
    else (k, v) :: Memory.dropTo ((a, b) :: m) k

/-- Canonical from address `lo` on: addresses strictly rising, inside the 32-bit space, no entry that reads as an
unlisted byte does. -/
def Memory.wfFrom : Nat → Memory → Bool
  | _, [] => true
  | lo, (a, b) :: m => decide (lo ≤ a) && decide (a < 2 ^ 32) && b != unwrittenByte && Memory.wfFrom (a + 1) m

/-- The canonical form of memory. -/
def Memory.wf (m : Memory) : Bool := Memory.wfFrom 0 m

/-- Add an address to a rising list of addresses. -/
def storedInsert : List Nat → Nat → List Nat
  | [], k => [k]
  | a :: l, k => if a < k then a :: storedInsert l k else if a = k then a :: l else k :: a :: l

/-- A rising list of 32-bit addresses from `lo` on. -/
def storedWfFrom : Nat → List Nat → Bool
  | _, [] => true
  | lo, a :: l => decide (lo ≤ a) && decide (a < 2 ^ 32) && storedWfFrom (a + 1) l

/-- What was last written to system register `n`, if anything (10_state.md R29). -/
def srGet : List (Nat × Word) → Nat → Option Word
  | [], _ => none
  | (a, v) :: l, k => if a = k then some v else srGet l k

/-- Write system register `k`. -/
def srSet : List (Nat × Word) → Nat → Word → List (Nat × Word)
  | [], k, v => [(k, v)]
  | (a, u) :: l, k, v => if a < k then (a, u) :: srSet l k v else if a = k then (k, v) :: l else (k, v) :: (a, u) :: l

/-- System-register numbers strictly rising from `lo` on and below 4096 (10_state.md R29). -/
def srWfFrom : Nat → List (Nat × Word) → Bool
  | _, [] => true
  | lo, (a, _) :: l => decide (lo ≤ a) && decide (a < 4096) && srWfFrom (a + 1) l

end Sys2Proof.Machine
end

