-- ==== Sys2Proof/Machine/State.lean ====
section
/-! DEFINITION. The state of the machine (10_state.md R36), the reasons a step can stop (60_exceptions.md R233), and the
state after reset. -/

namespace Sys2Proof.Machine

/-- The state of the one agent (R36), the bookkeeping R36 names, the parameters (00_scope.md R5), and one counter of the
model's own. Registers are read and written through `State.reg` and `State.setReg` only (Ops.lean). -/
structure State where
  /-- R0 to R31 (R20, R21) -/
  regs : Vector Word 32
  /-- IA, the address of the instruction being executed (R24) -/
  pc : Word
  /-- the T bit (R26) -/
  t : Bool
  /-- PRIV, the value of HasPrivilege() (R28) -/
  priv : Bool
  /-- what has been written to system registers, by number (R29). R36 gives their size as unknown. DESIGN CHOICE (entry 36,
  unsafe): one 32-bit value for each number, the width that MFS and MTS move. -/
  sr : List (Nat × Word)
  /-- memory (R32) -/
  mem : Memory
  /-- the byte addresses that stores of this run have written (R36, 20_memory.md R53) -/
  stored : List Nat
  /-- the model's own: how many times P_SR or a supplied P_TRAP, which may be draws (R266), has answered (log entry 15) -/
  draws : Nat
  /-- the parameters; no step changes them (log entry 30) -/
  cfg : Params
  deriving DecidableEq, Repr

/-- The machine stops with a named fault. -/
inductive Fault where
  /-- An exception was raised and P_TRAP is absent (60_exceptions.md R236): LH, LHS, LW, SH, SW (ALI), MFS and MTS (PRV),
  SYSCALL (SYS), UDF (UDF). Nothing has changed (R232). Safe: the hardware goes on to a trap entry that no page describes. -/
  | exception (x : Exc)
  /-- The step at an IA with bits 1:0 not zero (10_state.md R25). Safe: the hardware may do something else. -/
  | misalignedFetch (pc : Word)
  /-- The step fetched a word that no page allocates (30_encoding.md R78); not claimed to be `#UDF`. Safe. -/
  | reservedEncoding (w : Word)
  /-- The spec's "stuck": P_MEMMAP does not admit the access (20_memory.md R40). Raised by the fetch, the loads and the
  stores. Safe: there is no next state. -/
  | stuck (k : AccessKind) (n : Nat) (a : Word)
  /-- The end of a run: IA is P_END_IA (70_reset_and_hazards.md R273), nothing was fetched. Raised by the step. Safe. -/
  | runEnded
  deriving DecidableEq, Repr

/-- The model gives no meaning to what was asked. -/
inductive Refusal where
  /-- An instruction with no meaning yet; raised by exec's arms only. Safe. -/
  | notModelled (mnemonic : String)
  /-- A word of opcode `0001100` that P_BITFIELD_SELECT does not name (30_encoding.md R67); raised by the step. Safe. -/
  | bitfieldUndecodable (w : Word)
  /-- An unused field is not zero and P_UNUSED_BITS is refuse (30_encoding.md R76); raised by the step. Safe. -/
  | unusedBitsNonZero (w : Word)
  /-- BL (2) or BLT (2) with `rd = 31` (46_branch.md R215, R217); raised by the step, and by the two meanings. Safe. -/
  | linkRegisterAsTarget
  /-- A privileged MFS or MTS with P_SR absent (10_state.md R30). Safe. -/
  | systemRegisterUnmodelled (n : Imm12)
  /-- A fetch of a byte that a store of this run wrote, with P_SMC = refuse (20_memory.md R53); raised by the step. Safe. -/
  | fetchFromWrittenMemory (pc : Word)
  /-- MULF where the signed and unsigned products differ in bits 47 to 16 and P_MULF_SIGNED is absent
  (43_multiply.md R161). Safe. -/
  | mulfSignDependent
  deriving DecidableEq, Repr

/-- The outcome of a step or of an instruction. -/
abbrev Result := Host.Outcome State Fault Refusal

/-- A launch state (70_reset_and_hazards.md R263): what a claim gives, with nothing stored and nothing written to system
registers yet. -/
def State.launch (cfg : Params) (ia : Word) (priv : Bool) (regs : Vector Word 32) (t : Bool) (mem : Memory) : State where
  regs := regs
  pc := ia
  t := t
  priv := priv
  sr := []
  mem := mem
  stored := []
  draws := 0
  cfg := cfg

/-- The machine right after reset: the parameters of `resetParams`, and for what the spec leaves unspecified
(10_state.md R34) the values of Machine/Launch.lean. -/
def State.reset : State :=
  State.launch resetParams resetIa resetPriv (Vector.replicate 32 resetReg) resetT []

end Sys2Proof.Machine
end

