-- ==== Sys2Proof/Machine/Ops.lean ====
section
/-! DEFINITION. The named operations over the state: registers, IA, T, memory, system registers, and raising an
exception. -/

namespace Sys2Proof.Machine

/-! ### Registers, IA and T -/

/-- `x[i]` (00_scope.md R8). With `P_R0_ZERO`, R0 reads as 0 (10_state.md R22). -/
def State.reg (s : State) (i : Reg) : Word :=
  if s.cfg.r0Zero && i == 0#5 then 0#32 else s.regs[i.toNat]'i.isLt

/-- `x[i] <- v` (00_scope.md R8). With `P_R0_ZERO`, a write of R0 is ignored (10_state.md R22). -/
def State.setReg (s : State) (i : Reg) (v : Word) : State :=
  if s.cfg.r0Zero && i == 0#5 then s else { s with regs := s.regs.set i.toNat v i.isLt }

/-- `pc <- a`. -/
def State.setPc (s : State) (a : Word) : State := { s with pc := a }

/-- `pc <- pc + 4`, modulo 2^32 (10_state.md R24, R25). -/
def State.advance (s : State) : State := s.setPc (s.pc + 4#32)

/-- `T <- b`. -/
def State.setT (s : State) (b : Bool) : State := { s with t := b }

/-- R31, the link register LA (10_state.md R22). -/
def linkReg : Reg := 31#5

/-- `x[31] <- pc + 4`, the link of BL and BLT (46_branch.md R219). -/
def State.link (s : State) : State := s.setReg linkReg (s.pc + 4#32)

/-! ### Memory -/

/-- `Mem[a]`. -/
def State.byte (s : State) (a : Word) : Byte := s.mem.get a.toNat

/-- `Mem[a] <- b`, by a store: the address joins the bytes stored in this run (20_memory.md R53). -/
def State.setByte (s : State) (a : Word) (b : Byte) : State :=
  { s with mem := s.mem.set a.toNat b, stored := storedInsert s.stored a.toNat }

/-- Whether a store of this run has written the byte (20_memory.md R53). -/
def State.isStored (s : State) (a : Word) : Bool := s.stored.contains a.toNat

/-- The bytes at `a`, `a + 1`, …, modulo 2^32 (20_memory.md R42). -/
def State.bytesAt (s : State) : Word → Nat → List Byte
  | _, 0 => []
  | a, n + 1 => s.byte a :: s.bytesAt (a + 1#32) n

/-- `MemRead(a, n)` (20_memory.md R42), zero-extended to 32 bits. -/
def State.memRead (s : State) (a : Word) (n : Nat) : Word := assemble s.cfg.byteOrder (s.bytesAt a n)

/-- Store bytes at `a`, `a + 1`, …, modulo 2^32. -/
def State.storeBytes (s : State) : Word → List Byte → State
  | _, [] => s
  | a, b :: bs => (s.setByte a b).storeBytes (a + 1#32) bs

/-- `MemWrite(a, n, v)` (20_memory.md R42). -/
def State.memWrite (s : State) (a : Word) (n : Nat) (v : Word) : State :=
  s.storeBytes a (split s.cfg.byteOrder n v)

/-- The access sizes that a row of `P_MEMMAP` admits for one kind of access. -/
def sizesFor (r : Region) : AccessKind → List Nat
  | .load => r.loads
  | .store => r.stores
  | .fetch => r.fetches

/-- `P_MEMMAP(a, n, k)`, the predicate on address, size and kind (00_scope.md R5, 20_memory.md R40). -/
def memMapAdmits (m : List Region) (a : Word) (n : Nat) (k : AccessKind) : Bool :=
  m.any fun r => decide (r.base ≤ a.toNat) && decide (a.toNat < r.base + r.size) && (sizesFor r k).contains n

/-- Whether an access is admitted: `P_MEMMAP` admits it (20_memory.md R40) and, where its address is misaligned, admits each
of its bytes as an access of one byte (R45; log entry 7). -/
def State.admitted (s : State) (a : Word) (n : Nat) (k : AccessKind) : Bool :=
  memMapAdmits s.cfg.memMap a n k &&
    (a.toNat % n == 0 || (List.range n).all fun i => memMapAdmits s.cfg.memMap (a + BitVec.ofNat 32 i) 1 k)

/-- `AlignCheck(a, n)` passes (20_memory.md R44). -/
def State.aligned (s : State) (a : Word) (n : Nat) : Bool := s.cfg.unaligned || a.toNat % n == 0

/-! ### Taking an exception -/

/-- `P_EXC_CODE` (60_exceptions.md R231). -/
def excCodeOf (p : Params) (x : Exc) : Option Nat :=
  match p.excCode, x with
  | none, _ => none
  | some c, .ali _ => some c.ali
  | some c, .prv => some c.prv
  | some c, .sys => some c.sys
  | some c, .udf => some c.udf

/-- Write a list of system registers, the first first. -/
def State.setSrs (s : State) : List (Imm12 × Word) → State
  | [] => s
  | (n, v) :: l => State.setSrs { s with sr := srSet s.sr n.toNat v } l

/-- Write a list of memory bytes, the first first. -/
def State.setBytes (s : State) : List (Word × Byte) → State
  | [] => s
  | (a, b) :: l => (s.setByte a b).setBytes l

/-- The state that a supplied `P_TRAP` makes of the state before the raising instruction (60_exceptions.md R236); the entry
counts as one draw, for `P_TRAP` may be a draw (70_reset_and_hazards.md R266). -/
def State.enterTrap (s : State) (x : Exc) : State :=
  let e := Config.trapEntry s.draws x (excCodeOf s.cfg x) s.regs s.pc s.t s.priv s.sr s.mem
  ({ s with regs := e.regs, pc := e.pc, t := e.t, priv := e.priv, draws := s.draws + 1 }.setSrs e.srWrites).setBytes e.memWrites

/-- `raise x` (60_exceptions.md R236): with `P_TRAP` absent the terminal fault that names the exception, with `P_TRAP`
supplied its next state. The raising instruction has changed nothing (R232). -/
def raise (x : Exc) (s : State) : Result :=
  if s.cfg.trapSupplied then .next (s.enterTrap x) else .fault (.exception x)

/-! ### System registers, and the return that a P_SR may bring -/

/-- What an access to a platform's system register changes beside its result (log entry 34); it counts as one draw (R266). -/
def State.applySr (s : State) (e : SrEffect) : State :=
  { s.setSrs e.srWrites with t := e.t, priv := e.priv, draws := s.draws + 1 }

/-- `SRRead(n)` (10_state.md R30): the value, and the state after the read; none where `P_SR` is absent. -/
def srRead (n : Imm12) (s : State) : Option (Word × State) :=
  match s.cfg.sysRegs with
  | .absent => none
  | .draw => some (Config.srDraw s.draws, { s with draws := s.draws + 1 })
  | .platform =>
    let r := Config.srRead s.draws n s.regs s.pc s.t s.priv s.sr s.mem
    some (r.1, s.applySr r.2)

/-- `SRWrite(n, v); pc <- pc + 4` (47_system.md R223): none where `P_SR` is absent. Under a draw the write is recorded and
no read depends on it. A platform's write may change system registers, PRIV (60_exceptions.md R241) and T
(92_eei_decisions.md D20), and may resume code at an address of its own, which is the only return from an exception the
spec has room for (60_exceptions.md R237). -/
def srWriteAdvance (n : Imm12) (v : Word) (s : State) : Option State :=
  match s.cfg.sysRegs with
  | .absent => none
  | .draw => some { s with sr := srSet s.sr n.toNat v }.advance
  | .platform =>
    let w := Config.srWrite s.draws n v s.regs s.pc s.t s.priv s.sr s.mem
    match w.2 with
    | none => some (s.applySr w.1).advance
    | some a => some ((s.applySr w.1).setPc a)

/-! ### Shared shapes of instructions -/

/-- Write `v` to R`rd` and go on (R24): the arithmetic and bit instructions. -/
def writeReg (rd : Reg) (v : Word) (s : State) : Result := .next (s.setReg rd v).advance

/-- Write T and go on: the compares (44_compare_select.md R183). -/
def writeT (b : Bool) (s : State) : Result := .next (s.setT b).advance

/-- A load (45_load_store.md R190): alignment, admission, read, extension, destination, `pc + 4`. -/
def loadReg (n : Nat) (widen : Word → Word) (rd : Reg) (a : Word) (s : State) : Result :=
  if s.aligned a n then
    if s.admitted a n .load then writeReg rd (widen (s.memRead a n)) s else .fault (.stuck .load n a)
  else raise (.ali a) s

/-- A store (45_load_store.md R190): alignment, admission, write, `pc + 4`. -/
def storeReg (n : Nat) (rd : Reg) (a : Word) (s : State) : Result :=
  if s.aligned a n then
    if s.admitted a n .store then .next (s.memWrite a n (s.reg rd)).advance else .fault (.stuck .store n a)
  else raise (.ali a) s

/-- A branch to `target` where `taken`, else the next instruction (46_branch.md R219). -/
def branchTo (taken : Bool) (target : Word) (s : State) : Result :=
  .next (if taken then s.setPc target else s.advance)

/-- The same with the link written first, taken or not (46_branch.md R216, R219); the target was read before. -/
def branchLink (taken : Bool) (target : Word) (s : State) : Result :=
  branchTo taken target s.link

end Sys2Proof.Machine
end

