-- ==== Sys2Proof/Machine/Operands.lean ====
section
/-! DEFINITION. The operand forms that read the state: effective addresses and branch targets. Immediates are in Bits.lean,
register operands are `State.reg`. -/

namespace Sys2Proof.Machine

/-- `[RS, #imm]`: base plus sign-extended displacement, modulo 2^32 (20_memory.md R47, 45_load_store.md R190). -/
def State.eaDisp (s : State) (rs : Reg) (imm : Imm12) : Word := s.reg rs + sext12 imm

/-- `[RA, RB]`: base plus index, modulo 2^32 (20_memory.md R47, 45_load_store.md R190). -/
def State.eaIndex (s : State) (ra rb : Reg) : Word := s.reg ra + s.reg rb

/-- The target of a format-D branch, from the branch's own address (46_branch.md R219). -/
def State.relTarget (s : State) (disp : Disp25) : Word := s.pc + branchOffset disp

end Sys2Proof.Machine
end

