-- ==== Sys2Proof/Machine/Alu.lean ====
section
/-! DEFINITION. The ALU group (40_alu.md R100 to R114). No form writes T or raises an exception; immediates are
zero-extended (R114; log entry 5). -/

namespace Sys2Proof.Machine

/-- R100 -/
def execAdd1 (rd rs : Reg) (imm : Imm12) (s : State) : Result := writeReg rd (s.reg rs + zext12 imm) s

/-- R101 -/
def execAdd2 (rd ra rb : Reg) (s : State) : Result := writeReg rd (s.reg ra + s.reg rb) s

/-- R102 -/
def execSub1 (rd rs : Reg) (imm : Imm12) (s : State) : Result := writeReg rd (s.reg rs - zext12 imm) s

/-- R103 -/
def execSub2 (rd ra rb : Reg) (s : State) : Result := writeReg rd (s.reg ra - s.reg rb) s

/-- R104 -/
def execNeg (rd rb : Reg) (s : State) : Result := writeReg rd (0#32 - s.reg rb) s

/-- R105 -/
def execMovn (rd rb : Reg) (s : State) : Result := writeReg rd (~~~s.reg rb) s

/-- R106 -/
def execOr1 (rd rs : Reg) (imm : Imm12) (s : State) : Result := writeReg rd (s.reg rs ||| zext12 imm) s

/-- R107 -/
def execOr2 (rd ra rb : Reg) (s : State) : Result := writeReg rd (s.reg ra ||| s.reg rb) s

/-- R108 -/
def execXor1 (rd rs : Reg) (imm : Imm12) (s : State) : Result := writeReg rd (s.reg rs ^^^ zext12 imm) s

/-- R109, with the operation of 90_conflicts.md C3. -/
def execXor2 (rd ra rb : Reg) (s : State) : Result := writeReg rd (s.reg ra ^^^ s.reg rb) s

/-- R110 -/
def execAnd1 (rd rs : Reg) (imm : Imm12) (s : State) : Result := writeReg rd (s.reg rs &&& zext12 imm) s

/-- R111 -/
def execAnd2 (rd ra rb : Reg) (s : State) : Result := writeReg rd (s.reg ra &&& s.reg rb) s

/-- R112: the complement is taken after the extension. -/
def execAndn1 (rd rs : Reg) (imm : Imm12) (s : State) : Result := writeReg rd (s.reg rs &&& ~~~zext12 imm) s

/-- R113: RB is the complemented operand. -/
def execAndn2 (rd ra rb : Reg) (s : State) : Result := writeReg rd (s.reg ra &&& ~~~s.reg rb) s

end Sys2Proof.Machine
end

