-- ==== Sys2Proof/Machine/BitOps.lean ====
section
/-! DEFINITION. Bit operations, clips, rotates and the bit-field group (42_bit_ops.md R134 to R150). -/

namespace Sys2Proof.Machine

/-- R134 -/
def execRev (rd rs : Reg) (s : State) : Result := writeReg rd (rev (s.reg rs)) s

/-- R135 -/
def execClz (rd rs : Reg) (s : State) : Result := writeReg rd (clz (s.reg rs)) s

/-- R136 -/
def execClo (rd rs : Reg) (s : State) : Result := writeReg rd (clo (s.reg rs)) s

/-- R137 -/
def execSwpb (rd rs : Reg) (s : State) : Result := writeReg rd (swapBytes (s.reg rs)) s

/-- R138 -/
def execSwph (rd rs : Reg) (s : State) : Result := writeReg rd (swapHalves (s.reg rs)) s

/-- R139: the comparison is unsigned. -/
def execClpb (rd rs : Reg) (s : State) : Result := writeReg rd (clipUnsigned 0xFF#32 (s.reg rs)) s

/-- R140: the comparison is unsigned. -/
def execClph (rd rs : Reg) (s : State) : Result := writeReg rd (clipUnsigned 0xFFFF#32 (s.reg rs)) s

/-- R141 -/
def execClpbs (rd rs : Reg) (s : State) : Result := writeReg rd (clipSigned 0xFFFFFF80#32 0x7F#32 (s.reg rs)) s

/-- R142; the tested register is RS (90_conflicts.md C4). -/
def execClphs (rd rs : Reg) (s : State) : Result := writeReg rd (clipSigned 0xFFFF8000#32 0x7FFF#32 (s.reg rs)) s

/-- R143: the amount is `imm[4:0]`. -/
def execRor1 (rd rs : Reg) (imm : Imm12) (s : State) : Result := writeReg rd (ror (s.reg rs) (imm.setWidth 5)) s

/-- R144: the amount is `x[rb][4:0]`. -/
def execRor2 (rd ra rb : Reg) (s : State) : Result := writeReg rd (ror (s.reg ra) ((s.reg rb).setWidth 5)) s

/-- R146 -/
def execExt (rd ra : Reg) (size shift : BitVec 5) (s : State) : Result :=
  writeReg rd (extract (s.reg ra) size shift) s

/-- R147 -/
def execExts (rd ra : Reg) (size shift : BitVec 5) (s : State) : Result :=
  writeReg rd (extractSigned (s.reg ra) size shift) s

/-- R148: RA is the background, RB the field. -/
def execIns (rd ra rb : Reg) (size shift : BitVec 5) (s : State) : Result :=
  writeReg rd (insert (s.reg ra) (s.reg rb) size shift) s

/-- R149 -/
def execInsz (rd rb : Reg) (size shift : BitVec 5) (s : State) : Result :=
  writeReg rd (insertZero (s.reg rb) size shift) s

end Sys2Proof.Machine
end

