-- ==== Sys2Proof/Machine/Branch.lean ====
section
/-! DEFINITION. Branches (46_branch.md R210 to R219). A register target is taken unchanged; every operand is read before the
link is written (00_scope.md R10). -/

namespace Sys2Proof.Machine

/-- R210 -/
def execB1 (disp : Disp25) (s : State) : Result := branchTo true (s.relTarget disp) s

/-- R211 -/
def execB2 (rd : Reg) (s : State) : Result := branchTo true (s.reg rd) s

/-- R212 -/
def execBt1 (disp : Disp25) (s : State) : Result := branchTo s.t (s.relTarget disp) s

/-- R213 -/
def execBt2 (rd : Reg) (s : State) : Result := branchTo s.t (s.reg rd) s

/-- R214 -/
def execBl1 (disp : Disp25) (s : State) : Result := branchLink true (s.relTarget disp) s

/-- R215: R31 cannot be the target register. -/
def execBl2 (rd : Reg) (s : State) : Result :=
  if rd = linkReg then .refused .linkRegisterAsTarget else branchLink true (s.reg rd) s

/-- R216: R31 is written taken or not (90_conflicts.md C7). -/
def execBlt1 (disp : Disp25) (s : State) : Result := branchLink s.t (s.relTarget disp) s

/-- R217: R31 cannot be the target register; R31 is written taken or not. -/
def execBlt2 (rd : Reg) (s : State) : Result :=
  if rd = linkReg then .refused .linkRegisterAsTarget else branchLink s.t (s.reg rd) s

end Sys2Proof.Machine
end

