-- ==== Sys2Proof/Machine/Flags.lean ====
section
/-! DEFINITION. The six relations that the compares write to T (44_compare_select.md R183). T is the only flag
(10_state.md R26). -/

namespace Sys2Proof.Machine

/-- CEQ: equal (R170, R171). -/
def isEqual (a b : Word) : Bool := a == b

/-- CNE: not equal (R172, R173). -/
def isNotEqual (a b : Word) : Bool := a != b

/-- CHI: unsigned greater than (R174, R175). -/
def isHigher (a b : Word) : Bool := b.ult a

/-- CLS: unsigned lower than or same (R176, R177). -/
def isLowerSame (a b : Word) : Bool := a.ule b

/-- CGT: signed greater than (R178, R179). -/
def isGreater (a b : Word) : Bool := b.slt a

/-- CLE: signed less than or equal (R180, R181). -/
def isLessEqual (a b : Word) : Bool := a.sle b

end Sys2Proof.Machine
end

