-- ==== Sys2Proof/Machine/Compare.lean ====
section
/-! DEFINITION. Compares and SEL (44_compare_select.md R170 to R183). CEQ, CNE, CHI and CLS zero-extend the immediate, CGT
and CLE sign-extend it (R183). -/

namespace Sys2Proof.Machine

/-- R170 -/
def execCeq1 (rs : Reg) (imm : Imm12) (s : State) : Result := writeT (isEqual (s.reg rs) (zext12 imm)) s

/-- R171 -/
def execCeq2 (ra rb : Reg) (s : State) : Result := writeT (isEqual (s.reg ra) (s.reg rb)) s

/-- R172 -/
def execCne1 (rs : Reg) (imm : Imm12) (s : State) : Result := writeT (isNotEqual (s.reg rs) (zext12 imm)) s

/-- R173 -/
def execCne2 (ra rb : Reg) (s : State) : Result := writeT (isNotEqual (s.reg ra) (s.reg rb)) s

/-- R174 -/
def execChi1 (rs : Reg) (imm : Imm12) (s : State) : Result := writeT (isHigher (s.reg rs) (zext12 imm)) s

/-- R175 -/
def execChi2 (ra rb : Reg) (s : State) : Result := writeT (isHigher (s.reg ra) (s.reg rb)) s

/-- R176 -/
def execCls1 (rs : Reg) (imm : Imm12) (s : State) : Result := writeT (isLowerSame (s.reg rs) (zext12 imm)) s

/-- R177 -/
def execCls2 (ra rb : Reg) (s : State) : Result := writeT (isLowerSame (s.reg ra) (s.reg rb)) s

/-- R178 -/
def execCgt1 (rs : Reg) (imm : Imm12) (s : State) : Result := writeT (isGreater (s.reg rs) (sext12 imm)) s

/-- R179 -/
def execCgt2 (ra rb : Reg) (s : State) : Result := writeT (isGreater (s.reg ra) (s.reg rb)) s

/-- R180 -/
def execCle1 (rs : Reg) (imm : Imm12) (s : State) : Result := writeT (isLessEqual (s.reg rs) (sext12 imm)) s

/-- R181 -/
def execCle2 (ra rb : Reg) (s : State) : Result := writeT (isLessEqual (s.reg ra) (s.reg rb)) s

/-- R182: T set selects RA. -/
def execSel (rd ra rb : Reg) (s : State) : Result := writeReg rd (if s.t then s.reg ra else s.reg rb) s

end Sys2Proof.Machine
end

