-- ==== Sys2Proof/Machine/LoadStore.lean ====
section
/-! DEFINITION. Loads and stores (45_load_store.md R190 to R206). A load's value is zero-extended by `MemRead`; LBS and LHS
sign-extend it. In the stores RD is the data register. -/

namespace Sys2Proof.Machine

/-- R191 -/
def execLb1 (rd rs : Reg) (imm : Imm12) (s : State) : Result := loadReg 1 id rd (s.eaDisp rs imm) s

/-- R192 -/
def execLb2 (rd ra rb : Reg) (s : State) : Result := loadReg 1 id rd (s.eaIndex ra rb) s

/-- R193 -/
def execLbs1 (rd rs : Reg) (imm : Imm12) (s : State) : Result := loadReg 1 sext8 rd (s.eaDisp rs imm) s

/-- R194 -/
def execLbs2 (rd ra rb : Reg) (s : State) : Result := loadReg 1 sext8 rd (s.eaIndex ra rb) s

/-- R195 -/
def execLh1 (rd rs : Reg) (imm : Imm12) (s : State) : Result := loadReg 2 id rd (s.eaDisp rs imm) s

/-- R196 -/
def execLh2 (rd ra rb : Reg) (s : State) : Result := loadReg 2 id rd (s.eaIndex ra rb) s

/-- R197 -/
def execLhs1 (rd rs : Reg) (imm : Imm12) (s : State) : Result := loadReg 2 sext16 rd (s.eaDisp rs imm) s

/-- R198 -/
def execLhs2 (rd ra rb : Reg) (s : State) : Result := loadReg 2 sext16 rd (s.eaIndex ra rb) s

/-- R199 -/
def execLw1 (rd rs : Reg) (imm : Imm12) (s : State) : Result := loadReg 4 id rd (s.eaDisp rs imm) s

/-- R200 -/
def execLw2 (rd ra rb : Reg) (s : State) : Result := loadReg 4 id rd (s.eaIndex ra rb) s

/-- R201 -/
def execSb1 (rd rs : Reg) (imm : Imm12) (s : State) : Result := storeReg 1 rd (s.eaDisp rs imm) s

/-- R202; the opcode is corrected by 90_conflicts.md C1 -/
def execSb2 (rd ra rb : Reg) (s : State) : Result := storeReg 1 rd (s.eaIndex ra rb) s

/-- R203 -/
def execSh1 (rd rs : Reg) (imm : Imm12) (s : State) : Result := storeReg 2 rd (s.eaDisp rs imm) s

/-- R204; the opcode is corrected by 90_conflicts.md C1 -/
def execSh2 (rd ra rb : Reg) (s : State) : Result := storeReg 2 rd (s.eaIndex ra rb) s

/-- R205 -/
def execSw1 (rd rs : Reg) (imm : Imm12) (s : State) : Result := storeReg 4 rd (s.eaDisp rs imm) s

/-- R206 -/
def execSw2 (rd ra rb : Reg) (s : State) : Result := storeReg 4 rd (s.eaIndex ra rb) s

end Sys2Proof.Machine
end

