-- ==== Sys2Proof/Machine/LongImm.lean ====
section
/-! DEFINITION. The long-immediate group (41_long_immediate.md R120 to R124). -/

namespace Sys2Proof.Machine

/-- R120: RD is not read. -/
def execMovh (rd : Reg) (limm : Imm20) (s : State) : Result := writeReg rd (highImm limm) s

/-- R121 -/
def execAddh (rd : Reg) (limm : Imm20) (s : State) : Result := writeReg rd (s.reg rd + highImm limm) s

/-- R122 -/
def execOrh (rd : Reg) (limm : Imm20) (s : State) : Result := writeReg rd (s.reg rd ||| highImm limm) s

/-- R123 -/
def execXorh (rd : Reg) (limm : Imm20) (s : State) : Result := writeReg rd (s.reg rd ^^^ highImm limm) s

end Sys2Proof.Machine
end

