-- ==== Sys2Proof/Machine/Multiply.lean ====
section
/-! DEFINITION. The multiply group (43_multiply.md R160 to R164). -/

namespace Sys2Proof.Machine

/-- R160 -/
def execMul (rd ra rb : Reg) (s : State) : Result := writeReg rd (s.reg ra * s.reg rb) s

/-- MULF's value under `P_MULF_SIGNED` (R161); none where it is absent and the two readings differ. -/
def mulfValue (m : MulfSign) (a b : Word) : Option Word :=
  match m with
  | .signed => some (mulfSigned a b)
  | .unsigned => some (mulfUnsigned a b)
  | .absent => if mulfUnsigned a b = mulfSigned a b then some (mulfUnsigned a b) else none
  | .unknown => some (if Config.mulfSigned then mulfSigned a b else mulfUnsigned a b)

/-- R161 -/
def execMulf (rd ra rb : Reg) (s : State) : Result :=
  match mulfValue s.cfg.mulfSign (s.reg ra) (s.reg rb) with
  | some v => writeReg rd v s
  | none => .refused .mulfSignDependent

/-- R162: RD is the addend. -/
def execMac (rd ra rb : Reg) (s : State) : Result := writeReg rd (s.reg ra * s.reg rb + s.reg rd) s

end Sys2Proof.Machine
end

