-- ==== Sys2Proof/Machine/System.lean ====
section
/-! DEFINITION. System instructions (47_system.md R220 to R224). -/

namespace Sys2Proof.Machine

/-- R220 -/
def execUdf (s : State) : Result := raise .udf s

/-- R221 -/
def execSyscall (s : State) : Result := raise .sys s

/-- R222: the privilege test comes before any look at the register number. -/
def execMfs (rd : Reg) (imm : Imm12) (s : State) : Result :=
  if s.priv then
    match srRead imm s with
    | some (v, s') => writeReg rd v s'
    | none => .refused (.systemRegisterUnmodelled imm)
  else raise .prv s

/-- R223: RD is read. -/
def execMts (rd : Reg) (imm : Imm12) (s : State) : Result :=
  if s.priv then
    match srWriteAdvance imm (s.reg rd) s with
    | some s' => .next s'
    | none => .refused (.systemRegisterUnmodelled imm)
  else raise .prv s

end Sys2Proof.Machine
end

