-- ==== Sys2Proof/Machine/Dispatch.lean ====
section
/-! DEFINITION. The meaning of each instruction, one arm per constructor. -/

namespace Sys2Proof.Machine

def exec (i : Instr) (s : State) : Host.Outcome State Fault Refusal :=
  match i with
  | .add1 rd rs imm => Sys2Proof.Machine.execAdd1 rd rs imm s
  | .add2 rd ra rb => Sys2Proof.Machine.execAdd2 rd ra rb s
  | .sub1 rd rs imm => Sys2Proof.Machine.execSub1 rd rs imm s
  | .sub2 rd ra rb => Sys2Proof.Machine.execSub2 rd ra rb s
  | .neg rd rb => Sys2Proof.Machine.execNeg rd rb s
  | .movn rd rb => Sys2Proof.Machine.execMovn rd rb s
  | .or1 rd rs imm => Sys2Proof.Machine.execOr1 rd rs imm s
  | .or2 rd ra rb => Sys2Proof.Machine.execOr2 rd ra rb s
  | .xor1 rd rs imm => Sys2Proof.Machine.execXor1 rd rs imm s
  | .xor2 rd ra rb => Sys2Proof.Machine.execXor2 rd ra rb s
  | .and1 rd rs imm => Sys2Proof.Machine.execAnd1 rd rs imm s
  | .and2 rd ra rb => Sys2Proof.Machine.execAnd2 rd ra rb s
  | .andn1 rd rs imm => Sys2Proof.Machine.execAndn1 rd rs imm s
  | .andn2 rd ra rb => Sys2Proof.Machine.execAndn2 rd ra rb s
  | .movh rd limm => Sys2Proof.Machine.execMovh rd limm s
  | .addh rd limm => Sys2Proof.Machine.execAddh rd limm s
  | .orh rd limm => Sys2Proof.Machine.execOrh rd limm s
  | .xorh rd limm => Sys2Proof.Machine.execXorh rd limm s
  | .rev rd rs => Sys2Proof.Machine.execRev rd rs s
  | .clz rd rs => Sys2Proof.Machine.execClz rd rs s
  | .clo rd rs => Sys2Proof.Machine.execClo rd rs s
  | .swpb rd rs => Sys2Proof.Machine.execSwpb rd rs s
  | .swph rd rs => Sys2Proof.Machine.execSwph rd rs s
  | .clpb rd rs => Sys2Proof.Machine.execClpb rd rs s
  | .clph rd rs => Sys2Proof.Machine.execClph rd rs s
  | .clpbs rd rs => Sys2Proof.Machine.execClpbs rd rs s
  | .clphs rd rs => Sys2Proof.Machine.execClphs rd rs s
  | .ror1 rd rs imm => Sys2Proof.Machine.execRor1 rd rs imm s
  | .ror2 rd ra rb => Sys2Proof.Machine.execRor2 rd ra rb s
  | .ext rd ra size shift => Sys2Proof.Machine.execExt rd ra size shift s
  | .exts rd ra size shift => Sys2Proof.Machine.execExts rd ra size shift s
  | .ins rd ra rb size shift => Sys2Proof.Machine.execIns rd ra rb size shift s
  | .insz rd rb size shift => Sys2Proof.Machine.execInsz rd rb size shift s
  | .mul rd ra rb => Sys2Proof.Machine.execMul rd ra rb s
  | .mulf rd ra rb => Sys2Proof.Machine.execMulf rd ra rb s
  | .mac rd ra rb => Sys2Proof.Machine.execMac rd ra rb s
  | .ceq1 rs imm => Sys2Proof.Machine.execCeq1 rs imm s
  | .ceq2 ra rb => Sys2Proof.Machine.execCeq2 ra rb s
  | .cne1 rs imm => Sys2Proof.Machine.execCne1 rs imm s
  | .cne2 ra rb => Sys2Proof.Machine.execCne2 ra rb s
  | .chi1 rs imm => Sys2Proof.Machine.execChi1 rs imm s
  | .chi2 ra rb => Sys2Proof.Machine.execChi2 ra rb s
  | .cls1 rs imm => Sys2Proof.Machine.execCls1 rs imm s
  | .cls2 ra rb => Sys2Proof.Machine.execCls2 ra rb s
  | .cgt1 rs imm => Sys2Proof.Machine.execCgt1 rs imm s
  | .cgt2 ra rb => Sys2Proof.Machine.execCgt2 ra rb s
  | .cle1 rs imm => Sys2Proof.Machine.execCle1 rs imm s
  | .cle2 ra rb => Sys2Proof.Machine.execCle2 ra rb s
  | .sel rd ra rb => Sys2Proof.Machine.execSel rd ra rb s
  | .lb1 rd rs imm => Sys2Proof.Machine.execLb1 rd rs imm s
  | .lb2 rd ra rb => Sys2Proof.Machine.execLb2 rd ra rb s
  | .lbs1 rd rs imm => Sys2Proof.Machine.execLbs1 rd rs imm s
  | .lbs2 rd ra rb => Sys2Proof.Machine.execLbs2 rd ra rb s
  | .lh1 rd rs imm => Sys2Proof.Machine.execLh1 rd rs imm s
  | .lh2 rd ra rb => Sys2Proof.Machine.execLh2 rd ra rb s
  | .lhs1 rd rs imm => Sys2Proof.Machine.execLhs1 rd rs imm s
  | .lhs2 rd ra rb => Sys2Proof.Machine.execLhs2 rd ra rb s
  | .lw1 rd rs imm => Sys2Proof.Machine.execLw1 rd rs imm s
  | .lw2 rd ra rb => Sys2Proof.Machine.execLw2 rd ra rb s
  | .sb1 rd rs imm => Sys2Proof.Machine.execSb1 rd rs imm s
  | .sb2 rd ra rb => Sys2Proof.Machine.execSb2 rd ra rb s
  | .sh1 rd rs imm => Sys2Proof.Machine.execSh1 rd rs imm s
  | .sh2 rd ra rb => Sys2Proof.Machine.execSh2 rd ra rb s
  | .sw1 rd rs imm => Sys2Proof.Machine.execSw1 rd rs imm s
  | .sw2 rd ra rb => Sys2Proof.Machine.execSw2 rd ra rb s
  | .b1 disp => Sys2Proof.Machine.execB1 disp s
  | .b2 rd => Sys2Proof.Machine.execB2 rd s
  | .bt1 disp => Sys2Proof.Machine.execBt1 disp s
  | .bt2 rd => Sys2Proof.Machine.execBt2 rd s
  | .bl1 disp => Sys2Proof.Machine.execBl1 disp s
  | .bl2 rd => Sys2Proof.Machine.execBl2 rd s
  | .blt1 disp => Sys2Proof.Machine.execBlt1 disp s
  | .blt2 rd => Sys2Proof.Machine.execBlt2 rd s
  | .udf => Sys2Proof.Machine.execUdf s
  | .syscall => Sys2Proof.Machine.execSyscall s
  | .mfs rd imm => Sys2Proof.Machine.execMfs rd imm s
  | .mts rd imm => Sys2Proof.Machine.execMts rd imm s

end Sys2Proof.Machine
end

