-- ==== Sys2Proof/Machine/Fetch.lean ====
section
/-! DEFINITION. What the step calls (70_reset_and_hazards.md R265): the tests before the fetch, the fetch, and what each
answer of the decoder leads to. -/

namespace Sys2Proof.Machine

/-- A byte of the word at IA was written by a store of this run and `P_SMC` is refuse (20_memory.md R53). -/
def State.fetchesStored (s : State) : Bool :=
  match s.cfg.smc with
  | .coherent => false
  | .refuse => (List.range 4).any fun i => s.isStored (s.pc + BitVec.ofNat 32 i)

/-- The instruction word at IA (20_memory.md R43). -/
def State.fetchWord (s : State) : Word := s.memRead s.pc 4

/-- Step 6 of R265, or the outcome that decoding ended in (60_exceptions.md R233). -/
def runDecoded (w : Word) (s : State) : Result :=
  match decode s.cfg w with
  | .instr i => exec i s
  | .reservedEncoding => .fault (.reservedEncoding w)
  | .bitfieldUndecodable => .refused (.bitfieldUndecodable w)
  | .unusedBitsNonZero => .refused (.unusedBitsNonZero w)
  | .linkRegisterAsTarget => .refused .linkRegisterAsTarget
  | .tooShort => .fault (.reservedEncoding w)

/-- One step, in the order of R265; before it the end of the run at `P_END_IA` (R273). -/
def stepInstr (s : State) : Result :=
  if s.cfg.endIa = some s.pc then .fault .runEnded
  else if s.pc.extractLsb' 0 2 ≠ 0#2 then .fault (.misalignedFetch s.pc)
  else if s.admitted s.pc 4 .fetch then
    if s.fetchesStored then .refused (.fetchFromWrittenMemory s.pc) else runDecoded s.fetchWord s
  else .fault (.stuck .fetch 4 s.pc)

/-- Place bytes at `a`, `a + 1`, … as part of the memory image a run starts from: the addresses leave the bytes stored in
this run. -/
def State.loadImage (s : State) : Word → List Byte → State
  | _, [] => s
  | a, b :: bs =>
    State.loadImage { s with mem := s.mem.set a.toNat b, stored := s.stored.filter (· != a.toNat) } (a + 1#32) bs

/-- `s` with the instruction whose bits are `w` (zero from `nbits` on) placed at IA in the byte order of the machine. -/
def placeFetchWord (s : State) (nbits w : Nat) : State :=
  s.loadImage s.pc (split s.cfg.byteOrder 4 (BitVec.ofNat 32 (w % 2 ^ nbits)))

end Sys2Proof.Machine
end

