-- ==== Sys2Proof/Machine/Step.lean ====
section
/-! DEFINITION. The step (70_reset_and_hazards.md R265) and the host's way to place one instruction where it is fetched. -/

namespace Sys2Proof.Machine

/-- One step of the machine. -/
def step (s : State) : Host.Outcome State Fault Refusal := stepInstr s

/-- `s` with the instruction stored where `step` fetches its next instruction; it stands for the load of a program from
outside the machine (log entry 29). -/
def State.withFetchWord (s : State) (nbits w : Nat) : State := placeFetchWord s nbits w

end Sys2Proof.Machine
end

