-- ==== Sys2Proof/Safety.lean ====
section
/-! DEFINITION. The terms that the statements use: what an instruction leaves unchanged, the shapes of its effect, the
spec's own reading of memory, the classes of instructions that whole-machine rules name, and the invariant of the state. -/

namespace Sys2Proof.Machine

/-! ### Frames -/

/-- No general register differs. -/
def SameRegs (s t : State) : Prop := ∀ r, t.reg r = s.reg r

/-- R`rd` holds `v` and no other register differs; with `P_R0_ZERO`, R0 reads as 0 whatever is written (10_state.md R22). -/
def RegWritten (s t : State) (rd : Reg) (v : Word) : Prop :=
  ∀ r, t.reg r = if r = rd then (if s.cfg.r0Zero = true ∧ rd = 0#5 then 0#32 else v) else s.reg r

/-- Every byte of memory reads as before, and no byte joined or left the bytes stored in this run. -/
def SameMemory (s t : State) : Prop := ∀ a, t.byte a = s.byte a ∧ t.isStored a = s.isStored a

/-- PRIV, the system registers, the model's draw counter and the parameters are as before. -/
def SameSystem (s t : State) : Prop := t.priv = s.priv ∧ t.sr = s.sr ∧ t.draws = s.draws ∧ t.cfg = s.cfg

/-! ### Shapes of an effect: each says that the instruction completes, and everything it leaves unchanged -/

/-- The instruction writes `v` to R`rd` and goes on at `pc + 4`; nothing else changes. -/
def SetsReg (o : Result) (s : State) (rd : Reg) (v : Word) : Prop :=
  ∃ t, o = .next t ∧ RegWritten s t rd v ∧ t.pc = s.pc + 4#32 ∧ t.t = s.t ∧ SameSystem s t ∧ SameMemory s t

/-- The instruction sets T exactly where `holds`, and goes on at `pc + 4`; nothing else changes. -/
def SetsT (o : Result) (s : State) (holds : Prop) : Prop :=
  ∃ t, o = .next t ∧ (t.t = true ↔ holds) ∧ t.pc = s.pc + 4#32 ∧ SameRegs s t ∧ SameSystem s t ∧ SameMemory s t

/-- The instruction goes to `target`; nothing else changes. -/
def GoesTo (o : Result) (s : State) (target : Word) : Prop :=
  ∃ t, o = .next t ∧ t.pc = target ∧ t.t = s.t ∧ SameRegs s t ∧ SameSystem s t ∧ SameMemory s t

/-- The instruction writes `pc + 4` to R31 and goes to `target`; nothing else changes. -/
def LinksAndGoesTo (o : Result) (s : State) (target : Word) : Prop :=
  ∃ t, o = .next t ∧ t.pc = target ∧ RegWritten s t 31#5 (s.pc + 4#32) ∧ t.t = s.t ∧ SameSystem s t ∧ SameMemory s t

/-- Byte `k` of the low `n` bytes of `v` as `MemWrite` lays them out (20_memory.md R42). -/
def laidByte (o : ByteOrder) (n : Nat) (v : Word) (k : Nat) : Byte :=
  match o with
  | .little => v.extractLsb' (8 * k) 8
  | .big => v.extractLsb' (8 * (n - 1 - k)) 8

/-- Exactly the `n` bytes from `a` on, modulo 2^32, are written with the low `n` bytes of `v` (20_memory.md R42), and
exactly they join the bytes stored in this run. -/
def MemWritten (s t : State) (a : Word) (n : Nat) (v : Word) : Prop :=
  ∀ b : Word, t.byte b = (if (b - a).toNat < n then laidByte s.cfg.byteOrder n v (b - a).toNat else s.byte b) ∧
    t.isStored b = (s.isStored b || decide ((b - a).toNat < n))

/-- The instruction stores the low `n` bytes of `v` at `a` and goes on at `pc + 4`; nothing else changes. -/
def Stores (o : Result) (s : State) (a : Word) (n : Nat) (v : Word) : Prop :=
  ∃ t, o = .next t ∧ MemWritten s t a n v ∧ t.pc = s.pc + 4#32 ∧ t.t = s.t ∧ SameRegs s t ∧ SameSystem s t

/-- `MemRead(a, 2)`, the two bytes as 20_memory.md R42 assembles them. -/
def halfAt (s : State) (a : Word) : BitVec 16 :=
  match s.cfg.byteOrder with
  | .little => s.byte (a + 1#32) ++ s.byte a
  | .big => s.byte a ++ s.byte (a + 1#32)

/-- `MemRead(a, 4)`, the four bytes as 20_memory.md R42 assembles them. -/
def wordAt (s : State) (a : Word) : Word :=
  match s.cfg.byteOrder with
  | .little => s.byte (a + 3#32) ++ s.byte (a + 2#32) ++ s.byte (a + 1#32) ++ s.byte a
  | .big => s.byte a ++ s.byte (a + 1#32) ++ s.byte (a + 2#32) ++ s.byte (a + 3#32)

/-- The address passes the alignment test of 20_memory.md R44 for an `n`-byte access. -/
def Aligned (s : State) (a : Word) (n : Nat) : Prop := a.toNat % n = 0 ∨ s.cfg.unaligned = true

/-- The value of a byte after a list of writes, the last to it deciding. -/
def byteAfter (l : List (Word × Byte)) (a : Word) (b : Byte) : Byte :=
  l.foldl (fun v w => if w.1 = a then w.2 else v) b

/-- What is known of a system register after a list of writes, the last to it deciding. -/
def srAfter (l : List (Imm12 × Word)) (n : Imm12) (v : Option Word) : Option Word :=
  l.foldl (fun u w => if w.1 = n then some w.2 else u) v

/-- The instruction takes exception `x` as a supplied `P_TRAP` says (60_exceptions.md R236): the next state is what
`P_TRAP` makes of the state before the instruction; the parameters are beyond it, and the entry counts as one draw (R266). -/
def EntersTrap (o : Result) (s : State) (x : Exc) : Prop :=
  ∃ t e, o = .next t ∧
    e = Config.trapEntry s.draws x (excCodeOf s.cfg x) s.regs s.pc s.t s.priv s.sr s.mem ∧
    (∀ r : Reg, t.reg r = if s.cfg.r0Zero = true ∧ r = 0#5 then 0#32 else e.regs[r.toNat]'r.isLt) ∧
    t.pc = e.pc ∧ t.t = e.t ∧ t.priv = e.priv ∧ t.draws = s.draws + 1 ∧ t.cfg = s.cfg ∧
    (∀ n : Imm12, srGet t.sr n.toNat = srAfter e.srWrites n (srGet s.sr n.toNat)) ∧
    (∀ a, t.byte a = byteAfter e.memWrites a (s.byte a))

/-- The instruction raises `x` (60_exceptions.md R236): the fault that names it where `P_TRAP` is absent, the entry where
it is supplied. -/
def Raises (o : Result) (s : State) (x : Exc) : Prop :=
  (s.cfg.trapSupplied = false → o = .fault (.exception x)) ∧ (s.cfg.trapSupplied = true → EntersTrap o s x)

/-! ### The invariant -/

/-- The canonical forms of the three sparse stores: what a state that a run reaches always has. -/
def State.Inv (s : State) : Prop :=
  s.mem.wf = true ∧ storedWfFrom 0 s.stored = true ∧ srWfFrom 0 s.sr = true

/-- Neither a supplied `P_TRAP` nor a platform's `P_SR` acts: the two premises under which the spec lets PRIV, T and IA
be changed by what the source does not describe (60_exceptions.md R236, R237, R241; 92_eei_decisions.md D20). -/
def State.sourceOnly (s : State) : Prop := s.cfg.trapSupplied = false ∧ s.cfg.sysRegs ≠ .platform

end Sys2Proof.Machine

namespace Sys2Proof

open Machine

/-! ### Classes of instructions -/

/-- The twelve forms that write T (10_state.md R27). -/
def Instr.writesT : Instr → Bool
  | .ceq1 .. | .ceq2 .. | .cne1 .. | .cne2 .. | .chi1 .. | .chi2 .. => true
  | .cls1 .. | .cls2 .. | .cgt1 .. | .cgt2 .. | .cle1 .. | .cle2 .. => true
  | _ => false

/-- The five forms that read T (10_state.md R27). -/
def Instr.readsT : Instr → Bool
  | .bt1 .. | .bt2 .. | .blt1 .. | .blt2 .. | .sel .. => true
  | _ => false

/-- The two forms that test privilege (60_exceptions.md R242). -/
def Instr.testsPrivilege : Instr → Bool
  | .mfs .. | .mts .. => true
  | _ => false

/-- The four forms that load IA from a register (10_state.md R25). -/
def Instr.jumpsToRegister : Instr → Bool
  | .b2 .. | .bt2 .. | .bl2 .. | .blt2 .. => true
  | _ => false

/-- The sixteen loads and stores (45_load_store.md R190), each with the kind, the size and the effective address of its
access. Sizes 2 and 4 are the ten forms of ALI (60_exceptions.md R230). -/
def Instr.dataAccess (s : State) : Instr → Option (AccessKind × Nat × Word)
  | .lb1 _ rs imm | .lbs1 _ rs imm => some (.load, 1, s.eaDisp rs imm)
  | .lb2 _ ra rb | .lbs2 _ ra rb => some (.load, 1, s.eaIndex ra rb)
  | .lh1 _ rs imm | .lhs1 _ rs imm => some (.load, 2, s.eaDisp rs imm)
  | .lh2 _ ra rb | .lhs2 _ ra rb => some (.load, 2, s.eaIndex ra rb)
  | .lw1 _ rs imm => some (.load, 4, s.eaDisp rs imm)
  | .lw2 _ ra rb => some (.load, 4, s.eaIndex ra rb)
  | .sb1 _ rs imm => some (.store, 1, s.eaDisp rs imm)
  | .sb2 _ ra rb => some (.store, 1, s.eaIndex ra rb)
  | .sh1 _ rs imm => some (.store, 2, s.eaDisp rs imm)
  | .sh2 _ ra rb => some (.store, 2, s.eaIndex ra rb)
  | .sw1 _ rs imm => some (.store, 4, s.eaDisp rs imm)
  | .sw2 _ ra rb => some (.store, 4, s.eaIndex ra rb)
  | _ => none

/-- The selector that an instruction's word needs, for the bit-field group (30_encoding.md R67). -/
def Instr.bitfieldKind : Instr → Option BitfieldKind
  | .ext .. => some .ext
  | .exts .. => some .exts
  | .ins .. => some .ins
  | .insz .. => some .insz
  | _ => none

/-- The primary opcode of an instruction (30_encoding.md R72, R73). -/
def Instr.opcode : Instr → BitVec 7
  | .udf => 0b0000000#7
  | .syscall => 0b0000001#7
  | .add2 .. | .sub2 .. | .neg .. | .movn .. | .or2 .. | .xor2 .. | .and2 .. | .andn2 .. => 0b0001000#7
  | .ror2 .. => 0b0001011#7
  | .ext .. | .exts .. | .ins .. | .insz .. => 0b0001100#7
  | .mul .. | .mulf .. | .mac .. => 0b0001101#7
  | .ceq2 .. | .cne2 .. | .chi2 .. | .cls2 .. | .cgt2 .. | .cle2 .. => 0b0001110#7
  | .sel .. => 0b0001111#7
  | .lb2 .. | .lbs2 .. | .lh2 .. | .lhs2 .. | .lw2 .. => 0b0010000#7
  | .sb2 .. | .sh2 .. | .sw2 .. => 0b0010001#7
  | .b2 .. => 0b0111100#7
  | .bt2 .. => 0b0111101#7
  | .bl2 .. => 0b0111110#7
  | .blt2 .. => 0b0111111#7
  | .mfs .. => 0b1000100#7
  | .mts .. => 0b1000101#7
  | .add1 .. | .sub1 .. | .or1 .. | .xor1 .. | .and1 .. | .andn1 .. => 0b1001000#7
  | .rev .. | .clz .. | .clo .. | .swpb .. | .swph .. => 0b1001001#7
  | .clpb .. | .clph .. | .clpbs .. | .clphs .. => 0b1001010#7
  | .ror1 .. => 0b1001011#7
  | .ceq1 .. | .cne1 .. | .chi1 .. | .cls1 .. | .cgt1 .. | .cle1 .. => 0b1001110#7
  | .lb1 .. | .lbs1 .. | .lh1 .. | .lhs1 .. | .lw1 .. => 0b1010000#7
  | .sb1 .. | .sh1 .. | .sw1 .. => 0b1010001#7
  | .movh .. => 0b1111000#7
  | .addh .. => 0b1111001#7
  | .orh .. => 0b1111010#7
  | .xorh .. => 0b1111011#7
  | .b1 .. => 0b1111100#7
  | .bt1 .. => 0b1111101#7
  | .bl1 .. => 0b1111110#7
  | .blt1 .. => 0b1111111#7

/-- The allocated primary opcodes (30_encoding.md R73), and in the groups that have a secondary its allocated values
(R74). -/
def allocated (l : Layout) (w : Word) : Bool :=
  let sec3 := (sec3Of l w).toNat
  let sec10 := (sec10Of l w).toNat
  match (opcodeOf w).toNat with
  | 0b1001000 => [0b000, 0b001, 0b100, 0b101, 0b110, 0b111].contains sec3
  | 0b0001000 => decide (sec10 < 8)
  | 0b1001001 => [0b000, 0b010, 0b011, 0b100, 0b101].contains sec3
  | 0b1001010 => [0b000, 0b001, 0b100, 0b101].contains sec3
  | 0b0001101 => decide (sec10 < 3)
  | 0b1001110 => [0b000, 0b001, 0b011, 0b100, 0b101, 0b111].contains sec3
  | 0b0001110 => [0b000, 0b001, 0b011, 0b100, 0b101, 0b111].contains sec10
  | 0b1010000 => [0b000, 0b001, 0b010, 0b100, 0b101].contains sec3
  | 0b0010000 => [0b000, 0b001, 0b010, 0b100, 0b101].contains sec10
  | 0b1010001 => [0b000, 0b001, 0b010].contains sec3
  | 0b0010001 => [0b000, 0b001, 0b010].contains sec10
  | op =>
    [0b0000000, 0b0000001, 0b0001011, 0b0001100, 0b0001111, 0b0111100, 0b0111101, 0b0111110, 0b0111111, 0b1000100,
      0b1000101, 0b1001011, 0b1111000, 0b1111001, 0b1111010, 0b1111011, 0b1111100, 0b1111101, 0b1111110,
      0b1111111].contains op

end Sys2Proof
end

