-- ==== Sys2Proof/Certificates/Slice0/Obligations.lean ====
section
/-! DEFINITION. The statements for the provers. Each says which rule of spec/ it formalises in OBLIGATIONS.json; the shapes
`SetsReg`, `SetsT`, `Stores`, `GoesTo`, `LinksAndGoesTo`, `EntersTrap` of Safety.lean say that the instruction completes and
what it leaves unchanged. -/

open Sys2Proof Sys2Proof.Machine

/-- Under the default parameters, fourteen words that the rules of the instruction files give as examples, one or more
per family, decode to the instructions they are examples of. The words of formats I and R rest on the default layout and
its three-bit secondary (log entries 1 and 32), and the word of SB (2) on the opcode of 90_conflicts.md C1 (log entry
32). -/
def Obligations.DecodeSpecWords : Prop :=
  decode defaultParams 0x123452F8#32 = .instr (.movh 5 0x12345#20) ∧
  decode defaultParams 0x005020C8#32 = .instr (.add1 1 2 5) ∧
  decode defaultParams 0x00441188#32 = .instr (.sub2 3 1 2) ∧
  decode defaultParams 0x000020C9#32 = .instr (.rev 1 2) ∧
  decode defaultParams 0x028020CB#32 = .instr (.ror1 1 2 40) ∧
  decode defaultParams 0x0044118D#32 = .instr (.mulf 3 1 2) ∧
  decode defaultParams 0x064A204E#32 = .instr (.cls1 2 100) ∧
  decode defaultParams 0x0004118F#32 = .instr (.sel 3 1 2) ∧
  decode defaultParams 0xFFC420D0#32 = .instr (.lw1 1 2 0xFFC#12) ∧
  decode defaultParams 0x00062091#32 = .instr (.sb2 1 2 3) ∧
  decode defaultParams 0x00000FBC#32 = .instr (.b2 31) ∧
  decode defaultParams 0x0000017F#32 = .instr (.blt1 2) ∧
  decode defaultParams 0x00000001#32 = .instr .syscall ∧
  decode defaultParams 0x003000C4#32 = .instr (.mfs 1 3)

/-- For every choice of the parameters with a well-formed layout and every well-formed instruction, decode of its
canonical word is the instruction, with every operand at every value. For the four bit-field instructions, whose words
carry nothing that tells them apart (R67), the selector must name the instruction on that word. -/
def Obligations.DecodeEncodeRoundTrip : Prop :=
  ∀ (p : Params) (i : Instr), p.layout.wf → i.wellFormed = true →
  (∀ k, i.bitfieldKind = some k → selectBitfield p.bitfieldSelect (encode p.layout i) = some k) →
  decode p (encode p.layout i) = .instr i

/-- For every choice of the parameters with a well-formed layout and P_UNUSED_BITS = refuse, a word that decodes to an
instruction is that instruction's canonical word, so no bit of the word is dropped, and the instruction is well-formed.
-/
def Obligations.AcceptedWordIsCanonical : Prop :=
  ∀ (p : Params) (w : Word) (i : Instr), p.layout.wf → p.unusedBits = .refuse → decode p w = .instr i →
  i.wellFormed = true ∧ encode p.layout i = w

/-- A word decodes to ReservedEncoding exactly when its primary opcode is not in the opcode map or its secondary value
is not in its group's map (for a register group all ten bits count), and executing it is then the fault
ReservedEncoding: it is neither a no-op nor another instruction. That the outcome is a fault, and not UDF, is the spec's
decision D9 (log entry 4). -/
def Obligations.ReservedWords : Prop :=
  (∀ (p : Params) (w : Word), decode p w = .reservedEncoding ↔ allocated p.layout w = false) ∧
  (∀ (s : State) (w : Word), allocated s.cfg.layout w = false → runDecoded w s = .fault (.reservedEncoding w))

/-- Under a well-formed layout: a word that decodes to an instruction with P_UNUSED_BITS = refuse decodes to the same
one with ignore; with ignore no word is refused for its unused bits; a word refused for its unused bits decodes with
ignore to an instruction whose canonical word is another one, or is a BL (2) or BLT (2) with rd = 31. -/
def Obligations.UnusedBitsPolicy : Prop :=
  ∀ (p : Params) (w : Word), p.layout.wf →
  (∀ i, decode { p with unusedBits := .refuse } w = .instr i → decode { p with unusedBits := .ignore } w = .instr i) ∧
  decode { p with unusedBits := .ignore } w ≠ .unusedBitsNonZero ∧
  (decode { p with unusedBits := .refuse } w = .unusedBitsNonZero →
    (∃ i, decode { p with unusedBits := .ignore } w = .instr i ∧ encode p.layout i ≠ w) ∨
    decode { p with unusedBits := .ignore } w = .linkRegisterAsTarget)

/-- For every word with primary opcode 0001100 on which P_BITFIELD_SELECT answers none, decoding is BitfieldUndecodable
and execution refuses with that name; under the default selector that is every word of this opcode. -/
def Obligations.BitfieldWordsNeedSelector : Prop :=
  (∀ (s : State) (w : Word), opcodeOf w = 0b0001100#7 → selectBitfield s.cfg.bitfieldSelect w = none →
    runDecoded w s = .refused (.bitfieldUndecodable w)) ∧
  (∀ w : Word, opcodeOf w = 0b0001100#7 → decode defaultParams w = .bitfieldUndecodable)

/-- Where the run has not ended at IA, IA is aligned, the fetch is admitted, no byte of the word counts as stored under
P_SMC, and the four bytes at IA, assembled by P_BYTE_ORDER, decode to an instruction, step is exec of that instruction
at the same state. The meanings themselves advance IA; step adds nothing. -/
def Obligations.StepRunsDecoded : Prop :=
  ∀ (s : State) (i : Instr), s.cfg.endIa ≠ some s.pc → s.pc.toNat % 4 = 0 → s.admitted s.pc 4 .fetch = true →
  (s.cfg.smc = .refuse → ∀ k < 4, s.isStored (s.pc + BitVec.ofNat 32 k) = false) →
  decode s.cfg (wordAt s s.pc) = .instr i → step s = exec i s

/-- After the test of P_END_IA (R273): a misaligned IA faults MisalignedFetch; else a fetch that is not admitted is
stuck; else, with P_SMC = refuse, a fetch of a stored byte refuses FetchFromWrittenMemory; else the word at IA is
decoded, and step is exec of the instruction, or the fault or refusal that decoding ended in. The names and order are
the spec's decisions (log entries 8, 26, 31). -/
def Obligations.StepTestsInOrder : Prop :=
  ∀ s : State,
  (s.cfg.endIa = some s.pc → step s = .fault .runEnded) ∧
  (s.cfg.endIa ≠ some s.pc →
    (s.pc.toNat % 4 ≠ 0 → step s = .fault (.misalignedFetch s.pc)) ∧
    (s.pc.toNat % 4 = 0 →
      (s.admitted s.pc 4 .fetch = false → step s = .fault (.stuck .fetch 4 s.pc)) ∧
      (s.admitted s.pc 4 .fetch = true →
        ((s.cfg.smc = .refuse ∧ ∃ k < 4, s.isStored (s.pc + BitVec.ofNat 32 k) = true) →
          step s = .refused (.fetchFromWrittenMemory s.pc)) ∧
        (¬(s.cfg.smc = .refuse ∧ ∃ k < 4, s.isStored (s.pc + BitVec.ofNat 32 k) = true) →
          (∀ i, decode s.cfg (wordAt s s.pc) = .instr i → step s = exec i s) ∧
          (decode s.cfg (wordAt s s.pc) = .reservedEncoding → step s = .fault (.reservedEncoding (wordAt s s.pc))) ∧
          (decode s.cfg (wordAt s s.pc) = .bitfieldUndecodable →
            step s = .refused (.bitfieldUndecodable (wordAt s s.pc))) ∧
          (decode s.cfg (wordAt s s.pc) = .unusedBitsNonZero →
            step s = .refused (.unusedBitsNonZero (wordAt s s.pc))) ∧
          (decode s.cfg (wordAt s s.pc) = .linkRegisterAsTarget → step s = .refused .linkRegisterAsTarget) ∧
          decode s.cfg (wordAt s s.pc) ≠ .tooShort))))

/-- The model's own account of loading a program (log entry 29): placing a word at an aligned IA whose fetch is
admitted, where the run does not end there, makes the next step run the instruction it decodes to; the four bytes at IA
read as the word, every other byte reads as before, and registers, IA, T, PRIV, system registers and parameters are
unchanged. -/
def Obligations.PlacedWordRuns : Prop :=
  ∀ (s : State) (nbits w : Nat) (i : Instr), s.cfg.endIa ≠ some s.pc → s.pc.toNat % 4 = 0 →
  s.admitted s.pc 4 .fetch = true → decode s.cfg (BitVec.ofNat 32 (w % 2 ^ nbits)) = .instr i →
  step (s.withFetchWord nbits w) = exec i (s.withFetchWord nbits w) ∧
  wordAt (s.withFetchWord nbits w) s.pc = BitVec.ofNat 32 (w % 2 ^ nbits) ∧
  (∀ b : Word, 4 ≤ (b - s.pc).toNat → (s.withFetchWord nbits w).byte b = s.byte b) ∧
  SameRegs s (s.withFetchWord nbits w) ∧ SameSystem s (s.withFetchWord nbits w) ∧
  (s.withFetchWord nbits w).pc = s.pc ∧ (s.withFetchWord nbits w).t = s.t

/-- ADD, SUB, OR, XOR, AND and ANDN (1) have the encodings of their rules (default layout, log entries 1 and 32) and
complete from every state: RD gets the low 32 bits of the result on RS and the zero-extended immediate (ANDN complements
after the extension), IA advances by 4, and nothing else changes; with P_R0_ZERO a write of R0 is ignored. The zero
extension is the spec's decision D10 (log entry 5). -/
def Obligations.AluImmediate : Prop :=
  ∀ (s : State) (rd rs : Reg) (imm : Imm12),
  encode defaultLayout (.add1 rd rs imm) = (imm ++ 0b000#3 ++ rs ++ rd ++ 0b1001000#7 : BitVec 32) ∧
  SetsReg (exec (.add1 rd rs imm) s) s rd (BitVec.ofNat 32 ((s.reg rs).toNat + imm.toNat)) ∧
  encode defaultLayout (.sub1 rd rs imm) = (imm ++ 0b001#3 ++ rs ++ rd ++ 0b1001000#7 : BitVec 32) ∧
  SetsReg (exec (.sub1 rd rs imm) s) s rd (BitVec.ofInt 32 (((s.reg rs).toNat : Int) - imm.toNat)) ∧
  encode defaultLayout (.or1 rd rs imm) = (imm ++ 0b100#3 ++ rs ++ rd ++ 0b1001000#7 : BitVec 32) ∧
  SetsReg (exec (.or1 rd rs imm) s) s rd (s.reg rs ||| imm.setWidth 32) ∧
  encode defaultLayout (.xor1 rd rs imm) = (imm ++ 0b101#3 ++ rs ++ rd ++ 0b1001000#7 : BitVec 32) ∧
  SetsReg (exec (.xor1 rd rs imm) s) s rd (s.reg rs ^^^ imm.setWidth 32) ∧
  encode defaultLayout (.and1 rd rs imm) = (imm ++ 0b110#3 ++ rs ++ rd ++ 0b1001000#7 : BitVec 32) ∧
  SetsReg (exec (.and1 rd rs imm) s) s rd (s.reg rs &&& imm.setWidth 32) ∧
  encode defaultLayout (.andn1 rd rs imm) = (imm ++ 0b111#3 ++ rs ++ rd ++ 0b1001000#7 : BitVec 32) ∧
  SetsReg (exec (.andn1 rd rs imm) s) s rd (s.reg rs &&& ~~~imm.setWidth 32)

/-- ADD, SUB, OR, XOR (exclusive or, 90_conflicts.md C3, log entry 32), AND and ANDN (2), NEG and MOVN have the
encodings of their rules (default layout, log entries 1 and 32) and complete from every state: RD gets the low 32 bits
of the result, IA advances by 4, and nothing else changes; with P_R0_ZERO a write of R0 is ignored. -/
def Obligations.AluRegister : Prop :=
  ∀ (s : State) (rd ra rb : Reg),
  encode defaultLayout (.add2 rd ra rb) = (0b0000000000#10 ++ rb ++ ra ++ rd ++ 0b0001000#7 : BitVec 32) ∧
  SetsReg (exec (.add2 rd ra rb) s) s rd (BitVec.ofNat 32 ((s.reg ra).toNat + (s.reg rb).toNat)) ∧
  encode defaultLayout (.sub2 rd ra rb) = (0b0000000001#10 ++ rb ++ ra ++ rd ++ 0b0001000#7 : BitVec 32) ∧
  SetsReg (exec (.sub2 rd ra rb) s) s rd (BitVec.ofInt 32 (((s.reg ra).toNat : Int) - (s.reg rb).toNat)) ∧
  encode defaultLayout (.or2 rd ra rb) = (0b0000000100#10 ++ rb ++ ra ++ rd ++ 0b0001000#7 : BitVec 32) ∧
  SetsReg (exec (.or2 rd ra rb) s) s rd (s.reg ra ||| s.reg rb) ∧
  encode defaultLayout (.xor2 rd ra rb) = (0b0000000101#10 ++ rb ++ ra ++ rd ++ 0b0001000#7 : BitVec 32) ∧
  SetsReg (exec (.xor2 rd ra rb) s) s rd (s.reg ra ^^^ s.reg rb) ∧
  encode defaultLayout (.and2 rd ra rb) = (0b0000000110#10 ++ rb ++ ra ++ rd ++ 0b0001000#7 : BitVec 32) ∧
  SetsReg (exec (.and2 rd ra rb) s) s rd (s.reg ra &&& s.reg rb) ∧
  encode defaultLayout (.andn2 rd ra rb) = (0b0000000111#10 ++ rb ++ ra ++ rd ++ 0b0001000#7 : BitVec 32) ∧
  SetsReg (exec (.andn2 rd ra rb) s) s rd (s.reg ra &&& ~~~s.reg rb) ∧
  encode defaultLayout (.neg rd rb) = (0b0000000010#10 ++ rb ++ 0#5 ++ rd ++ 0b0001000#7 : BitVec 32) ∧
  SetsReg (exec (.neg rd rb) s) s rd (BitVec.ofInt 32 (-((s.reg rb).toNat : Int))) ∧
  encode defaultLayout (.movn rd rb) = (0b0000000011#10 ++ rb ++ 0#5 ++ rd ++ 0b0001000#7 : BitVec 32) ∧
  SetsReg (exec (.movn rd rb) s) s rd (~~~s.reg rb)

/-- The four format-L instructions have the encodings of their rules (the word that the source shows, R63) and complete
from every state: with H the 20-bit immediate shifted left by 12, RD gets H, or its old value plus H modulo 2^32, or it
or-ed or exclusive-or-ed with H; IA advances by 4 and nothing else changes. -/
def Obligations.LongImmediate : Prop :=
  ∀ (s : State) (rd : Reg) (limm : Imm20),
  encode defaultLayout (.movh rd limm) = (limm ++ rd ++ 0b1111000#7 : BitVec 32) ∧
  SetsReg (exec (.movh rd limm) s) s rd (BitVec.ofNat 32 (limm.toNat * 4096)) ∧
  encode defaultLayout (.addh rd limm) = (limm ++ rd ++ 0b1111001#7 : BitVec 32) ∧
  SetsReg (exec (.addh rd limm) s) s rd (BitVec.ofNat 32 ((s.reg rd).toNat + limm.toNat * 4096)) ∧
  encode defaultLayout (.orh rd limm) = (limm ++ rd ++ 0b1111010#7 : BitVec 32) ∧
  SetsReg (exec (.orh rd limm) s) s rd (s.reg rd ||| BitVec.ofNat 32 (limm.toNat * 4096)) ∧
  encode defaultLayout (.xorh rd limm) = (limm ++ rd ++ 0b1111011#7 : BitVec 32) ∧
  SetsReg (exec (.xorh rd limm) s) s rd (s.reg rd ^^^ BitVec.ofNat 32 (limm.toNat * 4096))

/-- From every state, MOVH RD with the upper 20 bits of a constant and then OR RD, RD with its low 12 bits leave the
constant in RD, unless RD is R0 and P_R0_ZERO holds; IA has advanced by 8 and no other register has changed. For a
constant with bit 11 set this rests on the zero extension of OR (1)'s immediate, which is the spec's decision D10 (log
entry 5). -/
def Obligations.MovhThenOrBuildsConstant : Prop :=
  ∀ (s : State) (rd : Reg) (c : Word), ¬(s.cfg.r0Zero = true ∧ rd = 0#5) →
  ∃ t u, exec (.movh rd (c.extractLsb' 12 20)) s = .next t ∧ exec (.or1 rd rd (c.extractLsb' 0 12)) t = .next u ∧
    u.reg rd = c ∧ u.pc = s.pc + 8#32 ∧ ∀ r, r ≠ rd → u.reg r = s.reg r

/-- REV has the encoding of its rule (default layout, log entries 1 and 32) and completes from every state: bit i of RD
is bit 31 - i of RS, IA advances by 4 and nothing else changes. -/
def Obligations.ReverseBits : Prop :=
  ∀ (s : State) (rd rs : Reg),
  encode defaultLayout (.rev rd rs) = (0#12 ++ 0b000#3 ++ rs ++ rd ++ 0b1001001#7 : BitVec 32) ∧
  ∃ v : Word, SetsReg (exec (.rev rd rs) s) s rd v ∧ ∀ i < 32, v.getLsbD i = (s.reg rs).getLsbD (31 - i)

/-- CLZ and CLO have the encodings of their rules (default layout, log entries 1 and 32) and complete from every state:
RD gets a count c of 0 to 32 such that the c leading bits of RS are all 0 (CLZ) or all 1 (CLO) and, where c is below 32,
the next bit is not; IA advances by 4 and nothing else changes. The count of 32 is what the spec infers (R130, R131). -/
def Obligations.CountLeading : Prop :=
  ∀ (s : State) (rd rs : Reg),
  encode defaultLayout (.clz rd rs) = (0#12 ++ 0b010#3 ++ rs ++ rd ++ 0b1001001#7 : BitVec 32) ∧
  encode defaultLayout (.clo rd rs) = (0#12 ++ 0b011#3 ++ rs ++ rd ++ 0b1001001#7 : BitVec 32) ∧
  (∃ c ≤ 32, SetsReg (exec (.clz rd rs) s) s rd (BitVec.ofNat 32 c) ∧
    (∀ i < c, (s.reg rs).getLsbD (31 - i) = false) ∧ (c < 32 → (s.reg rs).getLsbD (31 - c) = true)) ∧
  (∃ c ≤ 32, SetsReg (exec (.clo rd rs) s) s rd (BitVec.ofNat 32 c) ∧
    (∀ i < c, (s.reg rs).getLsbD (31 - i) = true) ∧ (c < 32 → (s.reg rs).getLsbD (31 - c) = false))

/-- SWPB and SWPH have the encodings of their rules (default layout, log entries 1 and 32) and complete from every
state: SWPB reverses the order of the four bytes of RS, each byte keeping its bits; SWPH exchanges the halfwords and
equals a rotate by 16; IA advances by 4 and nothing else changes. -/
def Obligations.SwapBytesAndHalves : Prop :=
  ∀ (s : State) (rd rs : Reg),
  encode defaultLayout (.swpb rd rs) = (0#12 ++ 0b100#3 ++ rs ++ rd ++ 0b1001001#7 : BitVec 32) ∧
  encode defaultLayout (.swph rd rs) = (0#12 ++ 0b101#3 ++ rs ++ rd ++ 0b1001001#7 : BitVec 32) ∧
  (∃ v : Word, SetsReg (exec (.swpb rd rs) s) s rd v ∧
    ∀ k < 4, v.extractLsb' (8 * k) 8 = (s.reg rs).extractLsb' (8 * (3 - k)) 8) ∧
  (∃ v : Word, SetsReg (exec (.swph rd rs) s) s rd v ∧
    v.extractLsb' 16 16 = (s.reg rs).extractLsb' 0 16 ∧ v.extractLsb' 0 16 = (s.reg rs).extractLsb' 16 16) ∧
  exec (.swph rd rs) s = exec (.ror1 rd rs 16#12) s

/-- CLPB and CLPH have the encodings of their rules (default layout, log entries 1 and 32) and complete from every
state: RD gets the lesser of RS, read as unsigned, and 0xFF or 0xFFFF; IA advances by 4 and nothing else changes. -/
def Obligations.ClipsUnsigned : Prop :=
  ∀ (s : State) (rd rs : Reg),
  encode defaultLayout (.clpb rd rs) = (0#12 ++ 0b000#3 ++ rs ++ rd ++ 0b1001010#7 : BitVec 32) ∧
  encode defaultLayout (.clph rd rs) = (0#12 ++ 0b001#3 ++ rs ++ rd ++ 0b1001010#7 : BitVec 32) ∧
  SetsReg (exec (.clpb rd rs) s) s rd (BitVec.ofNat 32 (min (s.reg rs).toNat 0xFF)) ∧
  SetsReg (exec (.clph rd rs) s) s rd (BitVec.ofNat 32 (min (s.reg rs).toNat 0xFFFF))

/-- CLPBS and CLPHS have the encodings of their rules (default layout, log entries 1 and 32) and complete from every
state, CLPHS testing RS as 90_conflicts.md C4 chooses (log entry 32): RD gets RS, read as signed, clamped to -128 to 127
or to -32768 to 32767, as a 32-bit value; IA advances by 4 and nothing else changes. -/
def Obligations.ClipsSigned : Prop :=
  ∀ (s : State) (rd rs : Reg),
  encode defaultLayout (.clpbs rd rs) = (0#12 ++ 0b100#3 ++ rs ++ rd ++ 0b1001010#7 : BitVec 32) ∧
  encode defaultLayout (.clphs rd rs) = (0#12 ++ 0b101#3 ++ rs ++ rd ++ 0b1001010#7 : BitVec 32) ∧
  SetsReg (exec (.clpbs rd rs) s) s rd (BitVec.ofInt 32 (max (-128) (min (s.reg rs).toInt 127))) ∧
  SetsReg (exec (.clphs rd rs) s) s rd (BitVec.ofInt 32 (max (-32768) (min (s.reg rs).toInt 32767)))

/-- The two rotates have the encodings of their rules (default layout, log entries 1 and 32) and complete from every
state: with k the low five bits of the immediate, or of RB, bit i of RD is bit (i + k) mod 32 of the source; IA advances
by 4 and nothing else changes. -/
def Obligations.Rotates : Prop :=
  ∀ (s : State) (rd rs ra rb : Reg) (imm : Imm12),
  encode defaultLayout (.ror1 rd rs imm) = (imm ++ 0b000#3 ++ rs ++ rd ++ 0b1001011#7 : BitVec 32) ∧
  encode defaultLayout (.ror2 rd ra rb) = (0#10 ++ rb ++ ra ++ rd ++ 0b0001011#7 : BitVec 32) ∧
  (∃ v : Word, SetsReg (exec (.ror1 rd rs imm) s) s rd v ∧
    ∀ i < 32, v.getLsbD i = (s.reg rs).getLsbD ((i + imm.toNat % 32) % 32)) ∧
  (∃ v : Word, SetsReg (exec (.ror2 rd ra rb) s) s rd v ∧
    ∀ i < 32, v.getLsbD i = (s.reg ra).getLsbD ((i + (s.reg rb).toNat % 32) % 32))

/-- EXT and EXTS have the encodings of their rules (default layout, log entries 1 and 32) and complete from every state:
with S the true size (a size field of 0 means 32) and h the shift, bit i of RD is bit i + h of RA below S (0 past bit
31) and, from S on, 0 for EXT and the bit S - 1 of the field for EXTS; IA advances by 4 and nothing else changes. That
the field reads as 0 past bit 31, and EXTS then copies that 0, is the spec's decision D27 (log entry 23). -/
def Obligations.BitfieldExtract : Prop :=
  ∀ (s : State) (rd ra : Reg) (size shift : BitVec 5),
  encode defaultLayout (.ext rd ra size shift) = (shift ++ size ++ 0#5 ++ ra ++ rd ++ 0b0001100#7 : BitVec 32) ∧
  encode defaultLayout (.exts rd ra size shift) = (shift ++ size ++ 0#5 ++ ra ++ rd ++ 0b0001100#7 : BitVec 32) ∧
  (∃ v : Word, SetsReg (exec (.ext rd ra size shift) s) s rd v ∧
    ∀ i < 32, v.getLsbD i =
      (decide (i < trueSize size) && (s.reg ra).getLsbD (i + shift.toNat))) ∧
  (∃ v : Word, SetsReg (exec (.exts rd ra size shift) s) s rd v ∧
    ∀ i < 32, v.getLsbD i = (s.reg ra).getLsbD (min i (trueSize size - 1) + shift.toNat)) ∧
  trueSize size = (if size.toNat = 0 then 32 else size.toNat)

/-- INS and INSZ have the encodings of their rules (default layout, log entries 1 and 32) and complete from every state:
bits h to h + S - 1 of RD (those below 32) are bits 0 to S - 1 of RB, and every other bit is RA's for INS and 0 for
INSZ; IA advances by 4 and nothing else changes; INSZ equals INS on a background register that holds 0. That the field
is dropped past bit 31 is the spec's decision D27 (log entry 23). -/
def Obligations.BitfieldInsert : Prop :=
  ∀ (s : State) (rd ra rb : Reg) (size shift : BitVec 5),
  encode defaultLayout (.ins rd ra rb size shift) = (shift ++ size ++ rb ++ ra ++ rd ++ 0b0001100#7 : BitVec 32) ∧
  encode defaultLayout (.insz rd rb size shift) = (shift ++ size ++ rb ++ 0#5 ++ rd ++ 0b0001100#7 : BitVec 32) ∧
  (∃ v : Word, SetsReg (exec (.ins rd ra rb size shift) s) s rd v ∧
    ∀ i < 32, v.getLsbD i =
      if shift.toNat ≤ i ∧ i < shift.toNat + trueSize size then (s.reg rb).getLsbD (i - shift.toNat)
      else (s.reg ra).getLsbD i) ∧
  (∃ v : Word, SetsReg (exec (.insz rd rb size shift) s) s rd v ∧
    ∀ i < 32, v.getLsbD i =
      (decide (shift.toNat ≤ i ∧ i < shift.toNat + trueSize size) && (s.reg rb).getLsbD (i - shift.toNat))) ∧
  (s.reg ra = 0#32 → exec (.ins rd ra rb size shift) s = exec (.insz rd rb size shift) s)

/-- MUL has the encoding of its rule (default layout, log entries 1 and 32) and completes from every state: RD gets the
low 32 bits of the product, the same whether the operands are read as unsigned or as signed, which is R160's own
inference; IA advances by 4 and nothing else changes. -/
def Obligations.MultiplyLow : Prop :=
  ∀ (s : State) (rd ra rb : Reg),
  encode defaultLayout (.mul rd ra rb) = (0b0000000000#10 ++ rb ++ ra ++ rd ++ 0b0001101#7 : BitVec 32) ∧
  SetsReg (exec (.mul rd ra rb) s) s rd (BitVec.ofNat 32 ((s.reg ra).toNat * (s.reg rb).toNat)) ∧
  SetsReg (exec (.mul rd ra rb) s) s rd (BitVec.ofInt 32 ((s.reg ra).toInt * (s.reg rb).toInt))

/-- MAC has the encoding of its rule (default layout, log entries 1 and 32) and completes from every state: RD gets the
low 32 bits of the product of RA and RB plus the old value of RD; IA advances by 4 and nothing else changes. (The fault
of R162 for an unwritten RD cannot occur: log entry 17.) -/
def Obligations.MultiplyAccumulate : Prop :=
  ∀ (s : State) (rd ra rb : Reg),
  encode defaultLayout (.mac rd ra rb) = (0b0000000010#10 ++ rb ++ ra ++ rd ++ 0b0001101#7 : BitVec 32) ∧
  SetsReg (exec (.mac rd ra rb) s) s rd
    (BitVec.ofNat 32 ((s.reg ra).toNat * (s.reg rb).toNat + (s.reg rd).toNat))

/-- MULF has the encoding of its rule (default layout, log entries 1 and 32). With ru and rs the bits 47 to 16 of the
product read as unsigned and as signed: P_MULF_SIGNED true gives rs, false gives ru; absent gives their common value
where they agree. Where they differ, absent refuses MulfSignDependent (R161). The model's own setting unknown (log entry
22), a Boolean of which nothing is known, completes with one of the two. IA advances by 4 and nothing else changes. -/
def Obligations.MultiplyFixedPoint : Prop :=
  ∀ (s : State) (rd ra rb : Reg) (ru rs : Word),
  ru = BitVec.ofNat 32 ((s.reg ra).toNat * (s.reg rb).toNat / 2 ^ 16) →
  rs = BitVec.ofInt 32 ((s.reg ra).toInt * (s.reg rb).toInt / 2 ^ 16) →
  encode defaultLayout (.mulf rd ra rb) = (0b0000000001#10 ++ rb ++ ra ++ rd ++ 0b0001101#7 : BitVec 32) ∧
  (s.cfg.mulfSign = .signed → SetsReg (exec (.mulf rd ra rb) s) s rd rs) ∧
  (s.cfg.mulfSign = .unsigned → SetsReg (exec (.mulf rd ra rb) s) s rd ru) ∧
  (ru = rs → SetsReg (exec (.mulf rd ra rb) s) s rd ru) ∧
  (s.cfg.mulfSign = .absent → ru ≠ rs → exec (.mulf rd ra rb) s = .refused .mulfSignDependent) ∧
  (s.cfg.mulfSign = .unknown → ∃ v, (v = ru ∨ v = rs) ∧ SetsReg (exec (.mulf rd ra rb) s) s rd v)

/-- Bits 47 to 16 of the unsigned and of the signed product of two words are equal exactly when the sum of each operand
taken where the other has bit 31 set is 0 modulo 2^16; in particular they are equal whenever bit 31 of both operands is
0. The two readings are the model's own functions, tied to the exact products. -/
def Obligations.MulfReadingsAgree : Prop :=
  ∀ a b : Word,
  mulfUnsigned a b = BitVec.ofNat 32 (a.toNat * b.toNat / 2 ^ 16) ∧
  mulfSigned a b = BitVec.ofInt 32 (a.toInt * b.toInt / 2 ^ 16) ∧
  (mulfUnsigned a b = mulfSigned a b ↔
    ((if a.getLsbD 31 then b.toNat else 0) + (if b.getLsbD 31 then a.toNat else 0)) % 2 ^ 16 = 0)

/-- The four equality compares have the encodings of their rules (default layout, log entries 1 and 32) and complete
from every state: T is set exactly where RS and the zero-extended immediate, or RA and RB, are equal (CEQ) or differ
(CNE); IA advances by 4 and nothing else changes. -/
def Obligations.CompareEquality : Prop :=
  ∀ (s : State) (rs ra rb : Reg) (imm : Imm12),
  encode defaultLayout (.ceq1 rs imm) = (imm ++ 0b000#3 ++ rs ++ 0#5 ++ 0b1001110#7 : BitVec 32) ∧
  encode defaultLayout (.ceq2 ra rb) = (0b0000000000#10 ++ rb ++ ra ++ 0#5 ++ 0b0001110#7 : BitVec 32) ∧
  SetsT (exec (.ceq1 rs imm) s) s ((s.reg rs).toNat = imm.toNat) ∧
  SetsT (exec (.ceq2 ra rb) s) s ((s.reg ra).toNat = (s.reg rb).toNat) ∧
  encode defaultLayout (.cne1 rs imm) = (imm ++ 0b100#3 ++ rs ++ 0#5 ++ 0b1001110#7 : BitVec 32) ∧
  encode defaultLayout (.cne2 ra rb) = (0b0000000100#10 ++ rb ++ ra ++ 0#5 ++ 0b0001110#7 : BitVec 32) ∧
  SetsT (exec (.cne1 rs imm) s) s ((s.reg rs).toNat ≠ imm.toNat) ∧
  SetsT (exec (.cne2 ra rb) s) s ((s.reg ra).toNat ≠ (s.reg rb).toNat)

/-- The four unsigned compares have the encodings of their rules (default layout, log entries 1 and 32) and complete
from every state: T is set exactly where RS is higher than the zero-extended immediate, or RA than RB, as unsigned
numbers (CHI), or lower or the same (CLS); IA advances by 4 and nothing else changes. -/
def Obligations.CompareUnsigned : Prop :=
  ∀ (s : State) (rs ra rb : Reg) (imm : Imm12),
  encode defaultLayout (.chi1 rs imm) = (imm ++ 0b001#3 ++ rs ++ 0#5 ++ 0b1001110#7 : BitVec 32) ∧
  encode defaultLayout (.chi2 ra rb) = (0b0000000001#10 ++ rb ++ ra ++ 0#5 ++ 0b0001110#7 : BitVec 32) ∧
  SetsT (exec (.chi1 rs imm) s) s ((s.reg rs).toNat > imm.toNat) ∧
  SetsT (exec (.chi2 ra rb) s) s ((s.reg ra).toNat > (s.reg rb).toNat) ∧
  encode defaultLayout (.cls1 rs imm) = (imm ++ 0b101#3 ++ rs ++ 0#5 ++ 0b1001110#7 : BitVec 32) ∧
  encode defaultLayout (.cls2 ra rb) = (0b0000000101#10 ++ rb ++ ra ++ 0#5 ++ 0b0001110#7 : BitVec 32) ∧
  SetsT (exec (.cls1 rs imm) s) s ((s.reg rs).toNat ≤ imm.toNat) ∧
  SetsT (exec (.cls2 ra rb) s) s ((s.reg ra).toNat ≤ (s.reg rb).toNat)

/-- The four signed compares have the encodings of their rules (default layout, log entries 1 and 32) and complete from
every state: T is set exactly where RS is greater than the sign-extended immediate, or RA than RB, as signed numbers
(CGT), or less or equal (CLE); IA advances by 4 and nothing else changes. -/
def Obligations.CompareSigned : Prop :=
  ∀ (s : State) (rs ra rb : Reg) (imm : Imm12),
  encode defaultLayout (.cgt1 rs imm) = (imm ++ 0b011#3 ++ rs ++ 0#5 ++ 0b1001110#7 : BitVec 32) ∧
  encode defaultLayout (.cgt2 ra rb) = (0b0000000011#10 ++ rb ++ ra ++ 0#5 ++ 0b0001110#7 : BitVec 32) ∧
  SetsT (exec (.cgt1 rs imm) s) s ((s.reg rs).toInt > imm.toInt) ∧
  SetsT (exec (.cgt2 ra rb) s) s ((s.reg ra).toInt > (s.reg rb).toInt) ∧
  encode defaultLayout (.cle1 rs imm) = (imm ++ 0b111#3 ++ rs ++ 0#5 ++ 0b1001110#7 : BitVec 32) ∧
  encode defaultLayout (.cle2 ra rb) = (0b0000000111#10 ++ rb ++ ra ++ 0#5 ++ 0b0001110#7 : BitVec 32) ∧
  SetsT (exec (.cle1 rs imm) s) s ((s.reg rs).toInt ≤ imm.toInt) ∧
  SetsT (exec (.cle2 ra rb) s) s ((s.reg ra).toInt ≤ (s.reg rb).toInt)

/-- SEL has the encoding of its rule (default layout, log entries 1 and 32) and completes from every state: RD gets RA
where T is set and RB where it is clear; IA advances by 4 and nothing else changes. (The faults of R182 for an unwritten
T or register cannot occur: log entries 16 and 17.) -/
def Obligations.SelectOnT : Prop :=
  ∀ (s : State) (rd ra rb : Reg),
  encode defaultLayout (.sel rd ra rb) = (0#10 ++ rb ++ ra ++ rd ++ 0b0001111#7 : BitVec 32) ∧
  (s.t = true → SetsReg (exec (.sel rd ra rb) s) s rd (s.reg ra)) ∧
  (s.t = false → SetsReg (exec (.sel rd ra rb) s) s rd (s.reg rb))

/-- Base plus displacement is the register plus the sign-extended 12-bit immediate, in bytes, and base plus index the
sum of the two registers, both modulo 2^32. The wrap is the spec's decision D15 (log entry 10). -/
def Obligations.EffectiveAddresses : Prop :=
  ∀ (s : State) (rs ra rb : Reg) (imm : Imm12),
  s.eaDisp rs imm = BitVec.ofInt 32 ((s.reg rs).toNat + imm.toInt) ∧
  s.eaIndex ra rb = BitVec.ofNat 32 ((s.reg ra).toNat + (s.reg rb).toNat)

/-- The four byte loads have the encodings of their rules (default layout, log entries 1 and 32). Where P_MEMMAP admits
the access they complete: RD gets the byte at the effective address, zero-extended (LB) or sign-extended (LBS); IA
advances by 4 and nothing else changes, memory included. No address is misaligned. -/
def Obligations.LoadByte : Prop :=
  ∀ (s : State) (rd rs ra rb : Reg) (imm : Imm12),
  encode defaultLayout (.lb1 rd rs imm) = (imm ++ 0b000#3 ++ rs ++ rd ++ 0b1010000#7 : BitVec 32) ∧
  encode defaultLayout (.lb2 rd ra rb) = (0b0000000000#10 ++ rb ++ ra ++ rd ++ 0b0010000#7 : BitVec 32) ∧
  (s.admitted (s.eaDisp rs imm) 1 .load = true →
    SetsReg (exec (.lb1 rd rs imm) s) s rd ((s.byte (s.eaDisp rs imm)).setWidth 32)) ∧
  (s.admitted (s.eaIndex ra rb) 1 .load = true →
    SetsReg (exec (.lb2 rd ra rb) s) s rd ((s.byte (s.eaIndex ra rb)).setWidth 32)) ∧
  encode defaultLayout (.lbs1 rd rs imm) = (imm ++ 0b100#3 ++ rs ++ rd ++ 0b1010000#7 : BitVec 32) ∧
  encode defaultLayout (.lbs2 rd ra rb) = (0b0000000100#10 ++ rb ++ ra ++ rd ++ 0b0010000#7 : BitVec 32) ∧
  (s.admitted (s.eaDisp rs imm) 1 .load = true →
    SetsReg (exec (.lbs1 rd rs imm) s) s rd ((s.byte (s.eaDisp rs imm)).signExtend 32)) ∧
  (s.admitted (s.eaIndex ra rb) 1 .load = true →
    SetsReg (exec (.lbs2 rd ra rb) s) s rd ((s.byte (s.eaIndex ra rb)).signExtend 32))

/-- The four halfword loads have the encodings of their rules (default layout, log entries 1 and 32). Where the address
is even or P_UNALIGNED holds, and P_MEMMAP admits the access, they complete: RD gets the two bytes assembled by
P_BYTE_ORDER, zero-extended (LH) or sign-extended (LHS); IA advances by 4 and nothing else changes, memory included. -/
def Obligations.LoadHalfword : Prop :=
  ∀ (s : State) (rd rs ra rb : Reg) (imm : Imm12),
  encode defaultLayout (.lh1 rd rs imm) = (imm ++ 0b001#3 ++ rs ++ rd ++ 0b1010000#7 : BitVec 32) ∧
  encode defaultLayout (.lh2 rd ra rb) = (0b0000000001#10 ++ rb ++ ra ++ rd ++ 0b0010000#7 : BitVec 32) ∧
  (Aligned s (s.eaDisp rs imm) 2 → s.admitted (s.eaDisp rs imm) 2 .load = true →
    SetsReg (exec (.lh1 rd rs imm) s) s rd ((halfAt s (s.eaDisp rs imm)).setWidth 32)) ∧
  (Aligned s (s.eaIndex ra rb) 2 → s.admitted (s.eaIndex ra rb) 2 .load = true →
    SetsReg (exec (.lh2 rd ra rb) s) s rd ((halfAt s (s.eaIndex ra rb)).setWidth 32)) ∧
  encode defaultLayout (.lhs1 rd rs imm) = (imm ++ 0b101#3 ++ rs ++ rd ++ 0b1010000#7 : BitVec 32) ∧
  encode defaultLayout (.lhs2 rd ra rb) = (0b0000000101#10 ++ rb ++ ra ++ rd ++ 0b0010000#7 : BitVec 32) ∧
  (Aligned s (s.eaDisp rs imm) 2 → s.admitted (s.eaDisp rs imm) 2 .load = true →
    SetsReg (exec (.lhs1 rd rs imm) s) s rd ((halfAt s (s.eaDisp rs imm)).signExtend 32)) ∧
  (Aligned s (s.eaIndex ra rb) 2 → s.admitted (s.eaIndex ra rb) 2 .load = true →
    SetsReg (exec (.lhs2 rd ra rb) s) s rd ((halfAt s (s.eaIndex ra rb)).signExtend 32))

/-- The two word loads have the encodings of their rules (default layout, log entries 1 and 32). Where the address is a
multiple of 4 or P_UNALIGNED holds, and P_MEMMAP admits the access, they complete: RD gets the four bytes assembled by
P_BYTE_ORDER; IA advances by 4 and nothing else changes, memory included. -/
def Obligations.LoadWord : Prop :=
  ∀ (s : State) (rd rs ra rb : Reg) (imm : Imm12),
  encode defaultLayout (.lw1 rd rs imm) = (imm ++ 0b010#3 ++ rs ++ rd ++ 0b1010000#7 : BitVec 32) ∧
  encode defaultLayout (.lw2 rd ra rb) = (0b0000000010#10 ++ rb ++ ra ++ rd ++ 0b0010000#7 : BitVec 32) ∧
  (Aligned s (s.eaDisp rs imm) 4 → s.admitted (s.eaDisp rs imm) 4 .load = true →
    SetsReg (exec (.lw1 rd rs imm) s) s rd (wordAt s (s.eaDisp rs imm))) ∧
  (Aligned s (s.eaIndex ra rb) 4 → s.admitted (s.eaIndex ra rb) 4 .load = true →
    SetsReg (exec (.lw2 rd ra rb) s) s rd (wordAt s (s.eaIndex ra rb)))

/-- The two byte stores have the encodings of their rules (default layout, log entries 1 and 32) (SB (2) with opcode
0010001, 90_conflicts.md C1, log entry 32). Where P_MEMMAP admits the access they complete: the byte at the effective
address becomes the low byte of RD, every other byte reads as before, IA advances by 4, and no register, T or PRIV
changes. No address is misaligned. -/
def Obligations.StoreByte : Prop :=
  ∀ (s : State) (rd rs ra rb : Reg) (imm : Imm12),
  encode defaultLayout (.sb1 rd rs imm) = (imm ++ 0b000#3 ++ rs ++ rd ++ 0b1010001#7 : BitVec 32) ∧
  encode defaultLayout (.sb2 rd ra rb) = (0b0000000000#10 ++ rb ++ ra ++ rd ++ 0b0010001#7 : BitVec 32) ∧
  (s.admitted (s.eaDisp rs imm) 1 .store = true →
    Stores (exec (.sb1 rd rs imm) s) s (s.eaDisp rs imm) 1 (s.reg rd)) ∧
  (s.admitted (s.eaIndex ra rb) 1 .store = true →
    Stores (exec (.sb2 rd ra rb) s) s (s.eaIndex ra rb) 1 (s.reg rd))

/-- The two halfword stores have the encodings of their rules (default layout, log entries 1 and 32) (SH (2) with opcode
0010001, 90_conflicts.md C1, log entry 32). Where the address is even or P_UNALIGNED holds, and P_MEMMAP admits the
access, they complete: exactly the two bytes from the effective address on become the low halfword of RD in the order of
P_BYTE_ORDER, IA advances by 4, and no register, T or PRIV changes. -/
def Obligations.StoreHalfword : Prop :=
  ∀ (s : State) (rd rs ra rb : Reg) (imm : Imm12),
  encode defaultLayout (.sh1 rd rs imm) = (imm ++ 0b001#3 ++ rs ++ rd ++ 0b1010001#7 : BitVec 32) ∧
  encode defaultLayout (.sh2 rd ra rb) = (0b0000000001#10 ++ rb ++ ra ++ rd ++ 0b0010001#7 : BitVec 32) ∧
  (Aligned s (s.eaDisp rs imm) 2 → s.admitted (s.eaDisp rs imm) 2 .store = true →
    Stores (exec (.sh1 rd rs imm) s) s (s.eaDisp rs imm) 2 (s.reg rd)) ∧
  (Aligned s (s.eaIndex ra rb) 2 → s.admitted (s.eaIndex ra rb) 2 .store = true →
    Stores (exec (.sh2 rd ra rb) s) s (s.eaIndex ra rb) 2 (s.reg rd))

/-- The two word stores have the encodings of their rules (default layout, log entries 1 and 32). Where the address is a
multiple of 4 or P_UNALIGNED holds, and P_MEMMAP admits the access, they complete: exactly the four bytes from the
effective address on become RD in the order of P_BYTE_ORDER, IA advances by 4, and no register, T or PRIV changes. -/
def Obligations.StoreWord : Prop :=
  ∀ (s : State) (rd rs ra rb : Reg) (imm : Imm12),
  encode defaultLayout (.sw1 rd rs imm) = (imm ++ 0b010#3 ++ rs ++ rd ++ 0b1010001#7 : BitVec 32) ∧
  encode defaultLayout (.sw2 rd ra rb) = (0b0000000010#10 ++ rb ++ ra ++ rd ++ 0b0010001#7 : BitVec 32) ∧
  (Aligned s (s.eaDisp rs imm) 4 → s.admitted (s.eaDisp rs imm) 4 .store = true →
    Stores (exec (.sw1 rd rs imm) s) s (s.eaDisp rs imm) 4 (s.reg rd)) ∧
  (Aligned s (s.eaIndex ra rb) 4 → s.admitted (s.eaIndex ra rb) 4 .store = true →
    Stores (exec (.sw2 rd ra rb) s) s (s.eaIndex ra rb) 4 (s.reg rd))

/-- After a completed SW (1) or SW (2) of v at a, which is a multiple of 4 or P_UNALIGNED holds: the word at a is v, the
halfword at a is the low half of v under little and the high half under big, and the byte at a is v[7:0] under little
and v[31:24] under big. -/
def Obligations.NarrowReadsAfterWordStore : Prop :=
  ∀ (s t : State) (rd rs ra rb : Reg) (imm : Imm12) (a v : Word), v = s.reg rd → Aligned s a 4 →
  (a = s.eaDisp rs imm ∧ exec (.sw1 rd rs imm) s = .next t) ∨
    (a = s.eaIndex ra rb ∧ exec (.sw2 rd ra rb) s = .next t) →
  wordAt t a = v ∧
  (s.cfg.byteOrder = .little → halfAt t a = v.extractLsb' 0 16 ∧ t.byte a = v.extractLsb' 0 8) ∧
  (s.cfg.byteOrder = .big → halfAt t a = v.extractLsb' 16 16 ∧ t.byte a = v.extractLsb' 24 8)

/-- A halfword access at an odd address, or a word access at an address that is no multiple of 4, raises ALI with that
address where P_UNALIGNED is false, whatever P_MEMMAP says: the fault that names it where P_TRAP is absent, and where
P_TRAP is supplied the entry from the unchanged state. -/
def Obligations.MisalignedAccessRaisesAli : Prop :=
  ∀ (s : State) (i : Instr) (k : AccessKind) (n : Nat) (a : Word), i.dataAccess s = some (k, n, a) → ¬Aligned s a n →
  Raises (exec i s) s (.ali a)

/-- An access is admitted where the predicate P_MEMMAP admits its address, size and kind and, at a misaligned address,
each of its bytes as a one-byte access (the spec's decision D12; that both are asked for is the model's choice, log
entry 7). For the sixteen loads and stores: where the address passes the alignment test and P_MEMMAP does not admit the
access, the instruction is stuck, with the kind, size and address of the access; it raises none of the four exceptions.
-/
def Obligations.UnadmittedAccessIsStuck : Prop :=
  (∀ (s : State) (a : Word) (n : Nat) (k : AccessKind), s.admitted a n k = true ↔
    memMapAdmits s.cfg.memMap a n k = true ∧
    (a.toNat % n = 0 ∨ ∀ j < n, memMapAdmits s.cfg.memMap (a + BitVec.ofNat 32 j) 1 k = true)) ∧
  (∀ (s : State) (i : Instr) (k : AccessKind) (n : Nat) (a : Word), i.dataAccess s = some (k, n, a) → Aligned s a n →
    s.admitted a n k = false → exec i s = .fault (.stuck k n a))

/-- The pc-relative branches without link have the encodings of their rules (default layout, log entries 1 and 32) and
complete from every state: B goes to IA plus four times the signed displacement, modulo 2^32, and BT goes there where T
is set and to IA + 4 where it is clear; nothing else changes, T included. The wrap modulo 2^32 is the spec's decision
D15 (log entry 10). -/
def Obligations.BranchRelative : Prop :=
  ∀ (s : State) (disp : Disp25),
  encode defaultLayout (.b1 disp) = (disp ++ 0b1111100#7 : BitVec 32) ∧
  encode defaultLayout (.bt1 disp) = (disp ++ 0b1111101#7 : BitVec 32) ∧
  GoesTo (exec (.b1 disp) s) s (BitVec.ofInt 32 (s.pc.toNat + 4 * disp.toInt)) ∧
  (s.t = true → GoesTo (exec (.bt1 disp) s) s (BitVec.ofInt 32 (s.pc.toNat + 4 * disp.toInt))) ∧
  (s.t = false → GoesTo (exec (.bt1 disp) s) s (s.pc + 4#32))

/-- The register branches without link have the encodings of their rules (default layout, log entries 1 and 32) and
complete from every state and for every RD, R31 included: B goes to the value of RD with no bit cleared, and BT goes
there where T is set and to IA + 4 where it is clear; nothing else changes. -/
def Obligations.BranchRegister : Prop :=
  ∀ (s : State) (rd : Reg),
  encode defaultLayout (.b2 rd) = (0#10 ++ 0#5 ++ 0#5 ++ rd ++ 0b0111100#7 : BitVec 32) ∧
  encode defaultLayout (.bt2 rd) = (0#10 ++ 0#5 ++ 0#5 ++ rd ++ 0b0111101#7 : BitVec 32) ∧
  GoesTo (exec (.b2 rd) s) s (s.reg rd) ∧
  (s.t = true → GoesTo (exec (.bt2 rd) s) s (s.reg rd)) ∧
  (s.t = false → GoesTo (exec (.bt2 rd) s) s (s.pc + 4#32))

/-- The pc-relative branches with link have the encodings of their rules (default layout, log entries 1 and 32) and
complete from every state: R31 gets IA + 4, for BLT whether or not the branch is taken, and IA becomes IA plus four
times the signed displacement, modulo 2^32 (log entry 10), for BLT only where T is set and else IA + 4; nothing else
changes. That a BLT not taken links is the choice of 90_conflicts.md C7 (log entry 25). -/
def Obligations.BranchLinkRelative : Prop :=
  ∀ (s : State) (disp : Disp25),
  encode defaultLayout (.bl1 disp) = (disp ++ 0b1111110#7 : BitVec 32) ∧
  encode defaultLayout (.blt1 disp) = (disp ++ 0b1111111#7 : BitVec 32) ∧
  LinksAndGoesTo (exec (.bl1 disp) s) s (BitVec.ofInt 32 (s.pc.toNat + 4 * disp.toInt)) ∧
  (s.t = true → LinksAndGoesTo (exec (.blt1 disp) s) s (BitVec.ofInt 32 (s.pc.toNat + 4 * disp.toInt))) ∧
  (s.t = false → LinksAndGoesTo (exec (.blt1 disp) s) s (s.pc + 4#32))

/-- The register branches with link have the encodings of their rules (default layout, log entries 1 and 32). For RD
other than R31 they complete from every state: R31 gets IA + 4, for BLT whether or not the branch is taken, and IA
becomes the old value of RD, for BLT only where T is set and else IA + 4; nothing else changes. With RD = R31 the
instruction, and its word where it is fetched, is refused as LinkRegisterAsTarget, which is the spec's decision D28 (log
entry 24); the link of a BLT not taken is log entry 25. -/
def Obligations.BranchLinkRegister : Prop :=
  ∀ (s : State) (rd : Reg),
  encode defaultLayout (.bl2 rd) = (0#10 ++ 0#5 ++ 0#5 ++ rd ++ 0b0111110#7 : BitVec 32) ∧
  encode defaultLayout (.blt2 rd) = (0#10 ++ 0#5 ++ 0#5 ++ rd ++ 0b0111111#7 : BitVec 32) ∧
  (rd ≠ 31#5 → LinksAndGoesTo (exec (.bl2 rd) s) s (s.reg rd)) ∧
  (rd ≠ 31#5 → s.t = true → LinksAndGoesTo (exec (.blt2 rd) s) s (s.reg rd)) ∧
  (rd ≠ 31#5 → s.t = false → LinksAndGoesTo (exec (.blt2 rd) s) s (s.pc + 4#32)) ∧
  exec (.bl2 31#5) s = .refused .linkRegisterAsTarget ∧
  exec (.blt2 31#5) s = .refused .linkRegisterAsTarget ∧
  (s.cfg.layout = defaultLayout → runDecoded 0x00000FBE#32 s = .refused .linkRegisterAsTarget) ∧
  (s.cfg.layout = defaultLayout → runDecoded 0x00000FBF#32 s = .refused .linkRegisterAsTarget)

/-- After BL (1), executing B R31 goes to the instruction after the BL; no register but R31 has changed, and memory and
T are as before the call. -/
def Obligations.CallAndReturn : Prop :=
  ∀ (s : State) (disp : Disp25), ∃ t u, exec (.bl1 disp) s = .next t ∧ exec (.b2 31#5) t = .next u ∧
  u.pc = s.pc + 4#32 ∧ u.t = s.t ∧ (∀ r, r ≠ 31#5 → u.reg r = s.reg r) ∧ SameMemory s u

/-- UDF and SYSCALL have the encodings of their rules (default layout, log entries 1 and 32) and from every state raise
UDF and SYS: with P_TRAP absent the step ends in the fault that names the exception, with P_TRAP supplied it completes
in the state that P_TRAP makes of the unchanged state. P_TRAP may be a draw (R266): the entry may depend on the model's
counter of draws and advances it (log entries 15, 35). -/
def Obligations.UdfAndSyscallRaise : Prop :=
  ∀ s : State,
  encode defaultLayout .udf = 0x00000000#32 ∧ encode defaultLayout .syscall = 0x00000001#32 ∧
  (s.cfg.trapSupplied = false →
    exec .udf s = .fault (.exception .udf) ∧ exec .syscall s = .fault (.exception .sys)) ∧
  (s.cfg.trapSupplied = true → EntersTrap (exec .udf s) s .udf ∧ EntersTrap (exec .syscall s) s .sys)

/-- Where PRIV is false, MFS and MTS raise PRV whatever the register number and whatever P_SR is: the fault that names
it where P_TRAP is absent, and where P_TRAP is supplied the entry from the unchanged state. -/
def Obligations.UnprivilegedMfsMtsRaisePrv : Prop :=
  ∀ (s : State) (rd : Reg) (n : Imm12), s.priv = false →
  Raises (exec (.mfs rd n) s) s .prv ∧ Raises (exec (.mts rd n) s) s .prv

/-- MFS has the encoding of its rule (default layout, log entries 1 and 32). Where PRIV is true: with P_SR absent it is
refused; with P_SR a draw it completes, RD getting the next drawn value (R30); with a platform's P_SR it completes, RD
getting what SRRead returns. IA advances by 4. The model's choices: the draws are numbered by a counter of its own, and
nothing but that counter moves beside RD and IA (log entries 14, 15); a platform's SRRead depends on the whole
architectural state and on that counter, which it advances, since it may be a draw (R266), and may change system
registers, T and PRIV, and nothing else (log entry 34). -/
def Obligations.MfsPrivileged : Prop :=
  ∀ (s : State) (rd : Reg) (n : Imm12), s.priv = true →
  encode defaultLayout (.mfs rd n) = (n ++ 0b000#3 ++ 0#5 ++ rd ++ 0b1000100#7 : BitVec 32) ∧
  (s.cfg.sysRegs = .absent → exec (.mfs rd n) s = .refused (.systemRegisterUnmodelled n)) ∧
  (s.cfg.sysRegs = .draw → ∃ t, exec (.mfs rd n) s = .next t ∧ RegWritten s t rd (Config.srDraw s.draws) ∧
    t.pc = s.pc + 4#32 ∧ t.t = s.t ∧ t.priv = s.priv ∧ t.sr = s.sr ∧ t.draws = s.draws + 1 ∧ t.cfg = s.cfg ∧
    SameMemory s t) ∧
  (s.cfg.sysRegs = .platform → ∃ t v e, exec (.mfs rd n) s = .next t ∧
    (v, e) = Config.srRead s.draws n s.regs s.pc s.t s.priv s.sr s.mem ∧ RegWritten s t rd v ∧ t.pc = s.pc + 4#32 ∧
    (∀ m : Imm12, srGet t.sr m.toNat = srAfter e.srWrites m (srGet s.sr m.toNat)) ∧ t.t = e.t ∧ t.priv = e.priv ∧
    t.draws = s.draws + 1 ∧ t.cfg = s.cfg ∧ SameMemory s t)

/-- MTS has the encoding of its rule (default layout, log entries 1 and 32). Where PRIV is true: with P_SR absent it is
refused; with P_SR a draw or a platform's it completes and changes no general register and no byte of memory. The
model's choices: under a draw SR[n] records RD, every other system register, T, PRIV and the counter of draws are as
before, and IA advances by 4 (log entry 14, and entry 36 for the 32 bits of SR[n]); under a platform the system
registers, T and PRIV are what SRWrite leaves, and IA advances by 4 unless that write resumes code elsewhere (log entry
34), the counter of draws advancing by 1 (R266, log entry 15). -/
def Obligations.MtsPrivileged : Prop :=
  ∀ (s : State) (rd : Reg) (n : Imm12), s.priv = true →
  encode defaultLayout (.mts rd n) = (n ++ 0b000#3 ++ 0#5 ++ rd ++ 0b1000101#7 : BitVec 32) ∧
  (s.cfg.sysRegs = .absent → exec (.mts rd n) s = .refused (.systemRegisterUnmodelled n)) ∧
  (s.cfg.sysRegs = .draw → ∃ t, exec (.mts rd n) s = .next t ∧
    (∀ m : Imm12, srGet t.sr m.toNat = if m = n then some (s.reg rd) else srGet s.sr m.toNat) ∧
    t.pc = s.pc + 4#32 ∧ t.t = s.t ∧ t.priv = s.priv ∧ t.draws = s.draws ∧ t.cfg = s.cfg ∧ SameRegs s t ∧
    SameMemory s t) ∧
  (s.cfg.sysRegs = .platform → ∃ t e resume, exec (.mts rd n) s = .next t ∧
    (e, resume) = Config.srWrite s.draws n (s.reg rd) s.regs s.pc s.t s.priv s.sr s.mem ∧
    (∀ m : Imm12, srGet t.sr m.toNat = srAfter e.srWrites m (srGet s.sr m.toNat)) ∧ t.t = e.t ∧ t.priv = e.priv ∧
    t.pc = resume.getD (s.pc + 4#32) ∧ t.draws = s.draws + 1 ∧ t.cfg = s.cfg ∧ SameRegs s t ∧ SameMemory s t)

/-- The model's choices, since the spec gives no reset value (R34): IA 0 (log entry 18), every general register 0 (17),
T clear (16), PRIV false (13), every byte of memory 0 and none stored (19), no system register written (14), no value
drawn (15), every access admitted (20). The parameters (R5; log entry 30): the defaults of R5 for the layout (1), the
bit-field selector (2), unused bits (3), byte order (6), alignment (7), R0 (9), P_TRAP (11), P_EXC_CODE (12), P_SMC (21)
and P_END_IA (26); and, in the place of R5's default of absent, P_SR a draw (14) and P_MULF_SIGNED unknown (22). The
default parameters differ from those of reset in these two only, and have both absent. -/
def Obligations.ResetValues : Prop :=
  State.reset.pc = 0#32 ∧ (∀ r, State.reset.reg r = 0#32) ∧ State.reset.t = false ∧ State.reset.priv = false ∧
  (∀ a, State.reset.byte a = 0#8 ∧ State.reset.isStored a = false) ∧ (∀ n, srGet State.reset.sr n = none) ∧
  State.reset.draws = 0 ∧
  (∀ a n k, n = 1 ∨ n = 2 ∨ n = 4 → State.reset.admitted a n k = true) ∧
  State.reset.cfg.layout = { iRd := 7, iRs := 12, iSec := 17, iImm := 20, rRd := 7, rRa := 12, rRb := 17, rSec := 22 } ∧
  State.reset.cfg.layout = defaultLayout ∧ State.reset.cfg.layout.wf ∧
  State.reset.cfg.byteOrder = .little ∧ State.reset.cfg.unaligned = false ∧ State.reset.cfg.r0Zero = false ∧
  State.reset.cfg.trapSupplied = false ∧ State.reset.cfg.excCode = none ∧ State.reset.cfg.sysRegs = .draw ∧
  State.reset.cfg.smc = .refuse ∧ State.reset.cfg.mulfSign = .unknown ∧ State.reset.cfg.unusedBits = .refuse ∧
  State.reset.cfg.bitfieldSelect = [] ∧ State.reset.cfg.endIa = none ∧
  defaultParams = { State.reset.cfg with sysRegs := .absent, mulfSign := .absent }

/-- The memory, the set of stored addresses and the list of written system registers of the reset state are in canonical
form. -/
def Obligations.ResetCanonical : Prop :=
  State.reset.Inv

/-- From every state whose memory, stored addresses and written system registers are in canonical form, a step that
answers a next state leaves them in canonical form, whatever the parameters, P_TRAP and P_SR are; so equal memories stay
equal data. -/
def Obligations.StepKeepsCanonical : Prop :=
  ∀ s t : State, s.Inv → step s = .next t → t.Inv

/-- From every state, a step that answers a next state leaves every parameter of R5 as it is (log entry 30): they are
arguments of the model, not state of the machine. -/
def Obligations.StepKeepsParameters : Prop :=
  ∀ s t : State, step s = .next t → t.cfg = s.cfg

/-- From every state in which neither a supplied P_TRAP nor a platform's P_SR acts, a step that answers a next state
leaves PRIV as it is, whatever the instruction (the spec's decision D18, log entry 13). -/
def Obligations.StepKeepsPrivilege : Prop :=
  ∀ s t : State, s.sourceOnly → step s = .next t → t.priv = s.priv

/-- With P_TRAP absent, an instruction that is none of the twelve compares leaves T as it is, MFS and MTS where P_SR is
not a platform's, which may show T in a system register (D20, log entry 34); and a compare writes T on every execution,
so that its whole outcome does not depend on the old T. -/
def Obligations.OnlyComparesWriteT : Prop :=
  (∀ (i : Instr) (s t : State), i.writesT = false → s.cfg.trapSupplied = false →
    (i.testsPrivilege = true → s.cfg.sysRegs ≠ .platform) → exec i s = .next t → t.t = s.t) ∧
  (∀ (i : Instr) (s : State) (b : Bool), i.writesT = true → exec i (s.setT b) = exec i s)

/-- With P_TRAP absent: for every instruction other than the five readers of T, MFS and MTS where P_SR is not a
platform's (D20, log entry 34), execution from two states that differ only in T has the same outcome and leaves states
that differ at most in T, the compares leaving equal states. -/
def Obligations.OnlyFiveFormsReadT : Prop :=
  ∀ (i : Instr) (s : State) (b : Bool), i.readsT = false → s.cfg.trapSupplied = false →
  (i.testsPrivilege = true → s.cfg.sysRegs ≠ .platform) →
  exec i (s.setT b) =
    match exec i s with
    | .next t => .next (t.setT (if i.writesT then t.t else b))
    | .fault f => .fault f
    | .refused r => .refused r

/-- With P_TRAP absent: for every instruction other than MFS and MTS, execution from two states that differ only in PRIV
has the same outcome and leaves states that differ only in PRIV; no load, store or branch is checked against privilege.
-/
def Obligations.PrivilegeMattersToMfsMtsOnly : Prop :=
  ∀ (i : Instr) (s : State) (b : Bool), i.testsPrivilege = false → s.cfg.trapSupplied = false →
  exec i { s with priv := b } =
    match exec i s with
    | .next t => .next { t with priv := b }
    | .fault f => .fault f
    | .refused r => .refused r

/-- With P_TRAP absent, an instruction ends in exception x exactly when x is ALI with the effective address of a
misaligned halfword or word access and P_UNALIGNED is false, or PRV and the instruction is MFS or MTS without privilege,
or SYS and it is SYSCALL, or UDF and it is UDF. No other instruction raises an exception, for any operand value. That a
raise without P_TRAP is the terminal fault naming the exception is the spec's decision D16 (log entry 11). -/
def Obligations.ExceptionsComplete : Prop :=
  ∀ (i : Instr) (s : State) (x : Exc), s.cfg.trapSupplied = false →
  (exec i s = .fault (.exception x) ↔
    (∃ k n a, i.dataAccess s = some (k, n, a) ∧ ¬Aligned s a n ∧ x = .ali a) ∨
    (((∃ rd n, i = .mfs rd n) ∨ (∃ rd n, i = .mts rd n)) ∧ s.priv = false ∧ x = .prv) ∨
    (i = .syscall ∧ x = .sys) ∨ (i = .udf ∧ x = .udf))

/-- Where neither a supplied P_TRAP nor a platform's P_SR acts, every instruction but B (2), BT (2), BL (2) and BLT (2)
takes an IA that is a multiple of 4 to one that is; a step at an IA that is none, before the end of the run, faults
MisalignedFetch and is not ALI. The fault and the wrap at the top are the spec's decisions D13 and D15 (log entries 8,
10). -/
def Obligations.AlignedIaStaysAligned : Prop :=
  (∀ (i : Instr) (s t : State), s.sourceOnly → i.jumpsToRegister = false → s.pc.toNat % 4 = 0 → exec i s = .next t →
    t.pc.toNat % 4 = 0) ∧
  (∀ s : State, s.cfg.endIa ≠ some s.pc → s.pc.toNat % 4 ≠ 0 → step s = .fault (.misalignedFetch s.pc)) ∧
  (∀ s : State, s.pc = 0xFFFFFFFC#32 → ∃ t, exec (.movh 1 0) s = .next t ∧ t.pc = 0#32)

/-- With P_TRAP absent, an instruction that answers a next state leaves every byte of memory as it was, unless it is a
store; a store changes no byte outside the bytes from its effective address on. That MFS and MTS leave memory as it was
where P_SR is a platform's is the model's choice (log entry 34): system registers are not memory (R32), and the spec
leaves a platform's functions open. -/
def Obligations.OnlyStoresWriteMemory : Prop :=
  ∀ (i : Instr) (s t : State), s.cfg.trapSupplied = false → exec i s = .next t →
  ∀ b : Word, (∀ n a, i.dataAccess s = some (.store, n, a) → n ≤ (b - a).toNat) → t.byte b = s.byte b

/-- Bit i of rev(v) is bit 31 - i of v; ror(v, k) is v for k = 0 and the or of v shifted right by k and left by 32 - k
for k from 1 to 31, and its bit i is bit (i + k) mod 32 of v. -/
def Obligations.ReverseAndRotateFunctions : Prop :=
  ∀ (v : Word) (k : BitVec 5),
  (∀ i < 32, (rev v).getLsbD i = v.getLsbD (31 - i)) ∧
  (k = 0#5 → ror v k = v) ∧
  (k ≠ 0#5 → ror v k = BitVec.ofNat 32 (v.toNat / 2 ^ k.toNat ||| v.toNat * 2 ^ (32 - k.toNat))) ∧
  (∀ i < 32, (ror v k).getLsbD i = v.getLsbD ((i + k.toNat) % 32))
end

