-- ==== Sys2Proof/Laws/Memory.lean ====
section
/-! SUPPORT. The laws of the three sparse stores: what is read after a write, for every list, and that every operation keeps
the canonical form. -/

namespace Sys2Proof.Machine

/-! ### Memory -/

theorem Memory.get_dropTo_of_lt (m : Memory) {k j : Nat} (h : k < j) :
    Memory.get (Memory.dropTo m k) j = Memory.get m j := by
  induction m with
  | nil => rfl
  | cons c m ih =>
    obtain ⟨a, b⟩ := c
    unfold Memory.dropTo
    split
    · rw [ih, Memory.get, if_pos (by omega)]
    · rfl

theorem Memory.get_dropTo_of_le (m : Memory) {k j : Nat} (h : j ≤ k) :
    Memory.get (Memory.dropTo m k) j = unwrittenByte := by
  induction m with
  | nil => rfl
  | cons c m ih =>
    obtain ⟨a, b⟩ := c
    unfold Memory.dropTo
    split
    · exact ih
    · rw [Memory.get, if_neg (by omega), if_neg (by omega)]

/-- Read after write: the address written gives the byte written, every other address reads as before. -/
theorem Memory.get_set (m : Memory) (k j : Nat) (v : Byte) :
    Memory.get (Memory.set m k v) j = if j = k then v else Memory.get m j := by
  induction m with
  | nil =>
    unfold Memory.set
    split <;> rename_i hv <;> by_cases hj : j = k <;> simp [Memory.get, hj, hv]
    omega
  | cons c m ih =>
    obtain ⟨a, b⟩ := c
    unfold Memory.set
    by_cases ha : a < k
    · rw [if_pos ha]
      simp only [Memory.get, ih]
      by_cases hj : j = k
      · simp [hj, ha]
      · simp [hj]
    · rw [if_neg ha]
      have hlow : j < k → unwrittenByte = Memory.get ((a, b) :: m) j := fun h => by
        rw [Memory.get, if_neg (by omega), if_neg (by omega)]
      by_cases hv : v = unwrittenByte
      · rw [if_pos hv]
        by_cases hj : j = k
        · simp [hj, hv, Memory.get_dropTo_of_le]
        · rw [if_neg hj]
          rcases Nat.lt_or_gt_of_ne hj with h | h
          · rw [Memory.get_dropTo_of_le _ (by omega), hlow h]
          · exact Memory.get_dropTo_of_lt _ h
      · rw [if_neg hv, Memory.get]
        by_cases hj : j = k
        · simp [hj]
        · rw [if_neg hj]
          rcases Nat.lt_or_gt_of_ne hj with h | h
          · rw [if_neg (by omega), if_neg (by omega), hlow h]
          · rw [if_pos h, Memory.get_dropTo_of_lt _ h]

theorem Memory.wfFrom_mono {m : Memory} {lo lo' : Nat} (h : Memory.wfFrom lo m = true) (hl : lo' ≤ lo) :
    Memory.wfFrom lo' m = true := by
  cases m with
  | nil => rfl
  | cons c m =>
    obtain ⟨a, b⟩ := c
    simp only [Memory.wfFrom, Bool.and_eq_true, decide_eq_true_eq] at h ⊢
    exact ⟨⟨⟨by omega, h.1.1.2⟩, h.1.2⟩, h.2⟩

theorem Memory.wfFrom_dropTo (m : Memory) {lo k : Nat} (h : Memory.wfFrom lo m = true) :
    Memory.wfFrom (k + 1) (Memory.dropTo m k) = true := by
  induction m generalizing lo with
  | nil => rfl
  | cons c m ih =>
    obtain ⟨a, b⟩ := c
    simp only [Memory.wfFrom, Bool.and_eq_true, decide_eq_true_eq] at h
    unfold Memory.dropTo
    split
    · exact ih h.2
    · simp only [Memory.wfFrom, Bool.and_eq_true, decide_eq_true_eq]
      exact ⟨⟨⟨by omega, h.1.1.2⟩, h.1.2⟩, h.2⟩

theorem Memory.wfFrom_set (m : Memory) {lo k : Nat} (v : Byte) (h : Memory.wfFrom lo m = true) (hlo : lo ≤ k)
    (hk : k < 2 ^ 32) : Memory.wfFrom lo (Memory.set m k v) = true := by
  induction m generalizing lo with
  | nil =>
    unfold Memory.set
    split <;> rename_i hv
    · rfl
    · simpa [Memory.wfFrom, hlo, hv] using hk
  | cons c m ih =>
    obtain ⟨a, b⟩ := c
    unfold Memory.set
    have h' := h
    simp only [Memory.wfFrom, Bool.and_eq_true, decide_eq_true_eq] at h'
    split
    · simp only [Memory.wfFrom, Bool.and_eq_true, decide_eq_true_eq]
      exact ⟨h'.1, ih h'.2 (by omega)⟩
    · have hd := Memory.wfFrom_dropTo ((a, b) :: m) (k := k) h
      split <;> rename_i hv
      · exact Memory.wfFrom_mono hd (by omega)
      · simp only [Memory.wfFrom, Bool.and_eq_true, decide_eq_true_eq, bne_iff_ne, ne_eq]
        exact ⟨⟨⟨hlo, hk⟩, hv⟩, hd⟩

/-- A write to a 32-bit address keeps the canonical form. -/
theorem Memory.wf_set (m : Memory) (a : Word) (v : Byte) (h : m.wf = true) : (m.set a.toNat v).wf = true :=
  Memory.wfFrom_set m v h (Nat.zero_le _) a.isLt

/-! ### Stored addresses -/

theorem mem_storedInsert (l : List Nat) (k j : Nat) : j ∈ storedInsert l k ↔ j = k ∨ j ∈ l := by
  induction l with
  | nil => simp [storedInsert]
  | cons a l ih =>
    unfold storedInsert
    split
    · simp only [List.mem_cons, ih]; tauto
    · split
      · rename_i _ hk; subst hk; simp only [List.mem_cons]; tauto
      · simp only [List.mem_cons]

theorem storedWfFrom_mono {l : List Nat} {lo lo' : Nat} (h : storedWfFrom lo l = true) (hl : lo' ≤ lo) :
    storedWfFrom lo' l = true := by
  cases l with
  | nil => rfl
  | cons a l =>
    simp only [storedWfFrom, Bool.and_eq_true, decide_eq_true_eq] at h ⊢
    exact ⟨⟨by omega, h.1.2⟩, h.2⟩

theorem storedWfFrom_insert (l : List Nat) {lo k : Nat} (h : storedWfFrom lo l = true) (hlo : lo ≤ k)
    (hk : k < 2 ^ 32) : storedWfFrom lo (storedInsert l k) = true := by
  induction l generalizing lo with
  | nil => simpa [storedInsert, storedWfFrom, hlo] using hk
  | cons a l ih =>
    simp only [storedWfFrom, Bool.and_eq_true, decide_eq_true_eq] at h
    unfold storedInsert
    split
    · simp only [storedWfFrom, Bool.and_eq_true, decide_eq_true_eq]
      exact ⟨h.1, ih h.2 (by omega)⟩
    · split
      · simp only [storedWfFrom, Bool.and_eq_true, decide_eq_true_eq]
        exact h
      · simp only [storedWfFrom, Bool.and_eq_true, decide_eq_true_eq]
        exact ⟨⟨hlo, hk⟩, ⟨by omega, h.1.2⟩, h.2⟩

theorem storedWfFrom_filter (l : List Nat) (p : Nat → Bool) {lo : Nat} (h : storedWfFrom lo l = true) :
    storedWfFrom lo (l.filter p) = true := by
  induction l generalizing lo with
  | nil => rfl
  | cons a l ih =>
    simp only [storedWfFrom, Bool.and_eq_true, decide_eq_true_eq] at h
    rw [List.filter_cons]
    split
    · simp only [storedWfFrom, Bool.and_eq_true, decide_eq_true_eq]
      exact ⟨h.1, ih h.2⟩
    · exact storedWfFrom_mono (ih h.2) (by omega)

/-! ### System registers -/

/-- What is known of system register `j` after `k` is written. -/
theorem srGet_srSet (l : List (Nat × Word)) (k j : Nat) (v : Word) :
    srGet (srSet l k v) j = if j = k then some v else srGet l j := by
  induction l with
  | nil => by_cases h : j = k <;> simp [srSet, srGet, h, Ne.symm]
  | cons c l ih =>
    obtain ⟨a, u⟩ := c
    unfold srSet
    split
    · simp only [srGet, ih]
      by_cases h : j = k
      · subst h; simp; omega
      · simp [h]
    · split
      · rename_i _ hk; subst hk
        by_cases h : j = a <;> simp [srGet, h, Ne.symm]
      · by_cases h : j = k
        · simp [srGet, h]
        · simp [srGet, h, Ne.symm h]

theorem srWfFrom_mono {l : List (Nat × Word)} {lo lo' : Nat} (h : srWfFrom lo l = true) (hl : lo' ≤ lo) :
    srWfFrom lo' l = true := by
  cases l with
  | nil => rfl
  | cons c l =>
    simp only [srWfFrom, Bool.and_eq_true, decide_eq_true_eq] at h ⊢
    exact ⟨⟨by omega, h.1.2⟩, h.2⟩

theorem srWfFrom_srSet (l : List (Nat × Word)) {lo k : Nat} (v : Word) (h : srWfFrom lo l = true) (hlo : lo ≤ k)
    (hk : k < 4096) : srWfFrom lo (srSet l k v) = true := by
  induction l generalizing lo with
  | nil => simpa [srSet, srWfFrom, hlo] using hk
  | cons c l ih =>
    obtain ⟨a, u⟩ := c
    simp only [srWfFrom, Bool.and_eq_true, decide_eq_true_eq] at h
    unfold srSet
    split
    · simp only [srWfFrom, Bool.and_eq_true, decide_eq_true_eq]
      exact ⟨h.1, ih h.2 (by omega)⟩
    · split
      · rename_i _ hk'; subst hk'
        simp only [srWfFrom, Bool.and_eq_true, decide_eq_true_eq]
        exact h
      · simp only [srWfFrom, Bool.and_eq_true, decide_eq_true_eq]
        exact ⟨⟨hlo, hk⟩, ⟨by omega, h.1.2⟩, h.2⟩

end Sys2Proof.Machine
end

