-- ==== Sys2Proof/Laws/State.lean ====
section
/-! SUPPORT. What each named update of the state does to each field and to each accessor, so that no proof unfolds a record
update. -/

namespace Sys2Proof.Machine

/-! ### setPc and advance -/

@[simp] theorem State.setPc_regs (s : State) (a : Word) : (s.setPc a).regs = s.regs := rfl
@[simp] theorem State.setPc_pc (s : State) (a : Word) : (s.setPc a).pc = a := rfl
@[simp] theorem State.setPc_t (s : State) (a : Word) : (s.setPc a).t = s.t := rfl
@[simp] theorem State.setPc_priv (s : State) (a : Word) : (s.setPc a).priv = s.priv := rfl
@[simp] theorem State.setPc_sr (s : State) (a : Word) : (s.setPc a).sr = s.sr := rfl
@[simp] theorem State.setPc_mem (s : State) (a : Word) : (s.setPc a).mem = s.mem := rfl
@[simp] theorem State.setPc_stored (s : State) (a : Word) : (s.setPc a).stored = s.stored := rfl
@[simp] theorem State.setPc_draws (s : State) (a : Word) : (s.setPc a).draws = s.draws := rfl
@[simp] theorem State.setPc_cfg (s : State) (a : Word) : (s.setPc a).cfg = s.cfg := rfl
@[simp] theorem State.advance_regs (s : State)  : s.advance.regs = s.regs := rfl
@[simp] theorem State.advance_pc (s : State)  : s.advance.pc = s.pc + 4#32 := rfl
@[simp] theorem State.advance_t (s : State)  : s.advance.t = s.t := rfl
@[simp] theorem State.advance_priv (s : State)  : s.advance.priv = s.priv := rfl
@[simp] theorem State.advance_sr (s : State)  : s.advance.sr = s.sr := rfl
@[simp] theorem State.advance_mem (s : State)  : s.advance.mem = s.mem := rfl
@[simp] theorem State.advance_stored (s : State)  : s.advance.stored = s.stored := rfl
@[simp] theorem State.advance_draws (s : State)  : s.advance.draws = s.draws := rfl
@[simp] theorem State.advance_cfg (s : State)  : s.advance.cfg = s.cfg := rfl

/-! ### setT -/

@[simp] theorem State.setT_regs (s : State) (b : Bool) : (s.setT b).regs = s.regs := rfl
@[simp] theorem State.setT_pc (s : State) (b : Bool) : (s.setT b).pc = s.pc := rfl
@[simp] theorem State.setT_t (s : State) (b : Bool) : (s.setT b).t = b := rfl
@[simp] theorem State.setT_priv (s : State) (b : Bool) : (s.setT b).priv = s.priv := rfl
@[simp] theorem State.setT_sr (s : State) (b : Bool) : (s.setT b).sr = s.sr := rfl
@[simp] theorem State.setT_mem (s : State) (b : Bool) : (s.setT b).mem = s.mem := rfl
@[simp] theorem State.setT_stored (s : State) (b : Bool) : (s.setT b).stored = s.stored := rfl
@[simp] theorem State.setT_draws (s : State) (b : Bool) : (s.setT b).draws = s.draws := rfl
@[simp] theorem State.setT_cfg (s : State) (b : Bool) : (s.setT b).cfg = s.cfg := rfl

/-! ### setByte -/

@[simp] theorem State.setByte_regs (s : State) (a : Word) (b : Byte) : (s.setByte a b).regs = s.regs := rfl
@[simp] theorem State.setByte_pc (s : State) (a : Word) (b : Byte) : (s.setByte a b).pc = s.pc := rfl
@[simp] theorem State.setByte_t (s : State) (a : Word) (b : Byte) : (s.setByte a b).t = s.t := rfl
@[simp] theorem State.setByte_priv (s : State) (a : Word) (b : Byte) : (s.setByte a b).priv = s.priv := rfl
@[simp] theorem State.setByte_sr (s : State) (a : Word) (b : Byte) : (s.setByte a b).sr = s.sr := rfl
@[simp] theorem State.setByte_mem (s : State) (a : Word) (b : Byte) : (s.setByte a b).mem = s.mem.set a.toNat b := rfl
@[simp] theorem State.setByte_stored (s : State) (a : Word) (b : Byte) : (s.setByte a b).stored = storedInsert s.stored a.toNat := rfl
@[simp] theorem State.setByte_draws (s : State) (a : Word) (b : Byte) : (s.setByte a b).draws = s.draws := rfl
@[simp] theorem State.setByte_cfg (s : State) (a : Word) (b : Byte) : (s.setByte a b).cfg = s.cfg := rfl

/-! ### setReg and link -/

@[simp] theorem State.setReg_pc (s : State) (i : Reg) (v : Word) : (s.setReg i v).pc = s.pc := by
  unfold State.setReg; split <;> rfl
@[simp] theorem State.setReg_t (s : State) (i : Reg) (v : Word) : (s.setReg i v).t = s.t := by
  unfold State.setReg; split <;> rfl
@[simp] theorem State.setReg_priv (s : State) (i : Reg) (v : Word) : (s.setReg i v).priv = s.priv := by
  unfold State.setReg; split <;> rfl
@[simp] theorem State.setReg_sr (s : State) (i : Reg) (v : Word) : (s.setReg i v).sr = s.sr := by
  unfold State.setReg; split <;> rfl
@[simp] theorem State.setReg_mem (s : State) (i : Reg) (v : Word) : (s.setReg i v).mem = s.mem := by
  unfold State.setReg; split <;> rfl
@[simp] theorem State.setReg_stored (s : State) (i : Reg) (v : Word) : (s.setReg i v).stored = s.stored := by
  unfold State.setReg; split <;> rfl
@[simp] theorem State.setReg_draws (s : State) (i : Reg) (v : Word) : (s.setReg i v).draws = s.draws := by
  unfold State.setReg; split <;> rfl
@[simp] theorem State.setReg_cfg (s : State) (i : Reg) (v : Word) : (s.setReg i v).cfg = s.cfg := by
  unfold State.setReg; split <;> rfl

/-- Reading a register after writing one (00_scope.md R8; with `P_R0_ZERO`, 10_state.md R22). -/
theorem State.reg_setReg (s : State) (i r : Reg) (v : Word) :
    (s.setReg i v).reg r = if r = i then (if s.cfg.r0Zero = true ∧ i = 0#5 then 0#32 else v) else s.reg r := by
  unfold State.setReg State.reg
  by_cases h0 : (s.cfg.r0Zero && i == 0#5) = true
  · have h0' : s.cfg.r0Zero = true ∧ i = 0#5 := by simpa using h0
    rw [if_pos h0]
    by_cases hr : r = i
    · simp [hr, h0']
    · simp [hr]
  · have h0' : ¬(s.cfg.r0Zero = true ∧ i = 0#5) := by simpa using h0
    rw [if_neg h0, if_neg h0']
    by_cases hr : r = i
    · subst hr; simp [h0]
    · have hn : i.toNat ≠ r.toNat := fun h => hr (BitVec.eq_of_toNat_eq h.symm)
      simp [hr, hn]

@[simp] theorem State.link_pc (s : State)  : s.link.pc = s.pc := State.setReg_pc ..
@[simp] theorem State.link_t (s : State)  : s.link.t = s.t := State.setReg_t ..
@[simp] theorem State.link_priv (s : State)  : s.link.priv = s.priv := State.setReg_priv ..
@[simp] theorem State.link_sr (s : State)  : s.link.sr = s.sr := State.setReg_sr ..
@[simp] theorem State.link_mem (s : State)  : s.link.mem = s.mem := State.setReg_mem ..
@[simp] theorem State.link_stored (s : State)  : s.link.stored = s.stored := State.setReg_stored ..
@[simp] theorem State.link_draws (s : State)  : s.link.draws = s.draws := State.setReg_draws ..
@[simp] theorem State.link_cfg (s : State)  : s.link.cfg = s.cfg := State.setReg_cfg ..

/-! ### Accessors after updates -/

@[simp] theorem State.reg_setPc (s : State) (a : Word) (r : Reg) : (s.setPc a).reg r = s.reg r := rfl
@[simp] theorem State.reg_advance (s : State)  (r : Reg) : s.advance.reg r = s.reg r := rfl
@[simp] theorem State.reg_setT (s : State) (b : Bool) (r : Reg) : (s.setT b).reg r = s.reg r := rfl
@[simp] theorem State.reg_setByte (s : State) (a : Word) (b : Byte) (r : Reg) : (s.setByte a b).reg r = s.reg r := rfl
@[simp] theorem State.byte_setPc (s : State) (a : Word) (x : Word) : (s.setPc a).byte x = s.byte x := rfl
@[simp] theorem State.byte_advance (s : State)  (x : Word) : s.advance.byte x = s.byte x := rfl
@[simp] theorem State.byte_setT (s : State) (b : Bool) (x : Word) : (s.setT b).byte x = s.byte x := rfl
@[simp] theorem State.byte_setReg (s : State) (i : Reg) (v : Word) (x : Word) : (s.setReg i v).byte x = s.byte x := by
  simp [State.byte]
@[simp] theorem State.byte_link (s : State)  (x : Word) : s.link.byte x = s.byte x := by
  simp [State.byte]
@[simp] theorem State.isStored_setPc (s : State) (a : Word) (x : Word) : (s.setPc a).isStored x = s.isStored x := rfl
@[simp] theorem State.isStored_advance (s : State)  (x : Word) : s.advance.isStored x = s.isStored x := rfl
@[simp] theorem State.isStored_setT (s : State) (b : Bool) (x : Word) : (s.setT b).isStored x = s.isStored x := rfl
@[simp] theorem State.isStored_setReg (s : State) (i : Reg) (v : Word) (x : Word) : (s.setReg i v).isStored x = s.isStored x := by
  simp [State.isStored]
@[simp] theorem State.isStored_link (s : State)  (x : Word) : s.link.isStored x = s.isStored x := by
  simp [State.isStored]

end Sys2Proof.Machine
end

