-- ==== Sys2Proof/Laws/Ops.lean ====
section
/-! SUPPORT. For each shared operation, once, everything it can do. -/

namespace Sys2Proof.Machine

/-- Reading a register depends on the register file and the parameters only. -/
theorem State.reg_congr {s t : State} (hr : t.regs = s.regs) (hc : t.cfg = s.cfg) (r : Reg) : t.reg r = s.reg r := by
  unfold State.reg
  simp only [hr, hc]

/-! ### Bytes -/

theorem State.byte_setByte (s : State) (a x : Word) (b : Byte) :
    (s.setByte a b).byte x = if x = a then b else s.byte x := by
  simp only [State.byte, State.setByte_mem, Memory.get_set, BitVec.toNat_inj]

theorem State.isStored_setByte (s : State) (a x : Word) (b : Byte) :
    (s.setByte a b).isStored x = (s.isStored x || decide (x = a)) := by
  rw [Bool.eq_iff_iff]
  simp only [State.isStored, State.setByte_stored, List.contains_iff_mem, mem_storedInsert,
    Bool.or_eq_true, decide_eq_true_eq, BitVec.toNat_inj]
  tauto

@[simp] theorem splitLittle_length (n : Nat) (v : Word) : (splitLittle n v).length = n := by
  induction n generalizing v with
  | zero => rfl
  | succ n ih => simp [splitLittle, ih]

@[simp] theorem split_length (o : ByteOrder) (n : Nat) (v : Word) : (split o n v).length = n := by
  cases o <;> simp [split]

theorem splitLittle_getElem? (n : Nat) (v : Word) (k : Nat) (h : k < n) :
    (splitLittle n v)[k]? = some (v.extractLsb' (8 * k) 8) := by
  induction n generalizing v k with
  | zero => omega
  | succ n ih =>
    cases k with
    | zero =>
      simp only [splitLittle, List.getElem?_cons_zero, Option.some.injEq]
      ext i hi
      simp
    | succ k =>
      simp only [splitLittle, List.getElem?_cons_succ]
      rw [ih _ _ (by omega)]
      congr 1
      ext i hi
      simp only [BitVec.getElem_extractLsb', BitVec.getLsbD_ushiftRight]
      congr 1; omega

/-- The bytes of a split value are those of 20_memory.md R42. -/
theorem split_getElem? (o : ByteOrder) (n : Nat) (v : Word) (k : Nat) (h : k < n) :
    (split o n v)[k]? = some (laidByte o n v k) := by
  cases o with
  | little => exact splitLittle_getElem? n v k h
  | big =>
    simp only [split, laidByte]
    rw [List.getElem?_reverse (by simpa using h), splitLittle_length, splitLittle_getElem? _ _ _ (by omega)]

/-! ### Storing bytes -/

theorem State.storeBytes_same (s : State) (a : Word) (bs : List Byte) :
    (s.storeBytes a bs).regs = s.regs ∧ (s.storeBytes a bs).pc = s.pc ∧ (s.storeBytes a bs).t = s.t ∧
      (s.storeBytes a bs).priv = s.priv ∧ (s.storeBytes a bs).sr = s.sr ∧ (s.storeBytes a bs).draws = s.draws ∧
      (s.storeBytes a bs).cfg = s.cfg := by
  induction bs generalizing s a with
  | nil => exact ⟨rfl, rfl, rfl, rfl, rfl, rfl, rfl⟩
  | cons b bs ih => exact ih (s.setByte a b) (a + 1#32)

theorem toNat_sub_succ (b a : Word) (h : b ≠ a) : (b - a).toNat = (b - (a + 1#32)).toNat + 1 := by
  have hn : b.toNat ≠ a.toNat := fun e => h (BitVec.eq_of_toNat_eq e)
  have hb := b.isLt
  have ha := a.isLt
  simp only [BitVec.toNat_sub, BitVec.toNat_add, BitVec.toNat_ofNat]
  omega

theorem toNat_sub_succ_self (a : Word) : (a - (a + 1#32)).toNat = 2 ^ 32 - 1 := by
  have ha := a.isLt
  simp only [BitVec.toNat_sub, BitVec.toNat_add, BitVec.toNat_ofNat]
  omega

/-- Where a list of bytes is stored: exactly at the addresses from `a` on, modulo 2^32. -/
theorem State.byte_storeBytes (s : State) (a : Word) (bs : List Byte) (h : bs.length ≤ 2 ^ 32) (b : Word) :
    (s.storeBytes a bs).byte b = (bs[(b - a).toNat]?).getD (s.byte b) := by
  induction bs generalizing s a with
  | nil => simp [State.storeBytes]
  | cons c bs ih =>
    have hl : bs.length < 2 ^ 32 := by simpa using h
    rw [State.storeBytes, ih _ _ (by omega), State.byte_setByte]
    by_cases hb : b = a
    · subst hb
      rw [toNat_sub_succ_self, List.getElem?_eq_none (by omega)]
      simp
    · rw [toNat_sub_succ b a hb]
      simp [hb]

theorem State.isStored_storeBytes (s : State) (a : Word) (bs : List Byte) (h : bs.length ≤ 2 ^ 32) (b : Word) :
    (s.storeBytes a bs).isStored b = (s.isStored b || decide ((b - a).toNat < bs.length)) := by
  induction bs generalizing s a with
  | nil => simp [State.storeBytes]
  | cons c bs ih =>
    have hl : bs.length < 2 ^ 32 := by simpa using h
    rw [State.storeBytes, ih _ _ (by omega), State.isStored_setByte]
    by_cases hb : b = a
    · subst hb; simp
    · rw [toNat_sub_succ b a hb]
      simp [hb]

/-- `MemWrite` writes exactly the bytes of 20_memory.md R42. -/
theorem State.memWrite_written (s : State) (a : Word) (n : Nat) (v : Word) (h : n ≤ 2 ^ 32) :
    MemWritten s (s.memWrite a n v) a n v := by
  intro b
  have hl : (split s.cfg.byteOrder n v).length ≤ 2 ^ 32 := by simpa using h
  constructor
  · rw [State.memWrite, State.byte_storeBytes _ _ _ hl]
    split <;> rename_i hn
    · rw [split_getElem? _ _ _ _ hn]; rfl
    · rw [List.getElem?_eq_none (by rw [split_length]; omega)]; rfl
  · rw [State.memWrite, State.isStored_storeBytes _ _ _ hl, split_length]

theorem State.memWrite_same (s : State) (a : Word) (n : Nat) (v : Word) :
    (s.memWrite a n v).regs = s.regs ∧ (s.memWrite a n v).pc = s.pc ∧ (s.memWrite a n v).t = s.t ∧
      (s.memWrite a n v).priv = s.priv ∧ (s.memWrite a n v).sr = s.sr ∧ (s.memWrite a n v).draws = s.draws ∧
      (s.memWrite a n v).cfg = s.cfg :=
  State.storeBytes_same ..

/-! ### Admission -/

/-- Everything that decides whether an access is admitted. -/
theorem State.admitted_iff (s : State) (a : Word) (n : Nat) (k : AccessKind) :
    s.admitted a n k = true ↔ memMapAdmits s.cfg.memMap a n k = true ∧
      (a.toNat % n = 0 ∨ ∀ i < n, memMapAdmits s.cfg.memMap (a + BitVec.ofNat 32 i) 1 k = true) := by
  simp [State.admitted]

/-- An access at an aligned address is admitted exactly where `P_MEMMAP` admits it (20_memory.md R40). -/
theorem State.admitted_of_aligned (s : State) (a : Word) (n : Nat) (k : AccessKind) (h : a.toNat % n = 0) :
    s.admitted a n k = memMapAdmits s.cfg.memMap a n k := by
  simp [State.admitted, h]

/-- A row for each of the first `m` addresses, with the sizes that `p` admits there. -/
def rowsOf (p : Nat → Nat → AccessKind → Bool) (m : Nat) : List Region :=
  (List.range m).map fun b =>
    { base := b, size := 1, loads := [1, 2, 4].filter (p b · .load), stores := [1, 2, 4].filter (p b · .store),
      fetches := [1, 2, 4].filter (p b · .fetch) }

theorem memMapAdmits_rowsOf (p : Nat → Nat → AccessKind → Bool) (m : Nat) (a : Word) (n : Nat) (k : AccessKind)
    (ha : a.toNat < m) (hn : n = 1 ∨ n = 2 ∨ n = 4) : memMapAdmits (rowsOf p m) a n k = p a.toNat n k := by
  have hmem : n ∈ [1, 2, 4] := by rcases hn with h | h | h <;> simp [h]
  rw [Bool.eq_iff_iff]
  simp only [memMapAdmits, rowsOf, List.any_map, List.any_eq_true, List.mem_range, Function.comp, Bool.and_eq_true,
    decide_eq_true_eq, List.contains_iff_mem]
  constructor
  · rintro ⟨b, -, ⟨h1, h2⟩, h⟩
    obtain rfl : b = a.toNat := by omega
    cases k <;> exact (List.mem_filter.mp h).2
  · intro h
    refine ⟨a.toNat, ha, ⟨Nat.le_refl _, by omega⟩, ?_⟩
    cases k <;> exact List.mem_filter.mpr ⟨hmem, h⟩

/-- The list of rows loses nothing: every predicate on address, size and kind is the `P_MEMMAP` of some list (R5, R40). -/
theorem memMap_complete (p : Word → Nat → AccessKind → Bool) :
    ∃ m : List Region, ∀ (a : Word) (n : Nat) (k : AccessKind), n = 1 ∨ n = 2 ∨ n = 4 → memMapAdmits m a n k = p a n k :=
  ⟨rowsOf (fun b => p (BitVec.ofNat 32 b)) (2 ^ 32), fun a n k hn => by
    rw [memMapAdmits_rowsOf _ _ a n k a.isLt hn, BitVec.ofNat_toNat, BitVec.setWidth_eq]⟩

/-! ### Reading bytes -/

theorem State.bytesAt_one (s : State) (a : Word) : s.bytesAt a 1 = [s.byte a] := rfl

theorem State.bytesAt_two (s : State) (a : Word) : s.bytesAt a 2 = [s.byte a, s.byte (a + 1#32)] := rfl

theorem State.bytesAt_four (s : State) (a : Word) :
    s.bytesAt a 4 = [s.byte a, s.byte (a + 1#32), s.byte (a + 2#32), s.byte (a + 3#32)] := by
  have e2 : a + 1#32 + 1#32 = a + 2#32 := by simp [BitVec.add_assoc]
  have e3 : a + 2#32 + 1#32 = a + 3#32 := by simp [BitVec.add_assoc]
  rw [← e3, ← e2]; rfl

theorem assembleLittle_one (b0 : Byte) : assembleLittle [b0] = b0.setWidth 32 := by
  simp [assembleLittle]

theorem getLsbD_half (b1 b0 : Byte) (i : Nat) :
    BitVec.getLsbD (b1 ++ b0 : BitVec 16) i = if i < 8 then b0.getLsbD i else b1.getLsbD (i - 8) :=
  BitVec.getLsbD_append

theorem getLsbD_word (b3 b2 b1 b0 : Byte) (i : Nat) :
    BitVec.getLsbD (b3 ++ b2 ++ b1 ++ b0 : Word) i =
      if i < 8 then b0.getLsbD i else if i < 16 then b1.getLsbD (i - 8)
      else if i < 24 then b2.getLsbD (i - 16) else b3.getLsbD (i - 24) := by
  have h0 : BitVec.getLsbD (b3 ++ b2 ++ b1 ++ b0) i =
      if i < 8 then b0.getLsbD i else (b3 ++ b2 ++ b1).getLsbD (i - 8) := BitVec.getLsbD_append
  have h1 : BitVec.getLsbD (b3 ++ b2 ++ b1) (i - 8) =
      if i - 8 < 8 then b1.getLsbD (i - 8) else (b3 ++ b2).getLsbD (i - 8 - 8) := BitVec.getLsbD_append
  have h2 : BitVec.getLsbD (b3 ++ b2) (i - 8 - 8) =
      if i - 8 - 8 < 8 then b2.getLsbD (i - 8 - 8) else b3.getLsbD (i - 8 - 8 - 8) := BitVec.getLsbD_append
  refine h0.trans ?_
  rw [h1, h2]
  by_cases c0 : i < 8
  · simp [c0]
  · by_cases c1 : i < 16
    · simp [c0, c1, show i - 8 < 8 by omega]
    · by_cases c2 : i < 24
      · simp [c0, c1, c2, show ¬i - 8 < 8 by omega, show i - 8 - 8 = i - 16 by omega, show i - 16 < 8 by omega]
      · simp [c0, c1, c2, show ¬i - 8 < 8 by omega, show ¬i - 8 - 8 < 8 by omega,
          show i - 8 - 8 - 8 = i - 24 by omega]

theorem assembleLittle_two (b0 b1 : Byte) : assembleLittle [b0, b1] = (b1 ++ b0 : BitVec 16).setWidth 32 := by
  refine BitVec.eq_of_getLsbD_eq fun i hi => ?_
  rw [BitVec.getLsbD_setWidth, getLsbD_half]
  simp only [assembleLittle, BitVec.getLsbD_or, BitVec.getLsbD_shiftLeft, BitVec.getLsbD_setWidth]
  by_cases c0 : i < 8
  · simp [c0, hi]
  · simp [c0, hi, BitVec.getLsbD_of_ge b0 i (by omega)]
    exact fun _ => by omega

theorem assembleLittle_four (b0 b1 b2 b3 : Byte) : assembleLittle [b0, b1, b2, b3] = b3 ++ b2 ++ b1 ++ b0 := by
  refine BitVec.eq_of_getLsbD_eq fun i hi => ?_
  rw [getLsbD_word]
  simp only [assembleLittle, BitVec.getLsbD_or, BitVec.getLsbD_shiftLeft, BitVec.getLsbD_setWidth]
  by_cases c0 : i < 8
  · simp [c0, hi]
  · rw [if_neg c0, BitVec.getLsbD_of_ge b0 i (by omega)]
    by_cases c1 : i < 16
    · simp [c0, c1, hi, show i - 8 < 8 by omega, show i - 8 < 32 by omega]
    · rw [if_neg c1, BitVec.getLsbD_of_ge b1 (i - 8) (by omega)]
      by_cases c2 : i < 24
      · simp [c0, c2, hi, show ¬i - 8 < 8 by omega, show i - 16 < 8 by omega, show i - 16 < 32 by omega,
          show i - 8 < 32 by omega, show i - 8 - 8 = i - 16 by omega]
      · rw [if_neg c2, BitVec.getLsbD_of_ge b2 (i - 8 - 8) (by omega)]
        simp [c0, hi, show ¬i - 8 < 8 by omega, show ¬i - 8 - 8 < 8 by omega,
          show i - 8 < 32 by omega, show i - 8 - 8 < 32 by omega, show i - 8 - 8 - 8 = i - 24 by omega]
        exact fun _ => by omega

/-- `MemRead(a, 1)` (20_memory.md R42). -/
theorem State.memRead_one (s : State) (a : Word) : s.memRead a 1 = (s.byte a).setWidth 32 := by
  unfold State.memRead
  rw [State.bytesAt_one]
  cases s.cfg.byteOrder <;> exact assembleLittle_one _

/-- `MemRead(a, 2)` (20_memory.md R42). -/
theorem State.memRead_two (s : State) (a : Word) : s.memRead a 2 = (halfAt s a).setWidth 32 := by
  unfold State.memRead halfAt
  rw [State.bytesAt_two]
  cases s.cfg.byteOrder <;> exact assembleLittle_two _ _

/-- `MemRead(a, 4)` (20_memory.md R42). -/
theorem State.memRead_four (s : State) (a : Word) : s.memRead a 4 = wordAt s a := by
  unfold State.memRead wordAt
  rw [State.bytesAt_four]
  cases s.cfg.byteOrder <;> exact assembleLittle_four _ _ _ _

/-! ### Shared shapes of instructions -/

/-- `writeReg` writes one register and goes on; nothing else changes. -/
theorem writeReg_sets (rd : Reg) (v : Word) (s : State) : SetsReg (writeReg rd v s) s rd v := by
  refine ⟨_, rfl, fun r => ?_, ?_, ?_, ⟨?_, ?_, ?_, ?_⟩, fun a => ⟨?_, ?_⟩⟩
  · rw [State.reg_advance, State.reg_setReg]
  all_goals simp

/-- `writeT` writes T and goes on; nothing else changes. -/
theorem writeT_sets (b : Bool) (s : State) : SetsT (writeT b s) s (b = true) := by
  refine ⟨_, rfl, ?_, ?_, fun r => ?_, ⟨?_, ?_, ?_, ?_⟩, fun a => ⟨?_, ?_⟩⟩ <;> simp

/-- `branchTo` moves IA only. -/
theorem branchTo_goes (taken : Bool) (target : Word) (s : State) :
    GoesTo (branchTo taken target s) s (if taken then target else s.pc + 4#32) := by
  refine ⟨_, rfl, ?_, ?_, fun r => ?_, ⟨?_, ?_, ?_, ?_⟩, fun a => ⟨?_, ?_⟩⟩ <;> cases taken <;> simp

/-- `branchLink` writes R31 and moves IA; nothing else changes. -/
theorem branchLink_goes (taken : Bool) (target : Word) (s : State) :
    LinksAndGoesTo (branchLink taken target s) s (if taken then target else s.pc + 4#32) := by
  refine ⟨_, rfl, ?_, fun r => ?_, ?_, ⟨?_, ?_, ?_, ?_⟩, fun a => ⟨?_, ?_⟩⟩
  case refine_2 =>
    have h : (s.link).reg r = _ := State.reg_setReg s linkReg r (s.pc + 4#32)
    cases taken <;> simpa [linkReg] using h
  all_goals cases taken <;> simp

theorem State.aligned_iff (s : State) (a : Word) (n : Nat) : s.aligned a n = true ↔ Aligned s a n := by
  simp only [State.aligned, Aligned, Bool.or_eq_true, beq_iff_eq]
  exact or_comm

/-- A load that is aligned and admitted writes its destination; nothing else changes. -/
theorem loadReg_sets (n : Nat) (widen : Word → Word) (rd : Reg) (a : Word) (s : State)
    (ha : s.aligned a n = true) (hm : s.admitted a n .load = true) :
    SetsReg (loadReg n widen rd a s) s rd (widen (s.memRead a n)) := by
  rw [loadReg, if_pos ha, if_pos hm]
  exact writeReg_sets ..

/-- Everything a load can do. -/
theorem loadReg_cases (n : Nat) (widen : Word → Word) (rd : Reg) (a : Word) (s : State) :
    (s.aligned a n = true ∧ s.admitted a n .load = true ∧
      loadReg n widen rd a s = writeReg rd (widen (s.memRead a n)) s) ∨
    (s.aligned a n = true ∧ s.admitted a n .load = false ∧ loadReg n widen rd a s = .fault (.stuck .load n a)) ∨
    (s.aligned a n = false ∧ loadReg n widen rd a s = raise (.ali a) s) := by
  unfold loadReg
  cases s.aligned a n <;> cases s.admitted a n .load <;> simp

/-- A store that is aligned and admitted writes its bytes; nothing else changes. -/
theorem storeReg_stores (n : Nat) (rd : Reg) (a : Word) (s : State) (hn : n ≤ 2 ^ 32)
    (ha : s.aligned a n = true) (hm : s.admitted a n .store = true) :
    Stores (storeReg n rd a s) s a n (s.reg rd) := by
  rw [storeReg, if_pos ha, if_pos hm]
  obtain ⟨h1, h2, h3, h4, h5, h6, h7⟩ := State.memWrite_same s a n (s.reg rd)
  have hw := State.memWrite_written s a n (s.reg rd) hn
  refine ⟨_, rfl, fun b => ?_, ?_, ?_, fun r => ?_, ?_, ?_, ?_, ?_⟩
  · simpa using hw b
  · simp [h2]
  · simp [h3]
  · exact State.reg_congr (t := (s.memWrite a n (s.reg rd)).advance) h1 h7 r
  · simp [h4]
  · simp [h5]
  · simp [h6]
  · simp [h7]

/-- Everything a store can do. -/
theorem storeReg_cases (n : Nat) (rd : Reg) (a : Word) (s : State) :
    (s.aligned a n = true ∧ s.admitted a n .store = true ∧
      storeReg n rd a s = .next (s.memWrite a n (s.reg rd)).advance) ∨
    (s.aligned a n = true ∧ s.admitted a n .store = false ∧ storeReg n rd a s = .fault (.stuck .store n a)) ∨
    (s.aligned a n = false ∧ storeReg n rd a s = raise (.ali a) s) := by
  unfold storeReg
  cases s.aligned a n <;> cases s.admitted a n .store <;> simp

/-! ### Exceptions and system registers -/

theorem State.setSrs_same (s : State) (l : List (Imm12 × Word)) :
    (s.setSrs l).regs = s.regs ∧ (s.setSrs l).pc = s.pc ∧ (s.setSrs l).t = s.t ∧ (s.setSrs l).priv = s.priv ∧
      (s.setSrs l).mem = s.mem ∧ (s.setSrs l).stored = s.stored ∧ (s.setSrs l).draws = s.draws ∧
      (s.setSrs l).cfg = s.cfg := by
  induction l generalizing s with
  | nil => exact ⟨rfl, rfl, rfl, rfl, rfl, rfl, rfl, rfl⟩
  | cons c l ih => exact ih _

theorem State.srGet_setSrs (s : State) (l : List (Imm12 × Word)) (n : Imm12) :
    srGet (s.setSrs l).sr n.toNat = srAfter l n (srGet s.sr n.toNat) := by
  induction l generalizing s with
  | nil => rfl
  | cons c l ih =>
    rw [State.setSrs, ih]
    simp only [srGet_srSet, srAfter, List.foldl_cons, BitVec.toNat_inj, eq_comm]

theorem State.setBytes_same (s : State) (l : List (Word × Byte)) :
    (s.setBytes l).regs = s.regs ∧ (s.setBytes l).pc = s.pc ∧ (s.setBytes l).t = s.t ∧
      (s.setBytes l).priv = s.priv ∧ (s.setBytes l).sr = s.sr ∧ (s.setBytes l).draws = s.draws ∧
      (s.setBytes l).cfg = s.cfg := by
  induction l generalizing s with
  | nil => exact ⟨rfl, rfl, rfl, rfl, rfl, rfl, rfl⟩
  | cons c l ih => exact ih _

theorem State.byte_setBytes (s : State) (l : List (Word × Byte)) (a : Word) :
    (s.setBytes l).byte a = byteAfter l a (s.byte a) := by
  induction l generalizing s with
  | nil => rfl
  | cons c l ih =>
    rw [State.setBytes, ih]
    simp only [State.byte_setByte, byteAfter, List.foldl_cons, eq_comm]

/-- Raising an exception does one of two things (60_exceptions.md R236). -/
theorem raise_cases (x : Exc) (s : State) :
    (s.cfg.trapSupplied = false ∧ raise x s = .fault (.exception x)) ∨
    (s.cfg.trapSupplied = true ∧ raise x s = .next (s.enterTrap x)) := by
  unfold raise
  cases s.cfg.trapSupplied <;> simp

/-- The entry of a supplied `P_TRAP`, field by field. -/
theorem raise_enters (x : Exc) (s : State) (h : s.cfg.trapSupplied = true) : EntersTrap (raise x s) s x := by
  rw [raise, if_pos h]
  let e := Config.trapEntry s.draws x (excCodeOf s.cfg x) s.regs s.pc s.t s.priv s.sr s.mem
  let u : State := { s with regs := e.regs, pc := e.pc, t := e.t, priv := e.priv, draws := s.draws + 1 }
  obtain ⟨a1, a2, a3, a4, a5, _, a7, a8⟩ := State.setSrs_same u e.srWrites
  obtain ⟨b1, b2, b3, b4, b5, b6, b7⟩ := State.setBytes_same (u.setSrs e.srWrites) e.memWrites
  refine ⟨(u.setSrs e.srWrites).setBytes e.memWrites, e, rfl, rfl, fun r => ?_, ?_, ?_, ?_, ?_, ?_, fun n => ?_,
    fun a => ?_⟩
  · simp only [State.reg, b7, a8, b1, a1]
    by_cases hr : s.cfg.r0Zero = true ∧ r = 0#5
    · simp [hr, u]
    · have hr' : ¬((s.cfg.r0Zero && r == 0#5) = true) := by simpa using hr
      rw [if_neg hr]; exact if_neg hr'
  · rw [b2, a2]
  · rw [b3, a3]
  · rw [b4, a4]
  · rw [b6, a7]
  · rw [b7, a8]
  · rw [b5, State.srGet_setSrs]
  · rw [State.byte_setBytes]; unfold State.byte; rw [a5]

/-- A raise is what the statements call one. -/
theorem raise_raises (x : Exc) (s : State) : Raises (raise x s) s x :=
  ⟨fun h => by simp [raise, h], raise_enters x s⟩

/-- What an access to a platform's system register leaves as it is, and what it sets. -/
theorem State.applySr_fields (s : State) (e : SrEffect) :
    (s.applySr e).regs = s.regs ∧ (s.applySr e).pc = s.pc ∧ (s.applySr e).t = e.t ∧ (s.applySr e).priv = e.priv ∧
      (s.applySr e).mem = s.mem ∧ (s.applySr e).stored = s.stored ∧ (s.applySr e).draws = s.draws + 1 ∧
      (s.applySr e).cfg = s.cfg := by
  obtain ⟨h1, h2, _, _, h5, h6, _, h8⟩ := State.setSrs_same s e.srWrites
  exact ⟨h1, h2, rfl, rfl, h5, h6, rfl, h8⟩

/-- A system register after an access to a platform's. -/
theorem State.srGet_applySr (s : State) (e : SrEffect) (n : Imm12) :
    srGet (s.applySr e).sr n.toNat = srAfter e.srWrites n (srGet s.sr n.toNat) :=
  State.srGet_setSrs s e.srWrites n

/-- Everything `SRRead` can do (10_state.md R30). -/
theorem srRead_cases (n : Imm12) (s : State) :
    (s.cfg.sysRegs = .absent ∧ srRead n s = none) ∨
    (s.cfg.sysRegs = .draw ∧ srRead n s = some (Config.srDraw s.draws, { s with draws := s.draws + 1 })) ∨
    (s.cfg.sysRegs = .platform ∧ ∃ v e, (v, e) = Config.srRead s.draws n s.regs s.pc s.t s.priv s.sr s.mem ∧
      srRead n s = some (v, s.applySr e)) := by
  unfold srRead
  rcases h : s.cfg.sysRegs with _ | _ | _
  · simp
  · simp
  · exact .inr (.inr ⟨rfl, _, _, rfl, rfl⟩)

/-- Everything `SRWrite` and the advance after it can do (10_state.md R30, 47_system.md R223). -/
theorem srWriteAdvance_cases (n : Imm12) (v : Word) (s : State) :
    (s.cfg.sysRegs = .absent ∧ srWriteAdvance n v s = none) ∨
    (s.cfg.sysRegs = .draw ∧ srWriteAdvance n v s = some { s with sr := srSet s.sr n.toNat v }.advance) ∨
    (s.cfg.sysRegs = .platform ∧ ∃ e resume,
      (e, resume) = Config.srWrite s.draws n v s.regs s.pc s.t s.priv s.sr s.mem ∧
      srWriteAdvance n v s = some ((s.applySr e).setPc (resume.getD (s.pc + 4#32)))) := by
  unfold srWriteAdvance
  rcases h : s.cfg.sysRegs with _ | _ | _
  · simp
  · simp
  · refine .inr (.inr ⟨rfl, _, _, rfl, ?_⟩)
    dsimp only
    split <;> rename_i hr <;> simp [hr, State.advance, (State.applySr_fields s _).2.1]

end Sys2Proof.Machine
end

