-- ==== Sys2Proof/Laws/Exec.lean ====
section
/-! SUPPORT. Everything execution of an instruction can be: one of the shared shapes of Machine/Ops.lean, so that a rule over
all instructions is a rule over these shapes. -/

namespace Sys2Proof.Machine

/-- Every instruction is one of the shared shapes at the state it starts from, or MFS or MTS. -/
theorem exec_cases (i : Instr) (s : State) :
    (∃ rd v, exec i s = writeReg rd v s) ∨ (i.writesT = true ∧ ∃ b, exec i s = writeT b s) ∨
    (∃ taken target, exec i s = branchTo taken target s) ∨ (∃ taken target, exec i s = branchLink taken target s) ∨
    (∃ n widen rd a, i.dataAccess s = some (.load, n, a) ∧ exec i s = loadReg n widen rd a s) ∨
    (∃ n rd a, i.dataAccess s = some (.store, n, a) ∧ exec i s = storeReg n rd a s) ∨
    exec i s = .refused .linkRegisterAsTarget ∨ exec i s = .refused .mulfSignDependent ∨
    (i = .udf ∧ exec i s = raise .udf s) ∨ (i = .syscall ∧ exec i s = raise .sys s) ∨
    (∃ rd n, i = .mfs rd n) ∨ (∃ rd n, i = .mts rd n) := by
  cases i <;> simp only [exec]
  case mulf =>
    unfold execMulf
    split
    · exact .inl ⟨_, _, rfl⟩
    · simp
  case bl2 =>
    unfold execBl2
    split
    · simp
    · exact .inr (.inr (.inr (.inl ⟨_, _, rfl⟩)))
  case blt2 =>
    unfold execBlt2
    split
    · simp
    · exact .inr (.inr (.inr (.inl ⟨_, _, rfl⟩)))
  case udf => simp [execUdf]
  case syscall => simp [execSyscall]
  case mfs => simp
  case mts => simp
  all_goals
    first
    | exact .inl ⟨_, _, rfl⟩
    | exact .inr (.inl ⟨rfl, _, rfl⟩)
    | exact .inr (.inr (.inl ⟨_, _, rfl⟩))
    | exact .inr (.inr (.inr (.inl ⟨_, _, rfl⟩)))
    | exact .inr (.inr (.inr (.inr (.inl ⟨_, _, _, _, rfl, rfl⟩))))
    | exact .inr (.inr (.inr (.inr (.inr (.inl ⟨_, _, _, rfl, rfl⟩)))))

end Sys2Proof.Machine
end

