-- ==== Sys2Proof/Laws/Fetch.lean ====
section
/-! SUPPORT. What the fetch and the placing of bytes can do (Machine/Fetch.lean). -/

namespace Sys2Proof.Machine

/-- Reading bytes depends on memory only. -/
theorem State.bytesAt_congr {s t : State} (hm : t.mem = s.mem) (a : Word) (n : Nat) : t.bytesAt a n = s.bytesAt a n := by
  induction n generalizing a with
  | zero => rfl
  | succ n ih =>
    simp only [State.bytesAt, ih]
    unfold State.byte
    rw [hm]

/-- A read of memory depends on memory and the parameters only. -/
theorem State.memRead_congr {s t : State} (hm : t.mem = s.mem) (hc : t.cfg = s.cfg) (a : Word) (n : Nat) :
    t.memRead a n = s.memRead a n := by
  unfold State.memRead
  rw [State.bytesAt_congr hm, hc]

/-- The test of P_SMC (20_memory.md R53). -/
theorem State.fetchesStored_iff (s : State) :
    s.fetchesStored = true ↔ s.cfg.smc = .refuse ∧ ∃ k < 4, s.isStored (s.pc + BitVec.ofNat 32 k) = true := by
  unfold State.fetchesStored
  cases s.cfg.smc <;> simp

/-- The alignment test of the fetch (10_state.md R25). -/
theorem lowBits_zero_iff (a : Word) : a.extractLsb' 0 2 = 0#2 ↔ a.toNat % 4 = 0 := by
  rw [← BitVec.toNat_inj]
  simp

theorem State.loadImage_same (s : State) (a : Word) (bs : List Byte) :
    (s.loadImage a bs).regs = s.regs ∧ (s.loadImage a bs).pc = s.pc ∧ (s.loadImage a bs).t = s.t ∧
      (s.loadImage a bs).priv = s.priv ∧ (s.loadImage a bs).sr = s.sr ∧ (s.loadImage a bs).draws = s.draws ∧
      (s.loadImage a bs).cfg = s.cfg := by
  induction bs generalizing s a with
  | nil => exact ⟨rfl, rfl, rfl, rfl, rfl, rfl, rfl⟩
  | cons b bs ih => exact ih _ _

/-- Where an image is placed: exactly at the addresses from `a` on, modulo 2^32. -/
theorem State.byte_loadImage (s : State) (a : Word) (bs : List Byte) (h : bs.length ≤ 2 ^ 32) (b : Word) :
    (s.loadImage a bs).byte b = (bs[(b - a).toNat]?).getD (s.byte b) := by
  induction bs generalizing s a with
  | nil => simp [State.loadImage]
  | cons c bs ih =>
    have hl : bs.length < 2 ^ 32 := by simpa using h
    have hset : ∀ l, State.byte { s with mem := s.mem.set a.toNat c, stored := l } b = if b = a then c else s.byte b :=
      fun l => by simp only [State.byte, Memory.get_set, BitVec.toNat_inj]
    rw [State.loadImage, ih _ _ (by omega), hset]
    by_cases hb : b = a
    · subst hb
      rw [toNat_sub_succ_self, List.getElem?_eq_none (by omega)]
      simp
    · rw [toNat_sub_succ b a hb]
      simp [hb]

/-- The placed addresses leave the stored bytes, and no others do. -/
theorem State.isStored_loadImage (s : State) (a : Word) (bs : List Byte) (h : bs.length ≤ 2 ^ 32) (b : Word) :
    (s.loadImage a bs).isStored b = (s.isStored b && !decide ((b - a).toNat < bs.length)) := by
  induction bs generalizing s a with
  | nil => simp [State.loadImage]
  | cons c bs ih =>
    have hl : bs.length < 2 ^ 32 := by simpa using h
    have hset : ∀ m, State.isStored { s with mem := m, stored := s.stored.filter (· != a.toNat) } b =
        (s.isStored b && !decide (b = a)) := by
      intro m
      rw [Bool.eq_iff_iff]
      simp [State.isStored, BitVec.toNat_inj]
    rw [State.loadImage, ih _ _ (by omega), hset]
    by_cases hb : b = a
    · subst hb; simp
    · rw [toNat_sub_succ b a hb]
      simp [hb]

end Sys2Proof.Machine
end

