-- ==== Sys2Proof/Laws/Fields.lean ====
section
/-! SUPPORT. Reading back the fields of a packed word, for every well-formed layout. -/

namespace Sys2Proof

theorem getLsbD_place {n : Nat} (v : BitVec n) (lo i : Nat) :
    (place v lo).getLsbD i = (decide (i < 32) && decide (lo ≤ i) && v.getLsbD (i - lo)) := by
  unfold place
  rw [BitVec.getLsbD_shiftLeft, BitVec.getLsbD_setWidth]
  by_cases h : i < 32
  · by_cases h' : lo ≤ i
    · simp [h, h', show ¬i < lo by omega, show i - lo < 32 by omega]
    · simp [h', show i < lo by omega]
  · simp [h]

theorem extract_place_self {n : Nat} (v : BitVec n) (lo : Nat) (h : lo + n ≤ 32) :
    (place v lo).extractLsb' lo n = v := by
  refine BitVec.eq_of_getLsbD_eq fun i hi => ?_
  rw [BitVec.getLsbD_extractLsb', getLsbD_place]
  simp [hi, show lo + i < 32 by omega]

theorem extract_place_disjoint {n : Nat} (v : BitVec n) (lo lo' n' : Nat) (h : disjointFields lo n lo' n') :
    (place v lo).extractLsb' lo' n' = 0#n' := by
  refine BitVec.eq_of_getLsbD_eq fun i hi => ?_
  rw [BitVec.getLsbD_extractLsb', getLsbD_place, BitVec.getLsbD_zero]
  by_cases h' : lo ≤ lo' + i
  · rw [BitVec.getLsbD_of_ge v (lo' + i - lo) (by rcases h with h | h <;> omega)]; simp
  · simp [h']

theorem extract_or (x y : Word) (lo n : Nat) :
    (x ||| y).extractLsb' lo n = x.extractLsb' lo n ||| y.extractLsb' lo n := by
  refine BitVec.eq_of_getLsbD_eq fun i hi => ?_
  simp [BitVec.getLsbD_or, hi]

theorem disjoint_symm {lo n lo' n' : Nat} (h : disjointFields lo n lo' n') : disjointFields lo' n' lo n := h.symm

section
variable {l : Layout} (h : l.wf) (op : BitVec 7) (rd rs ra rb : Reg) (sec3 : BitVec 3) (imm : Imm12) (sec10 : BitVec 10)
include h

theorem opcodeOf_packI : opcodeOf (packI l op rd rs sec3 imm) = op := by
  obtain ⟨⟨a1, _, a2, _, a3, _, a4, _⟩, _⟩ := h
  simp only [opcodeOf, packI, extract_or]
  rw [extract_place_self _ _ (by omega), extract_place_disjoint rd, extract_place_disjoint rs,
    extract_place_disjoint sec3, extract_place_disjoint imm] <;> first | simp | exact .inr (by omega)

theorem iRdOf_packI : iRdOf l (packI l op rd rs sec3 imm) = rd := by
  obtain ⟨⟨a1, a2, a3, a4, a5, a6, a7, a8⟩, ⟨b1, b2, b3, b4, b5, b6⟩, _⟩ := h
  simp only [iRdOf, packI, extract_or]
  rw [extract_place_self rd _ a2, extract_place_disjoint op _ _ _ (.inl (by omega)),
    extract_place_disjoint rs _ _ _ b1.symm, extract_place_disjoint sec3 _ _ _ b2.symm,
    extract_place_disjoint imm _ _ _ b3.symm]
  simp

theorem iRsOf_packI : iRsOf l (packI l op rd rs sec3 imm) = rs := by
  obtain ⟨⟨a1, a2, a3, a4, a5, a6, a7, a8⟩, ⟨b1, b2, b3, b4, b5, b6⟩, _⟩ := h
  simp only [iRsOf, packI, extract_or]
  rw [extract_place_self rs _ a4, extract_place_disjoint op _ _ _ (.inl (by omega)),
    extract_place_disjoint rd _ _ _ b1, extract_place_disjoint sec3 _ _ _ b4.symm,
    extract_place_disjoint imm _ _ _ b5.symm]
  simp

theorem sec3Of_packI : sec3Of l (packI l op rd rs sec3 imm) = sec3 := by
  obtain ⟨⟨a1, a2, a3, a4, a5, a6, a7, a8⟩, ⟨b1, b2, b3, b4, b5, b6⟩, _⟩ := h
  simp only [sec3Of, packI, extract_or]
  rw [extract_place_self sec3 _ a6, extract_place_disjoint op _ _ _ (.inl (by omega)),
    extract_place_disjoint rd _ _ _ b2, extract_place_disjoint rs _ _ _ b4,
    extract_place_disjoint imm _ _ _ b6.symm]
  simp

theorem immOf_packI : immOf l (packI l op rd rs sec3 imm) = imm := by
  obtain ⟨⟨a1, a2, a3, a4, a5, a6, a7, a8⟩, ⟨b1, b2, b3, b4, b5, b6⟩, _⟩ := h
  simp only [immOf, packI, extract_or]
  rw [extract_place_self imm _ a8, extract_place_disjoint op _ _ _ (.inl (by omega)),
    extract_place_disjoint rd _ _ _ b3, extract_place_disjoint rs _ _ _ b5,
    extract_place_disjoint sec3 _ _ _ b6]
  simp

theorem opcodeOf_packR : opcodeOf (packR l op rd ra rb sec10) = op := by
  obtain ⟨_, _, ⟨a1, _, a2, _, a3, _, a4, _⟩, _⟩ := h
  simp only [opcodeOf, packR, extract_or]
  rw [extract_place_self _ _ (by omega), extract_place_disjoint rd, extract_place_disjoint ra,
    extract_place_disjoint rb, extract_place_disjoint sec10] <;> first | simp | exact .inr (by omega)

theorem rRdOf_packR : rRdOf l (packR l op rd ra rb sec10) = rd := by
  obtain ⟨_, _, ⟨a1, a2, a3, a4, a5, a6, a7, a8⟩, b1, b2, b3, b4, b5, b6⟩ := h
  simp only [rRdOf, packR, extract_or]
  rw [extract_place_self rd _ a2, extract_place_disjoint op _ _ _ (.inl (by omega)),
    extract_place_disjoint ra _ _ _ b1.symm, extract_place_disjoint rb _ _ _ b2.symm,
    extract_place_disjoint sec10 _ _ _ b3.symm]
  simp

theorem rRaOf_packR : rRaOf l (packR l op rd ra rb sec10) = ra := by
  obtain ⟨_, _, ⟨a1, a2, a3, a4, a5, a6, a7, a8⟩, b1, b2, b3, b4, b5, b6⟩ := h
  simp only [rRaOf, packR, extract_or]
  rw [extract_place_self ra _ a4, extract_place_disjoint op _ _ _ (.inl (by omega)),
    extract_place_disjoint rd _ _ _ b1, extract_place_disjoint rb _ _ _ b4.symm,
    extract_place_disjoint sec10 _ _ _ b5.symm]
  simp

theorem rRbOf_packR : rRbOf l (packR l op rd ra rb sec10) = rb := by
  obtain ⟨_, _, ⟨a1, a2, a3, a4, a5, a6, a7, a8⟩, b1, b2, b3, b4, b5, b6⟩ := h
  simp only [rRbOf, packR, extract_or]
  rw [extract_place_self rb _ a6, extract_place_disjoint op _ _ _ (.inl (by omega)),
    extract_place_disjoint rd _ _ _ b2, extract_place_disjoint ra _ _ _ b4,
    extract_place_disjoint sec10 _ _ _ b6.symm]
  simp

theorem sec10Of_packR : sec10Of l (packR l op rd ra rb sec10) = sec10 := by
  obtain ⟨_, _, ⟨a1, a2, a3, a4, a5, a6, a7, a8⟩, b1, b2, b3, b4, b5, b6⟩ := h
  simp only [sec10Of, packR, extract_or]
  rw [extract_place_self sec10 _ a8, extract_place_disjoint op _ _ _ (.inl (by omega)),
    extract_place_disjoint rd _ _ _ b3, extract_place_disjoint ra _ _ _ b5,
    extract_place_disjoint rb _ _ _ b6]
  simp

theorem bfSizeOf_packR (size shift : BitVec 5) :
    bfSizeOf l (packR l op rd ra rb (shift ++ size)) = size := by
  rw [bfSizeOf, sec10Of_packR h]
  refine BitVec.eq_of_getLsbD_eq fun i hi => ?_
  have happ : (shift ++ size : BitVec 10).getLsbD (0 + i) = if 0 + i < 5 then size.getLsbD (0 + i) else shift.getLsbD (0 + i - 5) :=
    BitVec.getLsbD_append
  rw [BitVec.getLsbD_extractLsb', happ]
  simp [hi]

theorem bfShiftOf_packR (size shift : BitVec 5) :
    bfShiftOf l (packR l op rd ra rb (shift ++ size)) = shift := by
  rw [bfShiftOf, sec10Of_packR h]
  refine BitVec.eq_of_getLsbD_eq fun i hi => ?_
  have happ : (shift ++ size : BitVec 10).getLsbD (5 + i) = if 5 + i < 5 then size.getLsbD (5 + i) else shift.getLsbD (5 + i - 5) :=
    BitVec.getLsbD_append
  rw [BitVec.getLsbD_extractLsb', happ]
  simp [hi]

end

/-! ### The default layout -/

/-- A format-I word in the default layout (R65), as its fields side by side. -/
theorem packI_default (op : BitVec 7) (rd rs : Reg) (sec : BitVec 3) (imm : Imm12) :
    packI Machine.defaultLayout op rd rs sec imm = (imm ++ sec ++ rs ++ rd ++ op : BitVec 32) := by
  refine BitVec.eq_of_getLsbD_eq fun i hi => ?_
  have happ : (imm ++ sec ++ rs ++ rd ++ op).getLsbD i =
      if i < 7 then op.getLsbD i else if i - 7 < 5 then rd.getLsbD (i - 7)
      else if i - 7 - 5 < 5 then rs.getLsbD (i - 7 - 5)
      else if i - 7 - 5 - 5 < 3 then sec.getLsbD (i - 7 - 5 - 5) else imm.getLsbD (i - 7 - 5 - 5 - 3) := by
    rw [BitVec.getLsbD_append, BitVec.getLsbD_append, BitVec.getLsbD_append, BitVec.getLsbD_append]
  refine Eq.trans ?_ happ.symm
  simp only [packI, BitVec.getLsbD_or, getLsbD_place, Machine.defaultLayout]
  interval_cases i <;> simp

/-- A format-R word in the default layout (R66), as its fields side by side. -/
theorem packR_default (op : BitVec 7) (rd ra rb : Reg) (sec : BitVec 10) :
    packR Machine.defaultLayout op rd ra rb sec = (sec ++ rb ++ ra ++ rd ++ op : BitVec 32) := by
  refine BitVec.eq_of_getLsbD_eq fun i hi => ?_
  have happ : (sec ++ rb ++ ra ++ rd ++ op).getLsbD i =
      if i < 7 then op.getLsbD i else if i - 7 < 5 then rd.getLsbD (i - 7)
      else if i - 7 - 5 < 5 then ra.getLsbD (i - 7 - 5)
      else if i - 7 - 5 - 5 < 5 then rb.getLsbD (i - 7 - 5 - 5) else sec.getLsbD (i - 7 - 5 - 5 - 5) := by
    rw [BitVec.getLsbD_append, BitVec.getLsbD_append, BitVec.getLsbD_append, BitVec.getLsbD_append]
  refine Eq.trans ?_ happ.symm
  simp only [packR, BitVec.getLsbD_or, getLsbD_place, Machine.defaultLayout]
  interval_cases i <;> simp

/-! ### Formats L and D -/

theorem getLsbD_packL (op : BitVec 7) (rd : Reg) (limm : Imm20) (i : Nat) :
    (packL op rd limm).getLsbD i =
      if i < 7 then op.getLsbD i else if i < 12 then rd.getLsbD (i - 7) else limm.getLsbD (i - 12) := by
  have h0 : BitVec.getLsbD (limm ++ rd ++ op) i = if i < 7 then op.getLsbD i else (limm ++ rd).getLsbD (i - 7) :=
    BitVec.getLsbD_append
  have h1 : BitVec.getLsbD (limm ++ rd) (i - 7) =
      if i - 7 < 5 then rd.getLsbD (i - 7) else limm.getLsbD (i - 7 - 5) := BitVec.getLsbD_append
  refine h0.trans ?_
  rw [h1, show i - 7 - 5 = i - 12 by omega]
  by_cases c : i < 7
  · simp [c]
  · by_cases c' : i < 12
    · simp [c, c', show i - 7 < 5 by omega]
    · simp [c, c', show ¬i - 7 < 5 by omega]

theorem getLsbD_packD (op : BitVec 7) (disp : Disp25) (i : Nat) :
    (packD op disp).getLsbD i = if i < 7 then op.getLsbD i else disp.getLsbD (i - 7) :=
  BitVec.getLsbD_append

theorem opcodeOf_packL (op : BitVec 7) (rd : Reg) (limm : Imm20) : opcodeOf (packL op rd limm) = op := by
  refine BitVec.eq_of_getLsbD_eq fun i hi => ?_
  rw [opcodeOf, BitVec.getLsbD_extractLsb', getLsbD_packL]
  simp [hi]

theorem lRdOf_packL (op : BitVec 7) (rd : Reg) (limm : Imm20) : lRdOf (packL op rd limm) = rd := by
  refine BitVec.eq_of_getLsbD_eq fun i hi => ?_
  rw [lRdOf, BitVec.getLsbD_extractLsb', getLsbD_packL]
  simp [hi, show 7 + i < 12 by omega]

theorem limmOf_packL (op : BitVec 7) (rd : Reg) (limm : Imm20) : limmOf (packL op rd limm) = limm := by
  refine BitVec.eq_of_getLsbD_eq fun i hi => ?_
  rw [limmOf, BitVec.getLsbD_extractLsb', getLsbD_packL]
  simp [hi, show ¬12 + i < 7 by omega]

theorem opcodeOf_packD (op : BitVec 7) (disp : Disp25) : opcodeOf (packD op disp) = op := by
  refine BitVec.eq_of_getLsbD_eq fun i hi => ?_
  rw [opcodeOf, BitVec.getLsbD_extractLsb', getLsbD_packD]
  simp [hi]

theorem dispOf_packD (op : BitVec 7) (disp : Disp25) : dispOf (packD op disp) = disp := by
  refine BitVec.eq_of_getLsbD_eq fun i hi => ?_
  rw [dispOf, BitVec.getLsbD_extractLsb', getLsbD_packD]
  simp [hi]

end Sys2Proof
end

