-- ==== Sys2Proof/Laws/Invariant.lean ====
section
/-! SUPPORT. Every operation over the state keeps the canonical forms of its sparse stores. -/

namespace Sys2Proof.Machine

theorem State.inv_congr {s t : State} (h : s.Inv) (hm : t.mem = s.mem) (hs : t.stored = s.stored) (hr : t.sr = s.sr) :
    t.Inv := by
  unfold State.Inv
  rw [hm, hs, hr]; exact h

theorem State.inv_setReg {s : State} (h : s.Inv) (i : Reg) (v : Word) : (s.setReg i v).Inv :=
  State.inv_congr h (by simp) (by simp) (by simp)

theorem State.inv_setPc {s : State} (h : s.Inv) (a : Word) : (s.setPc a).Inv := h

theorem State.inv_advance {s : State} (h : s.Inv) : s.advance.Inv := h

theorem State.inv_setT {s : State} (h : s.Inv) (b : Bool) : (s.setT b).Inv := h

theorem State.inv_setByte {s : State} (h : s.Inv) (a : Word) (b : Byte) : (s.setByte a b).Inv :=
  ⟨Memory.wf_set _ _ _ h.1, storedWfFrom_insert _ h.2.1 (Nat.zero_le _) a.isLt, h.2.2⟩

theorem State.inv_storeBytes {s : State} (h : s.Inv) (a : Word) (bs : List Byte) : (s.storeBytes a bs).Inv := by
  induction bs generalizing s a with
  | nil => exact h
  | cons b bs ih => exact ih (State.inv_setByte h a b) (a + 1#32)

theorem State.inv_memWrite {s : State} (h : s.Inv) (a : Word) (n : Nat) (v : Word) : (s.memWrite a n v).Inv :=
  State.inv_storeBytes h a _

theorem State.inv_setBytes {s : State} (h : s.Inv) (l : List (Word × Byte)) : (s.setBytes l).Inv := by
  induction l generalizing s with
  | nil => exact h
  | cons c l ih => exact ih (State.inv_setByte h c.1 c.2)

theorem State.inv_setSrs {s : State} (h : s.Inv) (l : List (Imm12 × Word)) : (s.setSrs l).Inv := by
  induction l generalizing s with
  | nil => exact h
  | cons c l ih => exact ih ⟨h.1, h.2.1, srWfFrom_srSet _ _ h.2.2 (Nat.zero_le _) c.1.isLt⟩

theorem State.inv_applySr {s : State} (h : s.Inv) (e : SrEffect) : (s.applySr e).Inv :=
  State.inv_setSrs h e.srWrites

theorem State.inv_enterTrap {s : State} (h : s.Inv) (x : Exc) : (s.enterTrap x).Inv := by
  unfold State.enterTrap
  refine State.inv_setBytes (State.inv_setSrs ?_ _) _
  exact State.inv_congr (s := s) h rfl rfl rfl

/-- The image of one word placed at IA keeps the canonical forms. -/
theorem State.inv_loadImage {s : State} (h : s.Inv) (a : Word) (bs : List Byte) : (s.loadImage a bs).Inv := by
  induction bs generalizing s a with
  | nil => exact h
  | cons b bs ih =>
    let t : State := { s with mem := s.mem.set a.toNat b, stored := s.stored.filter (· != a.toNat) }
    have ht : t.Inv := ⟨Memory.wf_set s.mem a b h.1, storedWfFrom_filter s.stored _ h.2.1, h.2.2⟩
    exact ih ht (a + 1#32)

end Sys2Proof.Machine
end

