-- ==== Sys2Proof/Laws/PerInstr.lean ====
section
/-! SUPPORT. Statements made per instruction: the canonical word of an instruction carries its primary opcode in `w[6:0]`,
under every well-formed layout (30_encoding.md R62, R72). -/

namespace Sys2Proof.Laws.EncodeOpcode

/-- The canonical word of `i` carries the opcode of `i`. -/
def Statement (i : Instr) : Prop := ∀ l : Layout, l.wf → opcodeOf (encode l i) = i.opcode

theorem add1 (rd : Reg) (rs : Reg) (imm : Imm12) : Statement (.add1 rd rs imm) := fun _ h => opcodeOf_packI h ..
theorem add2 (rd : Reg) (ra : Reg) (rb : Reg) : Statement (.add2 rd ra rb) := fun _ h => opcodeOf_packR h ..
theorem sub1 (rd : Reg) (rs : Reg) (imm : Imm12) : Statement (.sub1 rd rs imm) := fun _ h => opcodeOf_packI h ..
theorem sub2 (rd : Reg) (ra : Reg) (rb : Reg) : Statement (.sub2 rd ra rb) := fun _ h => opcodeOf_packR h ..
theorem neg (rd : Reg) (rb : Reg) : Statement (.neg rd rb) := fun _ h => opcodeOf_packR h ..
theorem movn (rd : Reg) (rb : Reg) : Statement (.movn rd rb) := fun _ h => opcodeOf_packR h ..
theorem or1 (rd : Reg) (rs : Reg) (imm : Imm12) : Statement (.or1 rd rs imm) := fun _ h => opcodeOf_packI h ..
theorem or2 (rd : Reg) (ra : Reg) (rb : Reg) : Statement (.or2 rd ra rb) := fun _ h => opcodeOf_packR h ..
theorem xor1 (rd : Reg) (rs : Reg) (imm : Imm12) : Statement (.xor1 rd rs imm) := fun _ h => opcodeOf_packI h ..
theorem xor2 (rd : Reg) (ra : Reg) (rb : Reg) : Statement (.xor2 rd ra rb) := fun _ h => opcodeOf_packR h ..
theorem and1 (rd : Reg) (rs : Reg) (imm : Imm12) : Statement (.and1 rd rs imm) := fun _ h => opcodeOf_packI h ..
theorem and2 (rd : Reg) (ra : Reg) (rb : Reg) : Statement (.and2 rd ra rb) := fun _ h => opcodeOf_packR h ..
theorem andn1 (rd : Reg) (rs : Reg) (imm : Imm12) : Statement (.andn1 rd rs imm) := fun _ h => opcodeOf_packI h ..
theorem andn2 (rd : Reg) (ra : Reg) (rb : Reg) : Statement (.andn2 rd ra rb) := fun _ h => opcodeOf_packR h ..
theorem movh (rd : Reg) (limm : Imm20) : Statement (.movh rd limm) := fun _ _ => opcodeOf_packL ..
theorem addh (rd : Reg) (limm : Imm20) : Statement (.addh rd limm) := fun _ _ => opcodeOf_packL ..
theorem orh (rd : Reg) (limm : Imm20) : Statement (.orh rd limm) := fun _ _ => opcodeOf_packL ..
theorem xorh (rd : Reg) (limm : Imm20) : Statement (.xorh rd limm) := fun _ _ => opcodeOf_packL ..
theorem rev (rd : Reg) (rs : Reg) : Statement (.rev rd rs) := fun _ h => opcodeOf_packI h ..
theorem clz (rd : Reg) (rs : Reg) : Statement (.clz rd rs) := fun _ h => opcodeOf_packI h ..
theorem clo (rd : Reg) (rs : Reg) : Statement (.clo rd rs) := fun _ h => opcodeOf_packI h ..
theorem swpb (rd : Reg) (rs : Reg) : Statement (.swpb rd rs) := fun _ h => opcodeOf_packI h ..
theorem swph (rd : Reg) (rs : Reg) : Statement (.swph rd rs) := fun _ h => opcodeOf_packI h ..
theorem clpb (rd : Reg) (rs : Reg) : Statement (.clpb rd rs) := fun _ h => opcodeOf_packI h ..
theorem clph (rd : Reg) (rs : Reg) : Statement (.clph rd rs) := fun _ h => opcodeOf_packI h ..
theorem clpbs (rd : Reg) (rs : Reg) : Statement (.clpbs rd rs) := fun _ h => opcodeOf_packI h ..
theorem clphs (rd : Reg) (rs : Reg) : Statement (.clphs rd rs) := fun _ h => opcodeOf_packI h ..
theorem ror1 (rd : Reg) (rs : Reg) (imm : Imm12) : Statement (.ror1 rd rs imm) := fun _ h => opcodeOf_packI h ..
theorem ror2 (rd : Reg) (ra : Reg) (rb : Reg) : Statement (.ror2 rd ra rb) := fun _ h => opcodeOf_packR h ..
theorem ext (rd : Reg) (ra : Reg) (size : BitVec 5) (shift : BitVec 5) : Statement (.ext rd ra size shift) := fun _ h => opcodeOf_packR h ..
theorem exts (rd : Reg) (ra : Reg) (size : BitVec 5) (shift : BitVec 5) : Statement (.exts rd ra size shift) := fun _ h => opcodeOf_packR h ..
theorem ins (rd : Reg) (ra : Reg) (rb : Reg) (size : BitVec 5) (shift : BitVec 5) : Statement (.ins rd ra rb size shift) := fun _ h => opcodeOf_packR h ..
theorem insz (rd : Reg) (rb : Reg) (size : BitVec 5) (shift : BitVec 5) : Statement (.insz rd rb size shift) := fun _ h => opcodeOf_packR h ..
theorem mul (rd : Reg) (ra : Reg) (rb : Reg) : Statement (.mul rd ra rb) := fun _ h => opcodeOf_packR h ..
theorem mulf (rd : Reg) (ra : Reg) (rb : Reg) : Statement (.mulf rd ra rb) := fun _ h => opcodeOf_packR h ..
theorem mac (rd : Reg) (ra : Reg) (rb : Reg) : Statement (.mac rd ra rb) := fun _ h => opcodeOf_packR h ..
theorem ceq1 (rs : Reg) (imm : Imm12) : Statement (.ceq1 rs imm) := fun _ h => opcodeOf_packI h ..
theorem ceq2 (ra : Reg) (rb : Reg) : Statement (.ceq2 ra rb) := fun _ h => opcodeOf_packR h ..
theorem cne1 (rs : Reg) (imm : Imm12) : Statement (.cne1 rs imm) := fun _ h => opcodeOf_packI h ..
theorem cne2 (ra : Reg) (rb : Reg) : Statement (.cne2 ra rb) := fun _ h => opcodeOf_packR h ..
theorem chi1 (rs : Reg) (imm : Imm12) : Statement (.chi1 rs imm) := fun _ h => opcodeOf_packI h ..
theorem chi2 (ra : Reg) (rb : Reg) : Statement (.chi2 ra rb) := fun _ h => opcodeOf_packR h ..
theorem cls1 (rs : Reg) (imm : Imm12) : Statement (.cls1 rs imm) := fun _ h => opcodeOf_packI h ..
theorem cls2 (ra : Reg) (rb : Reg) : Statement (.cls2 ra rb) := fun _ h => opcodeOf_packR h ..
theorem cgt1 (rs : Reg) (imm : Imm12) : Statement (.cgt1 rs imm) := fun _ h => opcodeOf_packI h ..
theorem cgt2 (ra : Reg) (rb : Reg) : Statement (.cgt2 ra rb) := fun _ h => opcodeOf_packR h ..
theorem cle1 (rs : Reg) (imm : Imm12) : Statement (.cle1 rs imm) := fun _ h => opcodeOf_packI h ..
theorem cle2 (ra : Reg) (rb : Reg) : Statement (.cle2 ra rb) := fun _ h => opcodeOf_packR h ..
theorem sel (rd : Reg) (ra : Reg) (rb : Reg) : Statement (.sel rd ra rb) := fun _ h => opcodeOf_packR h ..
theorem lb1 (rd : Reg) (rs : Reg) (imm : Imm12) : Statement (.lb1 rd rs imm) := fun _ h => opcodeOf_packI h ..
theorem lb2 (rd : Reg) (ra : Reg) (rb : Reg) : Statement (.lb2 rd ra rb) := fun _ h => opcodeOf_packR h ..
theorem lbs1 (rd : Reg) (rs : Reg) (imm : Imm12) : Statement (.lbs1 rd rs imm) := fun _ h => opcodeOf_packI h ..
theorem lbs2 (rd : Reg) (ra : Reg) (rb : Reg) : Statement (.lbs2 rd ra rb) := fun _ h => opcodeOf_packR h ..
theorem lh1 (rd : Reg) (rs : Reg) (imm : Imm12) : Statement (.lh1 rd rs imm) := fun _ h => opcodeOf_packI h ..
theorem lh2 (rd : Reg) (ra : Reg) (rb : Reg) : Statement (.lh2 rd ra rb) := fun _ h => opcodeOf_packR h ..
theorem lhs1 (rd : Reg) (rs : Reg) (imm : Imm12) : Statement (.lhs1 rd rs imm) := fun _ h => opcodeOf_packI h ..
theorem lhs2 (rd : Reg) (ra : Reg) (rb : Reg) : Statement (.lhs2 rd ra rb) := fun _ h => opcodeOf_packR h ..
theorem lw1 (rd : Reg) (rs : Reg) (imm : Imm12) : Statement (.lw1 rd rs imm) := fun _ h => opcodeOf_packI h ..
theorem lw2 (rd : Reg) (ra : Reg) (rb : Reg) : Statement (.lw2 rd ra rb) := fun _ h => opcodeOf_packR h ..
theorem sb1 (rd : Reg) (rs : Reg) (imm : Imm12) : Statement (.sb1 rd rs imm) := fun _ h => opcodeOf_packI h ..
theorem sb2 (rd : Reg) (ra : Reg) (rb : Reg) : Statement (.sb2 rd ra rb) := fun _ h => opcodeOf_packR h ..
theorem sh1 (rd : Reg) (rs : Reg) (imm : Imm12) : Statement (.sh1 rd rs imm) := fun _ h => opcodeOf_packI h ..
theorem sh2 (rd : Reg) (ra : Reg) (rb : Reg) : Statement (.sh2 rd ra rb) := fun _ h => opcodeOf_packR h ..
theorem sw1 (rd : Reg) (rs : Reg) (imm : Imm12) : Statement (.sw1 rd rs imm) := fun _ h => opcodeOf_packI h ..
theorem sw2 (rd : Reg) (ra : Reg) (rb : Reg) : Statement (.sw2 rd ra rb) := fun _ h => opcodeOf_packR h ..
theorem b1 (disp : Disp25) : Statement (.b1 disp) := fun _ _ => opcodeOf_packD ..
theorem b2 (rd : Reg) : Statement (.b2 rd) := fun _ h => opcodeOf_packR h ..
theorem bt1 (disp : Disp25) : Statement (.bt1 disp) := fun _ _ => opcodeOf_packD ..
theorem bt2 (rd : Reg) : Statement (.bt2 rd) := fun _ h => opcodeOf_packR h ..
theorem bl1 (disp : Disp25) : Statement (.bl1 disp) := fun _ _ => opcodeOf_packD ..
theorem bl2 (rd : Reg) : Statement (.bl2 rd) := fun _ h => opcodeOf_packR h ..
theorem blt1 (disp : Disp25) : Statement (.blt1 disp) := fun _ _ => opcodeOf_packD ..
theorem blt2 (rd : Reg) : Statement (.blt2 rd) := fun _ h => opcodeOf_packR h ..
theorem udf : Statement .udf := fun _ h => opcodeOf_packR h ..
theorem syscall : Statement .syscall := fun _ h => opcodeOf_packR h ..
theorem mfs (rd : Reg) (imm : Imm12) : Statement (.mfs rd imm) := fun _ h => opcodeOf_packI h ..
theorem mts (rd : Reg) (imm : Imm12) : Statement (.mts rd imm) := fun _ h => opcodeOf_packI h ..

end Sys2Proof.Laws.EncodeOpcode
end

