-- ==== Sys2Proof/Tests/Slice0.lean ====
section
/-! SUPPORT. The model's own tests. Expected values are the spec's: the examples of the instruction rules (40_alu.md to
47_system.md) and the vectors of 95_test_vectors.md, whose launch state `small` builds: pc = 0x1000, PRIV = false. After the
tests, for every statement with hypotheses a theorem that shows a state and operands that meet them (`witness_…`). -/

namespace Sys2Proof.Tests

open Sys2Proof.Machine

/-! ### Helpers -/

/-- A launch state at 0x1000 with the listed registers and T; every other register is 0. -/
def small (rs : List (Reg × Word)) (t : Bool := false) : State :=
  rs.foldl (fun s r => s.setReg r.1 r.2) (State.launch defaultParams 0x1000#32 false (Vector.replicate 32 0#32) t [])

/-- The same state with bytes in memory from 0x2000 on. -/
def withBytes (bs : List Byte) (s : State) : State := s.loadImage 0x2000#32 bs

/-- The same state under other parameters. -/
def under (f : Params → Params) (s : State) : State := { s with cfg := f s.cfg }

/-- The same state with privilege. -/
def privileged (s : State) : State := { s with priv := true }

/-- The same state at another IA. -/
def atPc (a : Word) (s : State) : State := { s with pc := a }

/-- Big-endian order. -/
def big (p : Params) : Params := { p with byteOrder := .big }

/-- Unaligned accesses supported. -/
def unalignedOk (p : Params) : Params := { p with unaligned := true }

/-- R0 hard-wired to zero. -/
def zeroR0 (p : Params) : Params := { p with r0Zero := true }

/-- A trap function supplied. -/
def trapping (p : Params) : Params := { p with trapSupplied := true }

/-- Unused bits ignored. -/
def ignoring (p : Params) : Params := { p with unusedBits := .ignore }

/-- A selector that reads every word of opcode 0001100 as one instruction. -/
def selecting (k : BitfieldKind) (p : Params) : Params :=
  { p with bitfieldSelect := [⟨0x7F#32, 0x0C#32, k⟩] }

/-- Data accesses admitted in 0x2000 to 0x2007 and fetches in 0x1000 to 0x1FFF only. -/
def tightMap (p : Params) : Params :=
  { p with memMap := [⟨0x1000, 0x1000, [], [], [4]⟩, ⟨0x2000, 8, [1, 2, 4], [1, 2, 4], []⟩] }

/-- One step with the word placed at IA. -/
def runWord (s : State) (w : Nat) : Result := step (s.withFetchWord 32 w)

/-- A register and IA after the step. -/
def regAfter (r : Reg) : Result → Option (Word × Word)
  | .next t => some (t.reg r, t.pc)
  | _ => none

/-- T and IA after the step. -/
def tAfter : Result → Option (Bool × Word)
  | .next t => some (t.t, t.pc)
  | _ => none

/-- IA after the step. -/
def pcAfter : Result → Option Word
  | .next t => some t.pc
  | _ => none

/-- The eight bytes from 0x2000 on after the step. -/
def bytesAfter : Result → Option (List Byte)
  | .next t => some (t.bytesAt 0x2000#32 8)
  | _ => none

/-- The fault of the step. -/
def faultOf : Result → Option Fault
  | .fault f => some f
  | _ => none

/-- The refusal of the step. -/
def refusalOf : Result → Option Refusal
  | .refused r => some r
  | _ => none

/-- The bytes that the load vectors of 95_test_vectors.md section 2.7 read. -/
def vectorBytes : List Byte := [0x80#8, 0x91#8, 0xA2#8, 0xB3#8, 0x44#8, 0x55#8, 0x66#8, 0x77#8]

/-! ### WellFormed refuses what the pages refuse (46_branch.md R215, R217) -/

theorem test_wellFormed_bl2_r31 : (Instr.bl2 31).wellFormed = false := by decide
theorem test_wellFormed_blt2_r31 : (Instr.blt2 31).wellFormed = false := by decide
theorem test_wellFormed_bl2_r30 : (Instr.bl2 30).wellFormed = true := by decide
theorem test_wellFormed_b2_r31 : (Instr.b2 31).wellFormed = true := by decide

/-! ### Decoding: for every constructor a word written out from its encoding -/

/-- R100 to R113 -/
theorem test_decode_alu :
    decode defaultParams 0xFFF020C8#32 = .instr (.add1 1 2 0xFFF#12) ∧
    decode defaultParams 0x00041188#32 = .instr (.add2 3 1 2) ∧
    decode defaultParams 0xFFF220C8#32 = .instr (.sub1 1 2 0xFFF#12) ∧
    decode defaultParams 0x00441188#32 = .instr (.sub2 3 1 2) ∧
    decode defaultParams 0x008A0208#32 = .instr (.neg 4 5) ∧
    decode defaultParams 0x00CA0208#32 = .instr (.movn 4 5) ∧
    decode defaultParams 0x800820C8#32 = .instr (.or1 1 2 0x800#12) ∧
    decode defaultParams 0x01041188#32 = .instr (.or2 3 1 2) ∧
    decode defaultParams 0xFFFA20C8#32 = .instr (.xor1 1 2 0xFFF#12) ∧
    decode defaultParams 0x01441188#32 = .instr (.xor2 3 1 2) ∧
    decode defaultParams 0xF0FC20C8#32 = .instr (.and1 1 2 0xF0F#12) ∧
    decode defaultParams 0x01841188#32 = .instr (.and2 3 1 2) ∧
    decode defaultParams 0xFFFE20C8#32 = .instr (.andn1 1 2 0xFFF#12) ∧
    decode defaultParams 0x01C41188#32 = .instr (.andn2 3 1 2) := by decide

/-- R120 to R123 -/
theorem test_decode_long_immediate :
    decode defaultParams 0xFFFFF2F8#32 = .instr (.movh 5 0xFFFFF#20) ∧
    decode defaultParams 0xFFFFF2F9#32 = .instr (.addh 5 0xFFFFF#20) ∧
    decode defaultParams 0x800002FA#32 = .instr (.orh 5 0x80000#20) ∧
    decode defaultParams 0xFFFFF2FB#32 = .instr (.xorh 5 0xFFFFF#20) := by decide

/-- R134 to R144 -/
theorem test_decode_bit_ops :
    decode defaultParams 0x000020C9#32 = .instr (.rev 1 2) ∧
    decode defaultParams 0x000420C9#32 = .instr (.clz 1 2) ∧
    decode defaultParams 0x000620C9#32 = .instr (.clo 1 2) ∧
    decode defaultParams 0x000820C9#32 = .instr (.swpb 1 2) ∧
    decode defaultParams 0x000A20C9#32 = .instr (.swph 1 2) ∧
    decode defaultParams 0x000020CA#32 = .instr (.clpb 1 2) ∧
    decode defaultParams 0x000220CA#32 = .instr (.clph 1 2) ∧
    decode defaultParams 0x000820CA#32 = .instr (.clpbs 1 2) ∧
    decode defaultParams 0x000A20CA#32 = .instr (.clphs 1 2) ∧
    decode defaultParams 0x008020CB#32 = .instr (.ror1 1 2 0x8#12) ∧
    decode defaultParams 0x0004118B#32 = .instr (.ror2 3 1 2) := by decide

/-- R160 to R162 -/
theorem test_decode_multiply :
    decode defaultParams 0x0004118D#32 = .instr (.mul 3 1 2) ∧
    decode defaultParams 0x0044118D#32 = .instr (.mulf 3 1 2) ∧
    decode defaultParams 0x0084118D#32 = .instr (.mac 3 1 2) := by decide

/-- R170 to R182 -/
theorem test_decode_compare :
    decode defaultParams 0xFFF0204E#32 = .instr (.ceq1 2 0xFFF#12) ∧
    decode defaultParams 0x0004100E#32 = .instr (.ceq2 1 2) ∧
    decode defaultParams 0x0008204E#32 = .instr (.cne1 2 0x0#12) ∧
    decode defaultParams 0x0104100E#32 = .instr (.cne2 1 2) ∧
    decode defaultParams 0xFFF2204E#32 = .instr (.chi1 2 0xFFF#12) ∧
    decode defaultParams 0x0044100E#32 = .instr (.chi2 1 2) ∧
    decode defaultParams 0xFFFA204E#32 = .instr (.cls1 2 0xFFF#12) ∧
    decode defaultParams 0x0144100E#32 = .instr (.cls2 1 2) ∧
    decode defaultParams 0xFFF6204E#32 = .instr (.cgt1 2 0xFFF#12) ∧
    decode defaultParams 0x00C4100E#32 = .instr (.cgt2 1 2) ∧
    decode defaultParams 0x800E204E#32 = .instr (.cle1 2 0x800#12) ∧
    decode defaultParams 0x01C4100E#32 = .instr (.cle2 1 2) ∧
    decode defaultParams 0x0004118F#32 = .instr (.sel 3 1 2) := by decide

/-- R191 to R206 -/
theorem test_decode_load_store :
    decode defaultParams 0x001020D0#32 = .instr (.lb1 1 2 0x1#12) ∧
    decode defaultParams 0x00062090#32 = .instr (.lb2 1 2 3) ∧
    decode defaultParams 0x001820D0#32 = .instr (.lbs1 1 2 0x1#12) ∧
    decode defaultParams 0x01062090#32 = .instr (.lbs2 1 2 3) ∧
    decode defaultParams 0x002220D0#32 = .instr (.lh1 1 2 0x2#12) ∧
    decode defaultParams 0x00462090#32 = .instr (.lh2 1 2 3) ∧
    decode defaultParams 0x002A20D0#32 = .instr (.lhs1 1 2 0x2#12) ∧
    decode defaultParams 0x01462090#32 = .instr (.lhs2 1 2 3) ∧
    decode defaultParams 0x000420D0#32 = .instr (.lw1 1 2 0x0#12) ∧
    decode defaultParams 0x00862090#32 = .instr (.lw2 1 2 3) ∧
    decode defaultParams 0x003020D1#32 = .instr (.sb1 1 2 0x3#12) ∧
    decode defaultParams 0x00062091#32 = .instr (.sb2 1 2 3) ∧
    decode defaultParams 0x002220D1#32 = .instr (.sh1 1 2 0x2#12) ∧
    decode defaultParams 0x00462091#32 = .instr (.sh2 1 2 3) ∧
    decode defaultParams 0x004420D1#32 = .instr (.sw1 1 2 0x4#12) ∧
    decode defaultParams 0x00862091#32 = .instr (.sw2 1 2 3) := by decide

/-- R210 to R217 -/
theorem test_decode_branch :
    decode defaultParams 0x7FFFFFFC#32 = .instr (.b1 0xFFFFFF#25) ∧
    decode defaultParams 0x000002BC#32 = .instr (.b2 5) ∧
    decode defaultParams 0x0000017D#32 = .instr (.bt1 0x2#25) ∧
    decode defaultParams 0x000002BD#32 = .instr (.bt2 5) ∧
    decode defaultParams 0xFFFFFE7E#32 = .instr (.bl1 0x1FFFFFC#25) ∧
    decode defaultParams 0x000002BE#32 = .instr (.bl2 5) ∧
    decode defaultParams 0x0000017F#32 = .instr (.blt1 0x2#25) ∧
    decode defaultParams 0x000002BF#32 = .instr (.blt2 5) := by decide

/-- R220 to R223 -/
theorem test_decode_system :
    decode defaultParams 0x00000000#32 = .instr (.udf) ∧
    decode defaultParams 0x00000001#32 = .instr (.syscall) ∧
    decode defaultParams 0x003000C4#32 = .instr (.mfs 1 0x3#12) ∧
    decode defaultParams 0x003000C5#32 = .instr (.mts 1 0x3#12) := by decide

/-- R146 to R149: the word of 95_test_vectors.md section 2.4 and its neighbours, under a selector for each of the four. -/
theorem test_decode_bitfield :
    decode (selecting .ext defaultParams) 0x2200208C#32 = .instr (.ext 1 2 8 4) ∧
    decode (selecting .exts defaultParams) 0x2200208C#32 = .instr (.exts 1 2 8 4) ∧
    decode (selecting .ins defaultParams) 0x2206208C#32 = .instr (.ins 1 2 3 8 4) ∧
    decode (selecting .insz defaultParams) 0x2206008C#32 = .instr (.insz 1 3 8 4) ∧
    decode defaultParams 0x2200208C#32 = .bitfieldUndecodable := by decide

/-- 95_test_vectors.md section 2.10: words that no page allocates. -/
theorem test_decode_reserved :
    [0x00000002#32, 0x00020049#32, 0x000E0049#32, 0x0004004A#32, 0x0004004E#32, 0x0180000E#32, 0x00060050#32, 0x00C00010#32,
      0x00060051#32, 0x00C0000D#32, 0x02000008#32].all (fun w => decode defaultParams w = .reservedEncoding) = true := by
  decide

/-- 95_test_vectors.md section 2.10: unused fields that are not zero, refused. -/
theorem test_decode_unused_refuse :
    [0x00000080#32, 0x00000081#32, 0x008A1208#32, 0x0004118E#32, 0x004002BC#32, 0x001020C9#32, 0x0044118F#32,
      0x003010C4#32].all (fun w => decode defaultParams w = .unusedBitsNonZero) = true := by decide

/-- The same words with P_UNUSED_BITS = ignore. -/
theorem test_decode_unused_ignore :
    [0x00000080#32, 0x00000081#32, 0x008A1208#32, 0x0004118E#32, 0x004002BC#32, 0x001020C9#32, 0x0044118F#32,
      0x003010C4#32].map (decode (ignoring defaultParams)) =
    [.instr .udf, .instr .syscall, .instr (.neg 4 5), .instr (.ceq2 1 2), .instr (.b2 5), .instr (.rev 1 2),
      .instr (.sel 3 1 2), .instr (.mfs 1 3)] := by decide

/-- 95_test_vectors.md sections 2.8 and 2.10: words that look special and are not. -/
theorem test_decode_corners :
    decode defaultParams 0x00000FBE#32 = .linkRegisterAsTarget ∧ decode defaultParams 0x00000FBF#32 = .linkRegisterAsTarget ∧
    decode defaultParams 0x00000FBC#32 = .instr (.b2 31) ∧ decode defaultParams 0x00000FBD#32 = .instr (.bt2 31) ∧
    decode defaultParams 0xFFFFFFFF#32 = .instr (.blt1 0x1FFFFFF#25) ∧
    decode defaultParams 0xFE8020CB#32 = .instr (.ror1 1 2 0xFE8#12) := by decide

/-- The host's entry: a word of the table, and a word whose bits above `nbits` are dropped. -/
theorem test_decodeTableWord :
    decodeTableWord 32 0x123452F8 = some (.movh 5 0x12345#20) ∧ decodeTableWord 8 0x123452F8 = some (.movh 1 0) ∧
    decodeTableWord 32 0x2200208C = none := by decide

/-- A layout of other positions: the fields of format I in the reverse order (30_encoding.md R65 leaves them open). -/
def otherLayout : Layout := { defaultLayout with iImm := 7, iSec := 19, iRs := 22, iRd := 27 }

theorem test_decode_other_layout :
    otherLayout.wf ∧
    decode { defaultParams with layout := otherLayout } (encode otherLayout (.add1 1 2 5)) = .instr (.add1 1 2 5) ∧
    encode otherLayout (.add1 1 2 5) ≠ encode defaultLayout (.add1 1 2 5) := by decide

/-! ### The fetch (95_test_vectors.md section 2.11) -/

theorem test_fetch_misaligned : faultOf (step (atPc 0x1002#32 (small []))) = some (.misalignedFetch 0x1002#32) := by decide

theorem test_fetch_not_admitted :
    faultOf (step (atPc 0x5000#32 (under tightMap (small [])))) = some (.stuck .fetch 4 0x5000#32) := by decide

/-- Misaligned accesses supported: word loads admitted at 0 and 4 and not at 2 (20_memory.md R40), and a word at 0x2006 of
which two bytes lie past the map (R45). -/
theorem test_unaligned_admission :
    (let s := under (fun p => { p with memMap := [⟨0, 1, [4], [], []⟩, ⟨4, 1, [4], [], []⟩] }) (under unalignedOk (small []))
     s.admitted 0#32 4 .load = true ∧ s.admitted 4#32 4 .load = true ∧ s.admitted 2#32 4 .load = false) ∧
    (let s := under tightMap (under unalignedOk (small []))
     s.admitted 0x2003#32 4 .load = true ∧ s.admitted 0x2006#32 4 .load = false) := by decide

theorem test_fetch_stored :
    refusalOf (step ((small []).setByte 0x1003#32 0#8)) = some (.fetchFromWrittenMemory 0x1000#32) := by decide

theorem test_fetch_stored_coherent :
    faultOf (step (under (fun p => { p with smc := .coherent }) ((small []).setByte 0x1003#32 0#8))) =
      some (.exception .udf) := by decide

theorem test_fetch_little :
    regAfter 1 (step ((small [(2, 7#32)]).loadImage 0x1000#32 [0xC8#8, 0x20#8, 0x50#8, 0x00#8])) =
      some (0xC#32, 0x1004#32) := by decide

theorem test_fetch_big :
    regAfter 1 (step (under big ((small [(2, 7#32)]).loadImage 0x1000#32 [0x00#8, 0x50#8, 0x20#8, 0xC8#8]))) =
      some (0xC#32, 0x1004#32) := by decide

theorem test_fetch_big_of_little_image :
    refusalOf (step (under big ((small []).loadImage 0x1000#32 [0xC8#8, 0x20#8, 0x50#8, 0x00#8]))) =
      some (.unusedBitsNonZero 0xC8205000#32) := by decide

theorem test_run_ends : faultOf (step (under (fun p => { p with endIa := some 0x1000#32 }) (small []))) = some .runEnded := by
  decide

/-- The first step after reset runs the instruction placed for it. -/
theorem test_reset_runs_placed : regAfter 5 (runWord State.reset 0x123452F8) = some (0x12345000#32, 4#32) := by decide

/-! ### One step per vector of 95_test_vectors.md section 2 -/

theorem test_add1_r2_1 : regAfter 1 (runWord (small [(2, 0x1#32)]) 0xFFF020C8) = some (0x00001000#32, 0x1004#32) := by decide
theorem test_add1_r2_FFFFFFFF :
    regAfter 1 (runWord (small [(2, 0xFFFFFFFF#32)]) 0x001020C8) =
      some (0x00000000#32, 0x1004#32) := by decide
theorem test_add2_r1_7FFFFFFF_r2_1 :
    regAfter 3 (runWord (small [(1, 0x7FFFFFFF#32), (2, 0x1#32)]) 0x00041188) =
      some (0x80000000#32, 0x1004#32) := by decide
theorem test_add2_r1_80000000 :
    regAfter 1 (runWord (small [(1, 0x80000000#32)]) 0x00021088) =
      some (0x00000000#32, 0x1004#32) := by decide
theorem test_sub1_r2_0 : regAfter 1 (runWord (small [(2, 0x0#32)]) 0x001220C8) = some (0xFFFFFFFF#32, 0x1004#32) := by decide
theorem test_sub1_r2_1000 :
    regAfter 1 (runWord (small [(2, 0x1000#32)]) 0xFFF220C8) =
      some (0x00000001#32, 0x1004#32) := by decide
theorem test_sub2_r1_5_r2_7 :
    regAfter 3 (runWord (small [(1, 0x5#32), (2, 0x7#32)]) 0x00441188) =
      some (0xFFFFFFFE#32, 0x1004#32) := by decide
theorem test_sub2_r1_80000000_r2_1 :
    regAfter 3 (runWord (small [(1, 0x80000000#32), (2, 0x1#32)]) 0x00441188) =
      some (0x7FFFFFFF#32, 0x1004#32) := by decide
theorem test_neg_r5_0 : regAfter 4 (runWord (small [(5, 0x0#32)]) 0x008A0208) = some (0x00000000#32, 0x1004#32) := by decide
theorem test_neg_r5_80000000 :
    regAfter 4 (runWord (small [(5, 0x80000000#32)]) 0x008A0208) =
      some (0x80000000#32, 0x1004#32) := by decide
theorem test_movn_r5_12345678 :
    regAfter 4 (runWord (small [(5, 0x12345678#32)]) 0x00CA0208) =
      some (0xEDCBA987#32, 0x1004#32) := by decide
theorem test_and1_r2_FFFFFFFF :
    regAfter 1 (runWord (small [(2, 0xFFFFFFFF#32)]) 0xF0FC20C8) =
      some (0x00000F0F#32, 0x1004#32) := by decide
theorem test_and2_r1_FF00FF00_r2_FF00FF0 :
    regAfter 3 (runWord (small [(1, 0xFF00FF00#32), (2, 0xFF00FF0#32)]) 0x01841188) =
      some (0x0F000F00#32, 0x1004#32) := by decide
theorem test_andn1_r2_FFFFFFFF :
    regAfter 1 (runWord (small [(2, 0xFFFFFFFF#32)]) 0xFFFE20C8) =
      some (0xFFFFF000#32, 0x1004#32) := by decide
theorem test_andn2_r1_FF00FF00_r2_FF00FF0 :
    regAfter 3 (runWord (small [(1, 0xFF00FF00#32), (2, 0xFF00FF0#32)]) 0x01C41188) =
      some (0xF000F000#32, 0x1004#32) := by decide
theorem test_or1_r2_10000000 :
    regAfter 1 (runWord (small [(2, 0x10000000#32)]) 0x800820C8) =
      some (0x10000800#32, 0x1004#32) := by decide
theorem test_or1_r2_CAFEBABE :
    regAfter 1 (runWord (small [(2, 0xCAFEBABE#32)]) 0x000820C8) =
      some (0xCAFEBABE#32, 0x1004#32) := by decide
theorem test_or2_r1_FF00FF00_r2_FF00FF0 :
    regAfter 3 (runWord (small [(1, 0xFF00FF00#32), (2, 0xFF00FF0#32)]) 0x01041188) =
      some (0xFFF0FFF0#32, 0x1004#32) := by decide
theorem test_xor1_r2_FFFFFFFF :
    regAfter 1 (runWord (small [(2, 0xFFFFFFFF#32)]) 0xFFFA20C8) =
      some (0xFFFFF000#32, 0x1004#32) := by decide
theorem test_xor2_r1_FF00FF00_r2_FF00FF0 :
    regAfter 3 (runWord (small [(1, 0xFF00FF00#32), (2, 0xFF00FF0#32)]) 0x01441188) =
      some (0xF0F0F0F0#32, 0x1004#32) := by decide
theorem test_xor2_r1_DEADBEEF :
    regAfter 3 (runWord (small [(1, 0xDEADBEEF#32)]) 0x01421188) =
      some (0x00000000#32, 0x1004#32) := by decide
theorem test_movh_r5_AAAAAAAA :
    regAfter 5 (runWord (small [(5, 0xAAAAAAAA#32)]) 0xFFFFF2F8) =
      some (0xFFFFF000#32, 0x1004#32) := by decide
theorem test_addh_r5_FFF :
    regAfter 5 (runWord (small [(5, 0xFFF#32)]) 0x000012F9) =
      some (0x00001FFF#32, 0x1004#32) := by decide
theorem test_addh_r5_1234 :
    regAfter 5 (runWord (small [(5, 0x1234#32)]) 0xFFFFF2F9) =
      some (0x00000234#32, 0x1004#32) := by decide
theorem test_orh_r5_678 :
    regAfter 5 (runWord (small [(5, 0x678#32)]) 0x800002FA) =
      some (0x80000678#32, 0x1004#32) := by decide
theorem test_xorh_r5_12345678 :
    regAfter 5 (runWord (small [(5, 0x12345678#32)]) 0xFFFFF2FB) =
      some (0xEDCBA678#32, 0x1004#32) := by decide
theorem test_rev_r2_12345678 :
    regAfter 1 (runWord (small [(2, 0x12345678#32)]) 0x000020C9) =
      some (0x1E6A2C48#32, 0x1004#32) := by decide
theorem test_clz_r2_0 : regAfter 1 (runWord (small [(2, 0x0#32)]) 0x000420C9) = some (0x00000020#32, 0x1004#32) := by decide
theorem test_clz_r2_10000 :
    regAfter 1 (runWord (small [(2, 0x10000#32)]) 0x000420C9) =
      some (0x0000000F#32, 0x1004#32) := by decide
theorem test_clo_r2_FFFFFFFF :
    regAfter 1 (runWord (small [(2, 0xFFFFFFFF#32)]) 0x000620C9) =
      some (0x00000020#32, 0x1004#32) := by decide
theorem test_clo_r2_FFF00000 :
    regAfter 1 (runWord (small [(2, 0xFFF00000#32)]) 0x000620C9) =
      some (0x0000000C#32, 0x1004#32) := by decide
theorem test_swpb_r2_11223344 :
    regAfter 1 (runWord (small [(2, 0x11223344#32)]) 0x000820C9) =
      some (0x44332211#32, 0x1004#32) := by decide
theorem test_swph_r2_11223344 :
    regAfter 1 (runWord (small [(2, 0x11223344#32)]) 0x000A20C9) =
      some (0x33441122#32, 0x1004#32) := by decide
theorem test_clpb_r2_FF :
    regAfter 1 (runWord (small [(2, 0xFF#32)]) 0x000020CA) =
      some (0x000000FF#32, 0x1004#32) := by decide
theorem test_clpb_r2_FFFFFFFF :
    regAfter 1 (runWord (small [(2, 0xFFFFFFFF#32)]) 0x000020CA) =
      some (0x000000FF#32, 0x1004#32) := by decide
theorem test_clph_r2_FFFF :
    regAfter 1 (runWord (small [(2, 0xFFFF#32)]) 0x000220CA) =
      some (0x0000FFFF#32, 0x1004#32) := by decide
theorem test_clph_r2_10000 :
    regAfter 1 (runWord (small [(2, 0x10000#32)]) 0x000220CA) =
      some (0x0000FFFF#32, 0x1004#32) := by decide
theorem test_clpbs_r2_80 :
    regAfter 1 (runWord (small [(2, 0x80#32)]) 0x000820CA) =
      some (0x0000007F#32, 0x1004#32) := by decide
theorem test_clpbs_r2_FFFFFF7F :
    regAfter 1 (runWord (small [(2, 0xFFFFFF7F#32)]) 0x000820CA) =
      some (0xFFFFFF80#32, 0x1004#32) := by decide
theorem test_clphs_r2_8000 :
    regAfter 1 (runWord (small [(2, 0x8000#32)]) 0x000A20CA) =
      some (0x00007FFF#32, 0x1004#32) := by decide
theorem test_clphs_r2_FFFF7FFF :
    regAfter 1 (runWord (small [(2, 0xFFFF7FFF#32)]) 0x000A20CA) =
      some (0xFFFF8000#32, 0x1004#32) := by decide
theorem test_ror1_r2_12345678 :
    regAfter 1 (runWord (small [(2, 0x12345678#32)]) 0x028020CB) =
      some (0x78123456#32, 0x1004#32) := by decide
theorem test_ror1_r2_80000001 :
    regAfter 1 (runWord (small [(2, 0x80000001#32)]) 0x01F020CB) =
      some (0x00000003#32, 0x1004#32) := by decide
theorem test_ror2_r1_12345678_r2_FFFFFFE4 :
    regAfter 3 (runWord (small [(1, 0x12345678#32), (2, 0xFFFFFFE4#32)]) 0x0004118B) =
      some (0x81234567#32, 0x1004#32) := by decide
theorem test_ror2_r1_12345678_r2_20 :
    regAfter 3 (runWord (small [(1, 0x12345678#32), (2, 0x20#32)]) 0x0004118B) =
      some (0x12345678#32, 0x1004#32) := by decide
theorem test_ext_s8_h4_r2_12345678 :
    regAfter 1 (exec (.ext 1 2 8 4) (small [(2, 0x12345678#32)])) =
      some (0x00000067#32, 0x1004#32) := by decide
theorem test_ext_s0_h4_r2_12345678 :
    regAfter 1 (exec (.ext 1 2 0 4) (small [(2, 0x12345678#32)])) =
      some (0x01234567#32, 0x1004#32) := by decide
theorem test_exts_s8_h4_r2_12345F78 :
    regAfter 1 (exec (.exts 1 2 8 4) (small [(2, 0x12345F78#32)])) =
      some (0xFFFFFFF7#32, 0x1004#32) := by decide
theorem test_exts_s1_h31_r2_80000000 :
    regAfter 1 (exec (.exts 1 2 1 31) (small [(2, 0x80000000#32)])) =
      some (0xFFFFFFFF#32, 0x1004#32) := by decide
theorem test_ins_s8_h4_r2_0_r3_12345678 :
    regAfter 1 (exec (.ins 1 2 3 8 4) (small [(2, 0x0#32), (3, 0x12345678#32)])) =
      some (0x00000780#32, 0x1004#32) := by decide
theorem test_ins_s8_h28_r2_FFFFFFF_r3_AB :
    regAfter 1 (exec (.ins 1 2 3 8 28) (small [(2, 0xFFFFFFF#32), (3, 0xAB#32)])) =
      some (0xBFFFFFFF#32, 0x1004#32) := by decide
theorem test_insz_s8_h4_r3_123456AB :
    regAfter 1 (exec (.insz 1 3 8 4) (small [(3, 0x123456AB#32)])) =
      some (0x00000AB0#32, 0x1004#32) := by decide
theorem test_insz_s8_h28_r3_AB :
    regAfter 1 (exec (.insz 1 3 8 28) (small [(3, 0xAB#32)])) =
      some (0xB0000000#32, 0x1004#32) := by decide
theorem test_mul_r1_FFFFFFFF_r2_FFFFFFFF :
    regAfter 3 (runWord (small [(1, 0xFFFFFFFF#32), (2, 0xFFFFFFFF#32)]) 0x0004118D) =
      some (0x00000001#32, 0x1004#32) := by decide
theorem test_mul_r1_12345678_r2_9ABCDEF0 :
    regAfter 3 (runWord (small [(1, 0x12345678#32), (2, 0x9ABCDEF0#32)]) 0x0004118D) =
      some (0x242D2080#32, 0x1004#32) := by decide
theorem test_mulf_r1_7FFFFFFF_r2_7FFFFFFF :
    regAfter 3 (runWord (small [(1, 0x7FFFFFFF#32), (2, 0x7FFFFFFF#32)]) 0x0044118D) =
      some (0xFFFF0000#32, 0x1004#32) := by decide
theorem test_mac_r1_7_r2_6_r3_64 :
    regAfter 3 (runWord (small [(1, 0x7#32), (2, 0x6#32), (3, 0x64#32)]) 0x0084118D) =
      some (0x0000008E#32, 0x1004#32) := by decide
theorem test_mac_r3_5 : regAfter 3 (runWord (small [(3, 0x5#32)]) 0x0086318D) = some (0x0000001E#32, 0x1004#32) := by decide
theorem test_ceq2_r1_5_r2_5 :
    tAfter (runWord (small [(1, 0x5#32), (2, 0x5#32)]) 0x0004100E) =
      some (true, 0x1004#32) := by decide
theorem test_ceq2_r1_5_r2_6 :
    tAfter (runWord (small [(1, 0x5#32), (2, 0x6#32)]) 0x0004100E) =
      some (false, 0x1004#32) := by decide
theorem test_cne2_r1_5_r2_5 :
    tAfter (runWord (small [(1, 0x5#32), (2, 0x5#32)]) 0x0104100E) =
      some (false, 0x1004#32) := by decide
theorem test_cne2_r1_5_r2_6 :
    tAfter (runWord (small [(1, 0x5#32), (2, 0x6#32)]) 0x0104100E) =
      some (true, 0x1004#32) := by decide
theorem test_chi2_r1_FFFFFFFF_r2_1 :
    tAfter (runWord (small [(1, 0xFFFFFFFF#32), (2, 0x1#32)]) 0x0044100E) =
      some (true, 0x1004#32) := by decide
theorem test_chi2_r1_1_r2_1 :
    tAfter (runWord (small [(1, 0x1#32), (2, 0x1#32)]) 0x0044100E) =
      some (false, 0x1004#32) := by decide
theorem test_cls2_r1_FFFFFFFF_r2_1 :
    tAfter (runWord (small [(1, 0xFFFFFFFF#32), (2, 0x1#32)]) 0x0144100E) =
      some (false, 0x1004#32) := by decide
theorem test_cls2_r1_1_r2_1 :
    tAfter (runWord (small [(1, 0x1#32), (2, 0x1#32)]) 0x0144100E) =
      some (true, 0x1004#32) := by decide
theorem test_cgt2_r1_FFFFFFFF_r2_1 :
    tAfter (runWord (small [(1, 0xFFFFFFFF#32), (2, 0x1#32)]) 0x00C4100E) =
      some (false, 0x1004#32) := by decide
theorem test_cgt2_r1_7FFFFFFF_r2_80000000 :
    tAfter (runWord (small [(1, 0x7FFFFFFF#32), (2, 0x80000000#32)]) 0x00C4100E) =
      some (true, 0x1004#32) := by decide
theorem test_cle2_r1_FFFFFFFF_r2_1 :
    tAfter (runWord (small [(1, 0xFFFFFFFF#32), (2, 0x1#32)]) 0x01C4100E) =
      some (true, 0x1004#32) := by decide
theorem test_cle2_r1_80000000_r2_7FFFFFFF :
    tAfter (runWord (small [(1, 0x80000000#32), (2, 0x7FFFFFFF#32)]) 0x01C4100E) =
      some (true, 0x1004#32) := by decide
theorem test_ceq1_r2_FFFFFFFF :
    tAfter (runWord (small [(2, 0xFFFFFFFF#32)]) 0xFFF0204E) =
      some (false, 0x1004#32) := by decide
theorem test_ceq1_r2_FFF : tAfter (runWord (small [(2, 0xFFF#32)]) 0xFFF0204E) = some (true, 0x1004#32) := by decide
theorem test_cne1_r2_0 : tAfter (runWord (small [(2, 0x0#32)] true) 0x0008204E) = some (false, 0x1004#32) := by decide
theorem test_chi1_r2_1000 : tAfter (runWord (small [(2, 0x1000#32)]) 0xFFF2204E) = some (true, 0x1004#32) := by decide
theorem test_chi1_r2_FFF : tAfter (runWord (small [(2, 0xFFF#32)]) 0xFFF2204E) = some (false, 0x1004#32) := by decide
theorem test_cls1_r2_FFF : tAfter (runWord (small [(2, 0xFFF#32)]) 0xFFFA204E) = some (true, 0x1004#32) := by decide
theorem test_cls1_r2_0 : tAfter (runWord (small [(2, 0x0#32)]) 0x000A204E) = some (true, 0x1004#32) := by decide
theorem test_cgt1_r2_FFFFFFFF :
    tAfter (runWord (small [(2, 0xFFFFFFFF#32)]) 0xFFF6204E) =
      some (false, 0x1004#32) := by decide
theorem test_cgt1_r2_800 : tAfter (runWord (small [(2, 0x800#32)]) 0x7FF6204E) = some (true, 0x1004#32) := by decide
theorem test_cle1_r2_FFFFF800 :
    tAfter (runWord (small [(2, 0xFFFFF800#32)]) 0x800E204E) =
      some (true, 0x1004#32) := by decide
theorem test_cle1_r2_FFFFF801 :
    tAfter (runWord (small [(2, 0xFFFFF801#32)]) 0x800E204E) =
      some (false, 0x1004#32) := by decide
theorem test_sel_t1 :
    regAfter 3 (runWord (small [(1, 0xAAAA#32), (2, 0xBBBB#32)] true) 0x0004118F) =
      some (0x0000AAAA#32, 0x1004#32) := by decide
theorem test_sel_t0 :
    regAfter 3 (runWord (small [(1, 0xAAAA#32), (2, 0xBBBB#32)]) 0x0004118F) =
      some (0x0000BBBB#32, 0x1004#32) := by decide
theorem test_lb1_r2_2000 :
    regAfter 1 (runWord (withBytes vectorBytes (small [(2, 0x2000#32)])) 0x001020D0) =
      some (0x00000091#32, 0x1004#32) := by decide
theorem test_lbs1_r2_2000 :
    regAfter 1 (runWord (withBytes vectorBytes (small [(2, 0x2000#32)])) 0x001820D0) =
      some (0xFFFFFF91#32, 0x1004#32) := by decide
theorem test_lh1_r2_2000 :
    regAfter 1 (runWord (withBytes vectorBytes (small [(2, 0x2000#32)])) 0x002220D0) =
      some (0x0000B3A2#32, 0x1004#32) := by decide
theorem test_lh1_r2_2000_big :
    regAfter 1 (runWord (under big (withBytes vectorBytes (small [(2, 0x2000#32)]))) 0x002220D0) =
      some (0x0000A2B3#32, 0x1004#32) := by decide
theorem test_lhs1_r2_2000 :
    regAfter 1 (runWord (withBytes vectorBytes (small [(2, 0x2000#32)])) 0x002A20D0) =
      some (0xFFFFB3A2#32, 0x1004#32) := by decide
theorem test_lw1_r2_2008 :
    regAfter 1 (runWord (withBytes vectorBytes (small [(2, 0x2008#32)])) 0xFFC420D0) =
      some (0x77665544#32, 0x1004#32) := by decide
theorem test_lw1_r2_2000_big_unaligned :
    regAfter 1 (runWord (under unalignedOk (under big (withBytes vectorBytes (small [(2, 0x2000#32)])))) 0x001420D0) =
      some (0x91A2B344#32, 0x1004#32) := by decide
theorem test_lw2_r2_2008_r3_FFFFFFF8 :
    regAfter 1 (runWord (withBytes vectorBytes (small [(2, 0x2008#32), (3, 0xFFFFFFF8#32)])) 0x00862090) =
      some (0xB3A29180#32, 0x1004#32) := by decide
theorem test_lw2_r2_2008_r3_FFFFFFF8_big :
    regAfter 1 (runWord (under big (withBytes vectorBytes (small [(2, 0x2008#32), (3, 0xFFFFFFF8#32)]))) 0x00862090) =
      some (0x8091A2B3#32, 0x1004#32) := by decide
theorem test_lb2_r2_2000_r3_3 :
    regAfter 1 (runWord (withBytes vectorBytes (small [(2, 0x2000#32), (3, 0x3#32)])) 0x00062090) =
      some (0x000000B3#32, 0x1004#32) := by decide
theorem test_lbs2_r2_2000_r3_3 :
    regAfter 1 (runWord (withBytes vectorBytes (small [(2, 0x2000#32), (3, 0x3#32)])) 0x01062090) =
      some (0xFFFFFFB3#32, 0x1004#32) := by decide
theorem test_lh2_r2_2000_r3_6 :
    regAfter 1 (runWord (withBytes vectorBytes (small [(2, 0x2000#32), (3, 0x6#32)])) 0x00462090) =
      some (0x00007766#32, 0x1004#32) := by decide
theorem test_lh2_r2_2000_r3_6_big :
    regAfter 1 (runWord (under big (withBytes vectorBytes (small [(2, 0x2000#32), (3, 0x6#32)]))) 0x00462090) =
      some (0x00006677#32, 0x1004#32) := by decide
theorem test_lhs2_r2_2000_r3_0 :
    regAfter 1 (runWord (withBytes vectorBytes (small [(2, 0x2000#32), (3, 0x0#32)])) 0x01462090) =
      some (0xFFFF9180#32, 0x1004#32) := by decide
theorem test_lhs2_r2_2000_r3_0_big :
    regAfter 1 (runWord (under big (withBytes vectorBytes (small [(2, 0x2000#32), (3, 0x0#32)]))) 0x01462090) =
      some (0xFFFF8091#32, 0x1004#32) := by decide
theorem test_sb1_r1_12345678_r2_2000 :
    bytesAfter (runWord (small [(1, 0x12345678#32), (2, 0x2000#32)]) 0x003020D1) =
      some [0x00#8, 0x00#8, 0x00#8, 0x78#8, 0x00#8, 0x00#8, 0x00#8, 0x00#8] := by decide
theorem test_sh1_r1_12345678_r2_2000 :
    bytesAfter (runWord (small [(1, 0x12345678#32), (2, 0x2000#32)]) 0x002220D1) =
      some [0x00#8, 0x00#8, 0x78#8, 0x56#8, 0x00#8, 0x00#8, 0x00#8, 0x00#8] := by decide
theorem test_sh1_r1_12345678_r2_2000_big :
    bytesAfter (runWord (under big (small [(1, 0x12345678#32), (2, 0x2000#32)])) 0x002220D1) =
      some [0x00#8, 0x00#8, 0x56#8, 0x78#8, 0x00#8, 0x00#8, 0x00#8, 0x00#8] := by decide
theorem test_sw1_r1_12345678_r2_2000 :
    bytesAfter (runWord (small [(1, 0x12345678#32), (2, 0x2000#32)]) 0x004420D1) =
      some [0x00#8, 0x00#8, 0x00#8, 0x00#8, 0x78#8, 0x56#8, 0x34#8, 0x12#8] := by decide
theorem test_sw1_r1_12345678_r2_2000_big :
    bytesAfter (runWord (under big (small [(1, 0x12345678#32), (2, 0x2000#32)])) 0x004420D1) =
      some [0x00#8, 0x00#8, 0x00#8, 0x00#8, 0x12#8, 0x34#8, 0x56#8, 0x78#8] := by decide
theorem test_sb2_r1_12345678_r2_2000_r3_1 :
    bytesAfter (runWord (small [(1, 0x12345678#32), (2, 0x2000#32), (3, 0x1#32)]) 0x00062091) =
      some [0x00#8, 0x78#8, 0x00#8, 0x00#8, 0x00#8, 0x00#8, 0x00#8, 0x00#8] := by decide
theorem test_sh2_r1_12345678_r2_2000_r3_4 :
    bytesAfter (runWord (small [(1, 0x12345678#32), (2, 0x2000#32), (3, 0x4#32)]) 0x00462091) =
      some [0x00#8, 0x00#8, 0x00#8, 0x00#8, 0x78#8, 0x56#8, 0x00#8, 0x00#8] := by decide
theorem test_sh2_r1_12345678_r2_2000_r3_4_big :
    bytesAfter (runWord (under big (small [(1, 0x12345678#32), (2, 0x2000#32), (3, 0x4#32)])) 0x00462091) =
      some [0x00#8, 0x00#8, 0x00#8, 0x00#8, 0x56#8, 0x78#8, 0x00#8, 0x00#8] := by decide
theorem test_sw2_r1_12345678_r2_2004_r3_FFFFFFFC_big :
    bytesAfter (runWord (under big (small [(1, 0x12345678#32), (2, 0x2004#32), (3, 0xFFFFFFFC#32)])) 0x00862091) =
      some [0x12#8, 0x34#8, 0x56#8, 0x78#8, 0x00#8, 0x00#8, 0x00#8, 0x00#8] := by decide
theorem test_sw2_r1_1234_r2_2000_r3_2 :
    faultOf (runWord (withBytes vectorBytes (small [(1, 0x1234#32), (2, 0x2000#32), (3, 0x2#32)])) 0x00862091) =
      some (.exception (.ali 0x00002002#32)) := by decide
theorem test_b1_B_1_disp_1 : pcAfter (runWord (small []) 0xFFFFFFFC) = some 0xFFC#32 := by decide
theorem test_b1_B_disp_0x1000000_2_24 : pcAfter (runWord (small []) 0x8000007C) = some 0xFC001000#32 := by decide
theorem test_b2_r5_4000 : pcAfter (runWord (small [(5, 0x4000#32)]) 0x000002BC) = some 0x4000#32 := by decide
theorem test_b2_r5_4002 : pcAfter (runWord (small [(5, 0x4002#32)]) 0x000002BC) = some 0x4002#32 := by decide
theorem test_bt1_taken : pcAfter (runWord (small [] true) 0x0000017D) = some 0x1008#32 := by decide
theorem test_bt1_not_taken : pcAfter (runWord (small []) 0x0000017D) = some 0x1004#32 := by decide
theorem test_bt2_taken : pcAfter (runWord (small [(5, 0x4000#32)] true) 0x000002BD) = some 0x4000#32 := by decide
theorem test_bt2_not_taken : pcAfter (runWord (small [(5, 0x4000#32)]) 0x000002BD) = some 0x1004#32 := by decide
theorem test_bl1_BL_disp_2 : regAfter 31 (runWord (small []) 0x0000017E) = some (0x00001004#32, 0x1008#32) := by decide
theorem test_bl2_r5_4000 :
    regAfter 31 (runWord (small [(5, 0x4000#32)]) 0x000002BE) =
      some (0x00001004#32, 0x4000#32) := by decide
theorem test_blt1_taken : regAfter 31 (runWord (small [] true) 0x0000017F) = some (0x00001004#32, 0x1008#32) := by decide
theorem test_blt1_not_taken : regAfter 31 (runWord (small []) 0x0000017F) = some (0x00001004#32, 0x1004#32) := by decide
theorem test_blt2_taken :
    regAfter 31 (runWord (small [(5, 0x4000#32)] true) 0x000002BF) =
      some (0x00001004#32, 0x4000#32) := by decide
theorem test_blt2_not_taken :
    regAfter 31 (runWord (small [(5, 0x4000#32)]) 0x000002BF) =
      some (0x00001004#32, 0x1004#32) := by decide
theorem test_udf : faultOf (runWord (small []) 0x00000000) = some (.exception .udf) := by decide
theorem test_syscall : faultOf (runWord (small []) 0x00000001) = some (.exception .sys) := by decide
theorem test_mfs : faultOf (runWord (small []) 0x003000C4) = some (.exception .prv) := by decide
theorem test_mts_r1_5 : faultOf (runWord (small [(1, 0x5#32)]) 0x003000C5) = some (.exception .prv) := by decide

/-- MULF's operands FFFF8000 and 00018000 under a setting of P_MULF_SIGNED (95_test_vectors.md section 2.5). -/
def mulfUnder (m : MulfSign) : Result :=
  runWord (under (fun p => { p with mulfSign := m }) (small [(1, 0xFFFF8000#32), (2, 0x18000#32)])) 0x0044118D

theorem test_mulf_readings :
    regAfter 3 (mulfUnder .signed) = some (0xFFFF4000#32, 0x1004#32) ∧
    regAfter 3 (mulfUnder .unsigned) = some (0x7FFF4000#32, 0x1004#32) ∧
    refusalOf (mulfUnder .absent) = some .mulfSignDependent := by decide

/-- A privileged state under a setting of P_SR. -/
def withSr (k : SysRegs) (s : State) : State := under (fun p => { p with sysRegs := k }) (privileged s)

/-- MFS with privilege: refused with P_SR absent (95_test_vectors.md section 2.9), completing with a draw (10_state.md R30). -/
theorem test_mfs_privileged :
    refusalOf (runWord (withSr .absent (small [])) 0x003000C4) = some (.systemRegisterUnmodelled 3) ∧
    pcAfter (runWord (withSr .draw (small [])) 0x003000C4) = some 0x1004#32 := by decide

/-- MTS with privilege, the same. -/
theorem test_mts_privileged :
    refusalOf (runWord (withSr .absent (small [(1, 5#32)])) 0x003000C5) = some (.systemRegisterUnmodelled 3) ∧
    (match runWord (withSr .draw (small [(1, 5#32)])) 0x003000C5 with
      | .next t => srGet t.sr 3
      | _ => none) = some 5#32 := by decide

/-- IA and the link wrap at the top of the address space (95_test_vectors.md section 2.8). -/
theorem test_bl1_wraps : regAfter 31 (runWord (atPc 0xFFFFFFFC#32 (small [])) 0x0000017E) = some (0#32, 4#32) := by decide

/-- With P_R0_ZERO a write of R0 is ignored and R0 reads as 0 (10_state.md R22). -/
theorem test_r0_zero : regAfter 0 (runWord (under zeroR0 (small [])) 0x00100048) = some (0#32, 0x1004#32) := by decide

/-- Without it R0 is an ordinary register (95_test_vectors.md section 2.1). -/
theorem test_r0_ordinary : regAfter 0 (runWord (small [(0, 0x29#32)]) 0x00100048) = some (0x2A#32, 0x1004#32) := by decide

/-- Writing the value that an unlisted byte reads as removes the entry, so equal memories are equal data. -/
theorem test_memory_canonical : Memory.set (Memory.set (Memory.set [] 5 1#8) 3 2#8) 5 0#8 = [(3, 2#8)] := by decide

/-! ### Witnesses: what meets the hypotheses of each statement of Certificates/Slice0/Obligations.lean -/

theorem witness_DecodeEncodeRoundTrip :
    defaultParams.layout.wf ∧ (Instr.bl2 30).wellFormed = true ∧
    ∀ k, (Instr.bl2 30).bitfieldKind = some k →
      selectBitfield defaultParams.bitfieldSelect (encode defaultParams.layout (.bl2 30)) = some k :=
  ⟨by decide, by decide, fun _ h => nomatch h⟩

/-- The same for a bit-field instruction with every field at an end of its range. -/
theorem witness_DecodeEncodeRoundTrip_bitfield :
    (selecting .ins defaultParams).layout.wf ∧ (Instr.ins 31 0 31 0 31).wellFormed = true ∧
    ∀ k, (Instr.ins 31 0 31 0 31).bitfieldKind = some k →
      selectBitfield (selecting .ins defaultParams).bitfieldSelect
        (encode (selecting .ins defaultParams).layout (.ins 31 0 31 0 31)) = some k :=
  ⟨by decide, by decide, fun _ h => by cases h; decide⟩

theorem witness_AcceptedWordIsCanonical :
    defaultParams.layout.wf ∧ defaultParams.unusedBits = .refuse ∧
    decode defaultParams 0xFFFFFFFF#32 = .instr (.blt1 0x1FFFFFF#25) := by decide

theorem witness_ReservedWords :
    allocated defaultLayout 0x02000008#32 = false ∧ allocated defaultLayout 0x01C00008#32 = true ∧
    allocated (small []).cfg.layout 0x00000002#32 = false := by decide

/-- The three clauses, the last for an instruction and for BL (2) with `rd = 31`. -/
theorem witness_UnusedBitsPolicy :
    defaultParams.layout.wf ∧
    decode { defaultParams with unusedBits := .refuse } 0x0004100E#32 = .instr (.ceq2 1 2) ∧
    decode { defaultParams with unusedBits := .refuse } 0x0004118E#32 = .unusedBitsNonZero ∧
    decode { defaultParams with unusedBits := .refuse } 0x00400FBE#32 = .unusedBitsNonZero := by decide

theorem witness_BitfieldWordsNeedSelector :
    opcodeOf 0x2200208C#32 = 0b0001100#7 ∧ selectBitfield (small []).cfg.bitfieldSelect 0x2200208C#32 = none := by decide

/-- The last word of the address space, ADD R1, R2, #5 in it, and the program's own bytes not stored. -/
def lastWord : State := (atPc 0xFFFFFFFC#32 (small [(2, 7#32)])).loadImage 0xFFFFFFFC#32 [0xC8#8, 0x20#8, 0x50#8, 0x00#8]

theorem witness_StepRunsDecoded :
    lastWord.cfg.endIa ≠ some lastWord.pc ∧ lastWord.pc.toNat % 4 = 0 ∧ lastWord.admitted lastWord.pc 4 .fetch = true ∧
    (lastWord.cfg.smc = .refuse → ∀ k < 4, lastWord.isStored (lastWord.pc + BitVec.ofNat 32 k) = false) ∧
    decode lastWord.cfg (wordAt lastWord lastWord.pc) = .instr (.add1 1 2 5) := by decide

/-- IA at the end of the run; then IA misaligned by one; then aligned and outside the map. -/
theorem witness_StepTestsInOrder_before_fetch :
    (under (fun p => { p with endIa := some 0x1000#32 }) (small [])).cfg.endIa =
      some (under (fun p => { p with endIa := some 0x1000#32 }) (small [])).pc ∧
    ((atPc 0x1001#32 (small [])).cfg.endIa ≠ some (atPc 0x1001#32 (small [])).pc ∧
      (atPc 0x1001#32 (small [])).pc.toNat % 4 ≠ 0) ∧
    ((atPc 0x2000#32 (under tightMap (small []))).pc.toNat % 4 = 0 ∧
      (atPc 0x2000#32 (under tightMap (small []))).admitted 0x2000#32 4 .fetch = false) := by decide

/-- Only the last byte of the word is stored; and the same with P_SMC = coherent. -/
theorem witness_StepTestsInOrder_stored :
    (let s := (small []).setByte 0x1003#32 0#8
     s.admitted s.pc 4 .fetch = true ∧ s.cfg.smc = .refuse ∧ ∃ k < 4, s.isStored (s.pc + BitVec.ofNat 32 k) = true) ∧
    (let s := under (fun p => { p with smc := .coherent }) ((small []).setByte 0x1003#32 0#8)
     ¬(s.cfg.smc = .refuse ∧ ∃ k < 4, s.isStored (s.pc + BitVec.ofNat 32 k) = true)) := by decide

/-- Each answer of the decoder at a word that is fetched. -/
theorem witness_StepTestsInOrder_decoded :
    [0x005020C8, 0x00000002, 0x2200208C, 0x00000080, 0x00000FBE].map
      (fun w => let s := (small []).withFetchWord 32 w; decode s.cfg (wordAt s s.pc)) =
    [.instr (.add1 1 2 5), .reservedEncoding, .bitfieldUndecodable, .unusedBitsNonZero, .linkRegisterAsTarget] := by decide

theorem witness_PlacedWordRuns :
    State.reset.cfg.endIa ≠ some State.reset.pc ∧ State.reset.pc.toNat % 4 = 0 ∧
    State.reset.admitted State.reset.pc 4 .fetch = true ∧
    decode State.reset.cfg (BitVec.ofNat 32 (0x123452F8 % 2 ^ 32)) = .instr (.movh 5 0x12345#20) := by decide

/-- R0 where it is ordinary, and another register where R0 is hard-wired. -/
theorem witness_MovhThenOrBuildsConstant :
    ¬((small []).cfg.r0Zero = true ∧ (0#5 : Reg) = 0#5) ∧
    ¬((under zeroR0 (small [])).cfg.r0Zero = true ∧ (1#5 : Reg) = 0#5) := by decide

/-- A rotate by 0 and one by 31, at the highest bit. -/
theorem witness_ReverseAndRotateFunctions : (31#5 : BitVec 5) ≠ 0#5 ∧ 31 < 32 ∧ ror 0x80000001#32 31#5 = 3#32 := by decide

theorem witness_BitfieldInsert : (small [(3, 5#32)]).reg 2 = 0#32 := by decide

/-- MULF's operands under each setting, with readings that agree and readings that differ. -/
theorem witness_MultiplyFixedPoint :
    (under (fun p => { p with mulfSign := .signed }) (small [])).cfg.mulfSign = .signed ∧
    (under (fun p => { p with mulfSign := .unsigned }) (small [])).cfg.mulfSign = .unsigned ∧
    (small []).cfg.mulfSign = .absent ∧ State.reset.cfg.mulfSign = .unknown ∧
    mulfUnsigned 0x7FFFFFFF#32 0x7FFFFFFF#32 = mulfSigned 0x7FFFFFFF#32 0x7FFFFFFF#32 ∧
    mulfUnsigned 0xFFFF8000#32 0x18000#32 ≠ mulfSigned 0xFFFF8000#32 0x18000#32 := by decide

/-- T set and T clear: SEL, BT and BLT. -/
theorem witness_T : (small [] true).t = true ∧ (small []).t = false := by decide

/-- A byte access at each end of the map, and at the top of the space. -/
theorem witness_LoadByte_StoreByte :
    (let s := under tightMap (small [(2, 0x2000#32), (3, 7#32)])
     s.admitted (s.eaDisp 2 0) 1 .load = true ∧ s.admitted (s.eaIndex 2 3) 1 .load = true ∧
     s.admitted (s.eaDisp 2 0) 1 .store = true ∧ s.admitted (s.eaIndex 2 3) 1 .store = true) ∧
    (small [(2, 0#32)]).admitted ((small [(2, 0#32)]).eaDisp 2 0xFFF#12) 1 .load = true := by decide

/-- A halfword at the last place of the map. -/
theorem witness_LoadHalfword_StoreHalfword :
    let s := under tightMap (small [(2, 0x2000#32), (3, 6#32)])
    Aligned s (s.eaDisp 2 6) 2 ∧ s.admitted (s.eaDisp 2 6) 2 .load = true ∧ s.admitted (s.eaDisp 2 6) 2 .store = true ∧
    Aligned s (s.eaIndex 2 3) 2 ∧ s.admitted (s.eaIndex 2 3) 2 .load = true ∧ s.admitted (s.eaIndex 2 3) 2 .store = true := by
  unfold Aligned; decide

/-- A halfword at an odd address, where the implementation supports it; its last byte is the last of the map. -/
theorem witness_LoadHalfword_StoreHalfword_unaligned :
    let s := under unalignedOk (under tightMap (small [(2, 0x2000#32), (3, 5#32)]))
    Aligned s (s.eaDisp 2 5) 2 ∧ s.admitted (s.eaDisp 2 5) 2 .load = true ∧ s.admitted (s.eaDisp 2 5) 2 .store = true ∧
    Aligned s (s.eaIndex 2 3) 2 ∧ s.admitted (s.eaIndex 2 3) 2 .load = true ∧ s.admitted (s.eaIndex 2 3) 2 .store = true := by
  unfold Aligned; decide

/-- A word at the last place of the map. -/
theorem witness_LoadWord_StoreWord :
    let s := under tightMap (small [(2, 0x2000#32), (3, 4#32)])
    Aligned s (s.eaDisp 2 4) 4 ∧ s.admitted (s.eaDisp 2 4) 4 .load = true ∧ s.admitted (s.eaDisp 2 4) 4 .store = true ∧
    Aligned s (s.eaIndex 2 3) 4 ∧ s.admitted (s.eaIndex 2 3) 4 .load = true ∧ s.admitted (s.eaIndex 2 3) 4 .store = true := by
  unfold Aligned; decide

/-- A word that wraps around the top of the space, where the implementation supports it. -/
theorem witness_LoadWord_StoreWord_unaligned :
    let s := under unalignedOk (small [(2, 0xFFFFFFFF#32), (3, 0#32)])
    Aligned s (s.eaDisp 2 0) 4 ∧ s.admitted (s.eaDisp 2 0) 4 .load = true ∧ s.admitted (s.eaDisp 2 0) 4 .store = true ∧
    Aligned s (s.eaIndex 2 3) 4 ∧ s.admitted (s.eaIndex 2 3) 4 .load = true ∧ s.admitted (s.eaIndex 2 3) 4 .store = true := by
  unfold Aligned; decide

/-- A word store of each form that completes, under each byte order. -/
theorem witness_NarrowReadsAfterWordStore :
    (let s := small [(1, 0x12345678#32), (2, 0x2000#32)]
     Aligned s (s.eaDisp 2 0) 4 ∧ s.cfg.byteOrder = .little ∧ ∃ t, exec (.sw1 1 2 0) s = .next t) ∧
    (let s := under big (small [(1, 0x12345678#32), (2, 0x2004#32), (3, 0xFFFFFFFC#32)])
     Aligned s (s.eaIndex 2 3) 4 ∧ s.cfg.byteOrder = .big ∧ ∃ t, exec (.sw2 1 2 3) s = .next t) :=
  ⟨⟨by unfold Aligned; decide, by decide, _, rfl⟩, by unfold Aligned; decide, by decide, _, rfl⟩

/-- A halfword load at an odd address and word stores one, two and three bytes past a multiple of 4, with and without a
trap function; the address 0x2008 is outside the map, and ALI comes first all the same. -/
theorem witness_MisalignedAccessRaisesAli :
    let s := under tightMap (small [(2, 0x2001#32), (3, 8#32)])
    (Instr.lh1 1 2 0).dataAccess s = some (.load, 2, 0x2001#32) ∧ ¬Aligned s 0x2001#32 2 ∧
    (Instr.sw1 1 2 0).dataAccess s = some (.store, 4, 0x2001#32) ∧ ¬Aligned s 0x2001#32 4 ∧
    (Instr.sw1 1 2 1).dataAccess s = some (.store, 4, 0x2002#32) ∧ ¬Aligned s 0x2002#32 4 ∧
    (Instr.sw2 1 2 3).dataAccess s = some (.store, 4, 0x2009#32) ∧ ¬Aligned s 0x2009#32 4 ∧
    s.cfg.trapSupplied = false ∧ (under trapping s).cfg.trapSupplied = true := by unfold Aligned; decide

/-- The first address past the map, for a load and a store; the program's own bytes are not data. -/
theorem witness_UnadmittedAccessIsStuck :
    let s := under tightMap (small [(2, 0x2000#32), (3, 0x1000#32)])
    (Instr.lb1 1 2 8).dataAccess s = some (.load, 1, 0x2008#32) ∧ Aligned s 0x2008#32 1 ∧ s.admitted 0x2008#32 1 .load = false ∧
    (Instr.sw1 1 2 8).dataAccess s = some (.store, 4, 0x2008#32) ∧ Aligned s 0x2008#32 4 ∧
    s.admitted 0x2008#32 4 .store = false ∧
    (Instr.lw1 1 3 0).dataAccess s = some (.load, 4, 0x1000#32) ∧ Aligned s 0x1000#32 4 ∧
    s.admitted 0x1000#32 4 .load = false := by unfold Aligned; decide

theorem witness_BranchLinkRegister :
    (30#5 : Reg) ≠ 31#5 ∧ (small []).cfg.layout = defaultLayout ∧ (small [] true).t = true ∧ (small []).t = false := by decide

/-- P_TRAP absent and supplied: UDF, SYSCALL, MFS and MTS. -/
theorem witness_trap : (small []).cfg.trapSupplied = false ∧ (under trapping (small [])).cfg.trapSupplied = true := by decide

theorem witness_UnprivilegedMfsMtsRaisePrv : (small []).priv = false := by decide

theorem witness_MfsPrivileged_MtsPrivileged :
    (withSr .absent (small [])).priv = true ∧ (withSr .absent (small [])).cfg.sysRegs = .absent ∧
    (withSr .draw (small [])).priv = true ∧ (withSr .draw (small [])).cfg.sysRegs = .draw ∧
    (withSr .platform (small [])).priv = true ∧ (withSr .platform (small [])).cfg.sysRegs = .platform := by decide

/-- The sizes of the accesses that the reset state admits. -/
theorem witness_ResetValues : (1 : Nat) = 1 ∨ (1 : Nat) = 2 ∨ (1 : Nat) = 4 := by decide

/-- A state with one byte of memory, one stored address and one system register in canonical form, whose step completes. -/
def busy : State :=
  { (withSr .draw (small [(1, 5#32)])).setByte 0x2000#32 1#8 with sr := [(3, 7#32)] }.withFetchWord 32 0x003000C5

theorem witness_StepKeepsCanonical : busy.Inv ∧ ∃ t, step busy = .next t :=
  ⟨⟨by decide, by decide, by decide⟩, _, rfl⟩

theorem witness_StepKeepsPrivilege : busy.sourceOnly ∧ ∃ t, step busy = .next t :=
  ⟨⟨by decide, by decide⟩, _, rfl⟩

/-- A state with privilege whose system registers are drawn. -/
def drawing : State := withSr .draw (small [])

/-- An instruction without and one with the premise on P_SR, and a compare. -/
theorem witness_OnlyComparesWriteT :
    ((Instr.movh 1 0).writesT = false ∧ (Instr.movh 1 0).testsPrivilege = false ∧
      ∃ t, exec (.movh 1 0) drawing = .next t) ∧
    ((Instr.mfs 1 3).writesT = false ∧ drawing.cfg.sysRegs ≠ .platform ∧ ∃ t, exec (.mfs 1 3) drawing = .next t) ∧
    drawing.cfg.trapSupplied = false ∧ (Instr.cle1 1 0).writesT = true :=
  ⟨⟨by decide, by decide, _, rfl⟩, ⟨by decide, by decide, _, rfl⟩, by decide, by decide⟩

theorem witness_OnlyFiveFormsReadT :
    (Instr.ceq2 1 2).readsT = false ∧ (Instr.ceq2 1 2).testsPrivilege = false ∧ (Instr.mts 1 3).readsT = false ∧
    drawing.cfg.trapSupplied = false ∧ drawing.cfg.sysRegs ≠ .platform := by decide

theorem witness_PrivilegeMattersToMfsMtsOnly :
    (Instr.sw1 1 2 0).testsPrivilege = false ∧ (Instr.syscall).testsPrivilege = false ∧
    (small []).cfg.trapSupplied = false := by decide

/-- Each of the four exceptions occurs. -/
theorem witness_ExceptionsComplete :
    (small []).cfg.trapSupplied = false ∧
    faultOf (exec (.lw1 1 2 2) (small [])) = some (.exception (.ali 2#32)) ∧
    faultOf (exec (.mts 1 0xFFF#12) (small [])) = some (.exception .prv) ∧
    faultOf (exec .syscall (small [])) = some (.exception .sys) ∧
    faultOf (exec .udf (small [])) = some (.exception .udf) := by decide

theorem witness_AlignedIaStaysAligned :
    ((small []).sourceOnly ∧ (Instr.b1 0x1FFFFFF#25).jumpsToRegister = false ∧ (small []).pc.toNat % 4 = 0 ∧
      ∃ t, exec (.b1 0x1FFFFFF#25) (small []) = .next t) ∧
    ((atPc 0x1003#32 (small [])).cfg.endIa ≠ some (atPc 0x1003#32 (small [])).pc ∧
      (atPc 0x1003#32 (small [])).pc.toNat % 4 ≠ 0) ∧
    (atPc 0xFFFFFFFC#32 (small [])).pc = 0xFFFFFFFC#32 :=
  ⟨⟨⟨by decide, by decide⟩, by decide, by decide, _, rfl⟩, by decide, by decide⟩

/-- A store that completes: the byte before it and the byte after its last one are outside it. -/
theorem witness_OnlyStoresWriteMemory :
    let s := small [(1, 0x12345678#32), (2, 0x2000#32)]
    s.cfg.trapSupplied = false ∧ (Instr.sw1 1 2 0).dataAccess s = some (.store, 4, 0x2000#32) ∧
    4 ≤ (0x1FFF#32 - 0x2000#32 : Word).toNat ∧ 4 ≤ (0x2004#32 - 0x2000#32 : Word).toNat ∧
    ∃ t, exec (.sw1 1 2 0) s = .next t :=
  ⟨by decide, by decide, by decide, by decide, _, rfl⟩

end Sys2Proof.Tests
end

/-! What a step that answers a next state has done: it has executed an instruction, and the state it answers comes from a
fixed set of updates. Rules over every step are read off `update_of_step_next` by cases on the update. -/

namespace Sys2Proof.Machine

/-- The one way to a next state through the tests of 70_reset_and_hazards.md R265: the word at IA decodes to an instruction
and that instruction completes. -/
theorem exec_of_step_next {s t : State} (h : step s = .next t) :
    ∃ i, decode s.cfg s.fetchWord = .instr i ∧ exec i s = .next t := by
  have hrun : runDecoded s.fetchWord s = .next t := by
    unfold step stepInstr at h
    split_ifs at h
    exact h
  unfold runDecoded at hrun
  split at hrun
  case h_1 i hdecode => exact ⟨i, hdecode, hrun⟩
  all_goals simp at hrun

theorem raise_next {x : Exc} {s t : State} (h : raise x s = .next t) :
    s.cfg.trapSupplied = true ∧ t = s.enterTrap x := by
  rcases raise_cases x s with ⟨_, hr⟩ | ⟨htrap, hr⟩ <;> rw [hr] at h
  · simp at h
  · exact ⟨htrap, (Host.Outcome.next.inj h).symm⟩

theorem execMfs_next {rd : Reg} {n : Imm12} {s t : State} (h : execMfs rd n s = .next t) :
    (∃ v s', srRead n s = some (v, s') ∧ t = (s'.setReg rd v).advance) ∨ raise .prv s = .next t := by
  unfold execMfs at h
  split at h
  · split at h
    · next v s' hread => exact .inl ⟨v, s', hread, (Host.Outcome.next.inj h).symm⟩
    · simp at h
  · exact .inr h

theorem execMts_next {rd : Reg} {n : Imm12} {s t : State} (h : execMts rd n s = .next t) :
    srWriteAdvance n (s.reg rd) s = some t ∨ raise .prv s = .next t := by
  unfold execMts at h
  split at h
  · split at h
    · next hwrite => exact .inl (hwrite.trans (congrArg some (Host.Outcome.next.inj h)))
    · simp at h
  · exact .inr h

/-- The updates that lead from `s` to the next state of an instruction: IA moved after at most a register, T, the link or
memory was written, a trap entered, or what an access to a system register leaves. -/
inductive Update (i : Instr) (s : State) : State → Prop
  | reg (rd : Reg) (v : Word) : Update i s (s.setReg rd v).advance
  | flag (b : Bool) (hT : i.writesT = true) : Update i s (s.setT b).advance
  | jump (a : Word) : Update i s (s.setPc a)
  | link (a : Word) : Update i s (s.link.setPc a)
  | store (n : Nat) (rd : Reg) (a : Word) (hacc : i.dataAccess s = some (.store, n, a)) :
      Update i s (s.memWrite a n (s.reg rd)).advance
  | trap (x : Exc) (htrap : s.cfg.trapSupplied = true) : Update i s (s.enterTrap x)
  | mfs (rd : Reg) (n : Imm12) (v : Word) (s' : State) (hi : i = .mfs rd n) (hread : srRead n s = some (v, s')) :
      Update i s (s'.setReg rd v).advance
  | mts (rd : Reg) (n : Imm12) (t : State) (hi : i = .mts rd n) (hwrite : srWriteAdvance n (s.reg rd) s = some t) :
      Update i s t

theorem update_of_raise_next (i : Instr) {x : Exc} {s t : State} (h : raise x s = .next t) : Update i s t := by
  obtain ⟨htrap, rfl⟩ := raise_next h
  exact .trap x htrap

theorem update_of_branchTo (i : Instr) {taken : Bool} {target : Word} {s t : State}
    (h : branchTo taken target s = .next t) : Update i s t := by
  cases h
  cases taken
  · exact .jump (s.pc + 4#32)
  · exact .jump target

theorem update_of_branchLink (i : Instr) {taken : Bool} {target : Word} {s t : State}
    (h : branchLink taken target s = .next t) : Update i s t := by
  cases h
  cases taken
  · exact .link (s.link.pc + 4#32)
  · exact .link target

theorem update_of_loadReg (i : Instr) {n : Nat} {widen : Word → Word} {rd : Reg} {a : Word} {s t : State}
    (h : loadReg n widen rd a s = .next t) : Update i s t := by
  rcases loadReg_cases n widen rd a s with ⟨_, _, he⟩ | ⟨_, _, he⟩ | ⟨_, he⟩ <;> rw [he] at h
  · cases h
    exact .reg rd _
  · simp at h
  · exact update_of_raise_next i h

theorem update_of_storeReg {i : Instr} {n : Nat} {rd : Reg} {a : Word} {s t : State}
    (hacc : i.dataAccess s = some (.store, n, a)) (h : storeReg n rd a s = .next t) : Update i s t := by
  rcases storeReg_cases n rd a s with ⟨_, _, he⟩ | ⟨_, _, he⟩ | ⟨_, he⟩ <;> rw [he] at h
  · cases h
    exact .store n rd a hacc
  · simp at h
  · exact update_of_raise_next i h

theorem update_of_execMfs {rd : Reg} {n : Imm12} {s t : State} (h : execMfs rd n s = .next t) :
    Update (.mfs rd n) s t := by
  rcases execMfs_next h with ⟨v, s', hread, rfl⟩ | hraise
  · exact .mfs rd n v s' rfl hread
  · exact update_of_raise_next _ hraise

theorem update_of_execMts {rd : Reg} {n : Imm12} {s t : State} (h : execMts rd n s = .next t) :
    Update (.mts rd n) s t := by
  rcases execMts_next h with hwrite | hraise
  · exact .mts rd n t rfl hwrite
  · exact update_of_raise_next _ hraise

/-- An instruction leads to a next state by one of the updates only. -/
theorem update_of_exec_next {i : Instr} {s t : State} (h : exec i s = .next t) : Update i s t := by
  rcases exec_cases i s with ⟨rd, v, he⟩ | ⟨hT, b, he⟩ | ⟨_, _, he⟩ | ⟨_, _, he⟩ | ⟨_, _, _, _, _, he⟩ |
    ⟨_, _, _, hacc, he⟩ | he | he | ⟨_, he⟩ | ⟨_, he⟩ | ⟨rd, n, rfl⟩ | ⟨rd, n, rfl⟩
  on_goal 11 => exact update_of_execMfs h
  on_goal 11 => exact update_of_execMts h
  all_goals rw [he] at h
  · cases h
    exact .reg rd v
  · cases h
    exact .flag b hT
  · exact update_of_branchTo i h
  · exact update_of_branchLink i h
  · exact update_of_loadReg i h
  · exact update_of_storeReg hacc h
  · simp at h
  · simp at h
  · exact update_of_raise_next i h
  · exact update_of_raise_next i h

/-- A step leads to a next state by an update of the instruction it has fetched. -/
theorem update_of_step_next {s t : State} (h : step s = .next t) :
    ∃ i, decode s.cfg s.fetchWord = .instr i ∧ Update i s t := by
  obtain ⟨i, hdecode, hexec⟩ := exec_of_step_next h
  exact ⟨i, hdecode, update_of_exec_next hexec⟩

/-! ### The parameters (00_scope.md R5) -/

@[simp] theorem State.memWrite_cfg (s : State) (a : Word) (n : Nat) (v : Word) : (s.memWrite a n v).cfg = s.cfg := by
  obtain ⟨_, _, _, _, _, _, hcfg⟩ := State.memWrite_same s a n v
  exact hcfg

@[simp] theorem State.setSrs_cfg (s : State) (l : List (Imm12 × Word)) : (s.setSrs l).cfg = s.cfg := by
  obtain ⟨_, _, _, _, _, _, _, hcfg⟩ := State.setSrs_same s l
  exact hcfg

@[simp] theorem State.setBytes_cfg (s : State) (l : List (Word × Byte)) : (s.setBytes l).cfg = s.cfg := by
  obtain ⟨_, _, _, _, _, _, hcfg⟩ := State.setBytes_same s l
  exact hcfg

@[simp] theorem State.enterTrap_cfg (s : State) (x : Exc) : (s.enterTrap x).cfg = s.cfg := by
  simp [State.enterTrap]

@[simp] theorem State.applySr_cfg (s : State) (e : SrEffect) : (s.applySr e).cfg = s.cfg := by
  simp [State.applySr]

theorem srRead_cfg {n : Imm12} {v : Word} {s s' : State} (h : srRead n s = some (v, s')) : s'.cfg = s.cfg := by
  rcases srRead_cases n s with ⟨_, he⟩ | ⟨_, he⟩ | ⟨_, _, e, _, he⟩ <;> rw [he] at h
  · simp at h
  · cases h
    rfl
  · cases h
    exact State.applySr_cfg s e

theorem srWriteAdvance_cfg {n : Imm12} {v : Word} {s t : State} (h : srWriteAdvance n v s = some t) :
    t.cfg = s.cfg := by
  rcases srWriteAdvance_cases n v s with ⟨_, he⟩ | ⟨_, he⟩ | ⟨_, e, _, _, he⟩ <;> rw [he] at h
  · simp at h
  · cases h
    rfl
  · cases h
    exact State.applySr_cfg s e

theorem Update.cfg_eq {i : Instr} {s t : State} (h : Update i s t) : t.cfg = s.cfg := by
  cases h with
  | reg rd v => simp
  | flag b _ => simp
  | jump a => simp
  | link a => simp
  | store n rd a _ => simp
  | trap x _ => simp
  | mfs rd n v s' _ hread => simpa using srRead_cfg hread
  | mts rd n _ _ hwrite => exact srWriteAdvance_cfg hwrite

/-- Settles O52: no update of an instruction touches the parameters. -/
theorem stepKeepsParameters : Obligations.StepKeepsParameters := by
  intro s t h
  obtain ⟨_, _, hupdate⟩ := update_of_step_next h
  exact hupdate.cfg_eq

end Sys2Proof.Machine

/-! The canonical forms (10_state.md R36): no update of an instruction loses them, and reset has them. -/

namespace Sys2Proof.Machine

theorem State.inv_link {s : State} (h : s.Inv) : s.link.Inv := State.inv_setReg h linkReg _

theorem srRead_inv {n : Imm12} {v : Word} {s s' : State} (h : s.Inv) (hread : srRead n s = some (v, s')) : s'.Inv := by
  rcases srRead_cases n s with ⟨_, he⟩ | ⟨_, he⟩ | ⟨_, _, e, _, he⟩ <;> rw [he] at hread
  · simp at hread
  · cases hread
    exact State.inv_congr h rfl rfl rfl
  · cases hread
    exact State.inv_applySr h e

theorem srWriteAdvance_inv {n : Imm12} {v : Word} {s t : State} (h : s.Inv)
    (hwrite : srWriteAdvance n v s = some t) : t.Inv := by
  rcases srWriteAdvance_cases n v s with ⟨_, he⟩ | ⟨_, he⟩ | ⟨_, e, resume, _, he⟩ <;> rw [he] at hwrite
  · simp at hwrite
  · cases hwrite
    obtain ⟨hmem, hstored, hsr⟩ := h
    exact ⟨hmem, hstored, srWfFrom_srSet s.sr v hsr (Nat.zero_le _) n.isLt⟩
  · cases hwrite
    exact State.inv_setPc (State.inv_applySr h e) _

theorem Update.inv {i : Instr} {s t : State} (hupdate : Update i s t) (h : s.Inv) : t.Inv := by
  cases hupdate with
  | reg rd v => exact State.inv_advance (State.inv_setReg h rd v)
  | flag b _ => exact State.inv_advance (State.inv_setT h b)
  | jump a => exact State.inv_setPc h a
  | link a => exact State.inv_setPc (State.inv_link h) a
  | store n rd a _ => exact State.inv_advance (State.inv_memWrite h a n (s.reg rd))
  | trap x _ => exact State.inv_enterTrap h x
  | mfs rd n v s' _ hread => exact State.inv_advance (State.inv_setReg (srRead_inv h hread) rd v)
  | mts rd n _ _ hwrite => exact srWriteAdvance_inv h hwrite

/-- Settles O51: a step is an update of the instruction it fetched, and every update keeps the canonical forms. -/
theorem stepKeepsCanonical : Obligations.StepKeepsCanonical := by
  intro s t h hstep
  obtain ⟨_, _, hupdate⟩ := update_of_step_next hstep
  exact hupdate.inv h

/-- Settles O50: the three stores of the reset state are empty. -/
theorem resetCanonical : Obligations.ResetCanonical :=
  ⟨rfl, rfl, rfl⟩

/-! ### What the state after reset answers -/

theorem reset_reg (r : Reg) : State.reset.reg r = 0#32 := by
  unfold State.reg
  split
  · rfl
  · exact Vector.getElem_replicate _

/-- The one row of the memory map at reset covers every address and lists every size of an access. -/
theorem memMapAdmits_wholeSpace (a : Word) {n : Nat} (k : AccessKind) (hn : n = 1 ∨ n = 2 ∨ n = 4) :
    memMapAdmits [wholeSpace] a n k = true := by
  have hsize : n ∈ sizesFor wholeSpace k := by
    cases k <;> simpa [sizesFor, wholeSpace] using hn
  have hbase : wholeSpace.base = 0 := rfl
  have hspan : wholeSpace.size = 2 ^ 32 := rfl
  simpa [memMapAdmits, hsize, hbase, hspan] using a.isLt

theorem reset_admitted (a : Word) {n : Nat} (k : AccessKind) (hn : n = 1 ∨ n = 2 ∨ n = 4) :
    State.reset.admitted a n k = true :=
  (State.admitted_iff State.reset a n k).mpr
    ⟨memMapAdmits_wholeSpace a k hn, .inr fun _ _ => memMapAdmits_wholeSpace _ k (.inl rfl)⟩

theorem defaultLayout_wf : defaultLayout.wf := by decide

/-- Settles O49: each field of the reset state is the launch value of the model's choice. -/
theorem resetValues : Obligations.ResetValues :=
  ⟨rfl, reset_reg, rfl, rfl, fun _ => ⟨rfl, rfl⟩, fun _ => rfl, rfl, fun a _ k => reset_admitted a k, rfl, rfl,
    defaultLayout_wf, rfl, rfl, rfl, rfl, rfl, rfl, rfl, rfl, rfl, rfl, rfl, rfl⟩

end Sys2Proof.Machine

/-! The T bit (10_state.md R27): which instructions write it, and which read it. -/

namespace Sys2Proof.Machine

/-! ### What leaves T as it is -/

@[simp] theorem State.memWrite_t (s : State) (a : Word) (n : Nat) (v : Word) : (s.memWrite a n v).t = s.t := by
  obtain ⟨_, _, ht, _⟩ := State.memWrite_same s a n v
  exact ht

theorem srRead_t {n : Imm12} {v : Word} {s s' : State} (hsr : s.cfg.sysRegs ≠ .platform)
    (h : srRead n s = some (v, s')) : s'.t = s.t := by
  rcases srRead_cases n s with ⟨_, he⟩ | ⟨_, he⟩ | ⟨hplatform, _⟩
  · simp [he] at h
  · rw [he] at h
    cases h
    rfl
  · exact absurd hplatform hsr

theorem srWriteAdvance_t {n : Imm12} {v : Word} {s t : State} (hsr : s.cfg.sysRegs ≠ .platform)
    (h : srWriteAdvance n v s = some t) : t.t = s.t := by
  rcases srWriteAdvance_cases n v s with ⟨_, he⟩ | ⟨_, he⟩ | ⟨hplatform, _⟩
  · simp [he] at h
  · rw [he] at h
    cases h
    rfl
  · exact absurd hplatform hsr

theorem Update.t_eq {i : Instr} {s t : State} (h : Update i s t) (hwrites : i.writesT = false)
    (htrap : s.cfg.trapSupplied = false) (hsr : i.testsPrivilege = true → s.cfg.sysRegs ≠ .platform) :
    t.t = s.t := by
  cases h with
  | reg rd v => simp
  | flag b hT => simp [hT] at hwrites
  | jump a => simp
  | link a => simp
  | store n rd a _ => simp
  | trap x hsupplied => simp [hsupplied] at htrap
  | mfs rd n v s' hi hread =>
    subst hi
    simpa using srRead_t (hsr rfl) hread
  | mts rd n _ hi hwrite =>
    subst hi
    exact srWriteAdvance_t (hsr rfl) hwrite

/-- A compare computes the new T from the registers, and overwrites the old one. -/
theorem exec_setT_of_writesT {i : Instr} (s : State) (b : Bool) (h : i.writesT = true) :
    exec i (s.setT b) = exec i s := by
  cases i
  case ceq1 | ceq2 | cne1 | cne2 | chi1 | chi2 | cls1 | cls2 | cgt1 | cgt2 | cle1 | cle2 => rfl
  all_goals cases h

/-- Settles O54: the only update of a non-compare that can touch T is a trap entry or a platform's system register. -/
theorem onlyComparesWriteT : Obligations.OnlyComparesWriteT :=
  ⟨fun _ _ _ hwrites htrap hsr hexec => (update_of_exec_next hexec).t_eq hwrites htrap hsr,
    fun _ s b hwrites => exec_setT_of_writesT s b hwrites⟩

/-! ### The shape of an instruction, whatever the state -/

/-- `f` does not look at T. -/
def IgnoresT {α : Type} (f : State → α) : Prop := ∀ (s : State) (b : Bool), f (s.setT b) = f s

/-- The shared shape that gives `i` its meaning in every state (`exec_cases` says it of one state), with what its
operands take from the state: whether they look at T, and where a branch leads. -/
inductive Form (i : Instr) : Prop
  | reg (rd : Reg) (v : State → Word) (hexec : ∀ s, exec i s = writeReg rd (v s) s)
      (hT : i.readsT = false → IgnoresT v)
  | flag (holds : State → Bool) (hexec : ∀ s, exec i s = writeT (holds s) s) (hi : i.writesT = true)
  | branch (taken : State → Bool) (target : State → Word)
      (hexec : ∀ s, exec i s = branchTo (taken s) (target s) s)
      (hT : i.readsT = false → IgnoresT taken) (htarget : IgnoresT target)
      (hrel : i.jumpsToRegister = false → ∃ disp, ∀ s, target s = s.relTarget disp)
  | link (taken : State → Bool) (target : State → Word)
      (hexec : ∀ s, exec i s = branchLink (taken s) (target s) s)
      (hT : i.readsT = false → IgnoresT taken) (htarget : IgnoresT target)
      (hrel : i.jumpsToRegister = false → ∃ disp, ∀ s, target s = s.relTarget disp)
  | load (n : Nat) (widen : Word → Word) (rd : Reg) (a : State → Word)
      (hexec : ∀ s, exec i s = loadReg n widen rd (a s) s) (ha : IgnoresT a)
  | store (n : Nat) (rd : Reg) (a : State → Word) (hexec : ∀ s, exec i s = storeReg n rd (a s) s) (ha : IgnoresT a)
  | refuses (r : Refusal) (hexec : ∀ s, exec i s = .refused r)
  | raises (x : Exc) (hexec : ∀ s, exec i s = raise x s)
  | mulf (rd ra rb : Reg) (hi : i = .mulf rd ra rb)
  | mfs (rd : Reg) (n : Imm12) (hi : i = .mfs rd n)
  | mts (rd : Reg) (n : Imm12) (hi : i = .mts rd n)

/-- Every instruction has one of the shapes, the same one in every state. -/
theorem form_of (i : Instr) : Form i := by
  cases i
  case sel => exact .reg _ _ (fun _ => rfl) nofun
  case ceq1 | ceq2 | cne1 | cne2 | chi1 | chi2 | cls1 | cls2 | cgt1 | cgt2 | cle1 | cle2 =>
    exact .flag _ (fun _ => rfl) rfl
  case b1 disp => exact .branch _ _ (fun _ => rfl) (fun _ _ _ => rfl) (fun _ _ => rfl) fun _ => ⟨disp, fun _ => rfl⟩
  case bt1 disp => exact .branch _ _ (fun _ => rfl) nofun (fun _ _ => rfl) fun _ => ⟨disp, fun _ => rfl⟩
  case b2 => exact .branch _ _ (fun _ => rfl) (fun _ _ _ => rfl) (fun _ _ => rfl) nofun
  case bt2 => exact .branch _ _ (fun _ => rfl) nofun (fun _ _ => rfl) nofun
  case bl1 disp => exact .link _ _ (fun _ => rfl) (fun _ _ _ => rfl) (fun _ _ => rfl) fun _ => ⟨disp, fun _ => rfl⟩
  case blt1 disp => exact .link _ _ (fun _ => rfl) nofun (fun _ _ => rfl) fun _ => ⟨disp, fun _ => rfl⟩
  case bl2 rd =>
    by_cases hrd : rd = linkReg
    · exact .refuses _ fun _ => if_pos hrd
    · exact .link _ _ (fun _ => if_neg hrd) (fun _ _ _ => rfl) (fun _ _ => rfl) nofun
  case blt2 rd =>
    by_cases hrd : rd = linkReg
    · exact .refuses _ fun _ => if_pos hrd
    · exact .link _ _ (fun _ => if_neg hrd) nofun (fun _ _ => rfl) nofun
  case lb1 | lb2 | lbs1 | lbs2 | lh1 | lh2 | lhs1 | lhs2 | lw1 | lw2 =>
    exact .load _ _ _ _ (fun _ => rfl) fun _ _ => rfl
  case sb1 | sb2 | sh1 | sh2 | sw1 | sw2 => exact .store _ _ _ (fun _ => rfl) fun _ _ => rfl
  case udf | syscall => exact .raises _ fun _ => rfl
  case mulf rd ra rb => exact .mulf rd ra rb rfl
  case mfs rd n => exact .mfs rd n rfl
  case mts rd n => exact .mts rd n rfl
  all_goals exact .reg _ _ (fun _ => rfl) fun _ _ _ => rfl

/-! ### Setting T commutes with what does not look at it -/

@[simp] theorem State.setT_setT (s : State) (b c : Bool) : (s.setT b).setT c = s.setT c := rfl

@[simp] theorem State.setT_self (s : State) : s.setT s.t = s := rfl

@[simp] theorem State.advance_setT (s : State) (b : Bool) : (s.setT b).advance = s.advance.setT b := rfl

@[simp] theorem State.setPc_setT (s : State) (b : Bool) (a : Word) : (s.setT b).setPc a = (s.setPc a).setT b := rfl

@[simp] theorem State.setReg_setT (s : State) (b : Bool) (i : Reg) (v : Word) :
    (s.setT b).setReg i v = (s.setReg i v).setT b := by
  unfold State.setReg
  by_cases hzero : (s.cfg.r0Zero && i == 0#5) = true
  · rw [if_pos hzero]
    exact if_pos hzero
  · rw [if_neg hzero]
    exact if_neg hzero

@[simp] theorem State.link_setT (s : State) (b : Bool) : (s.setT b).link = s.link.setT b :=
  State.setReg_setT ..

@[simp] theorem State.aligned_setT (s : State) (b : Bool) (a : Word) (n : Nat) :
    (s.setT b).aligned a n = s.aligned a n := rfl

@[simp] theorem State.admitted_setT (s : State) (b : Bool) (a : Word) (n : Nat) (k : AccessKind) :
    (s.setT b).admitted a n k = s.admitted a n k := rfl

@[simp] theorem State.memRead_setT (s : State) (b : Bool) (a : Word) (n : Nat) :
    (s.setT b).memRead a n = s.memRead a n :=
  State.memRead_congr (s := s) (t := s.setT b) rfl rfl a n

theorem State.storeBytes_setT (s : State) (b : Bool) (a : Word) (bs : List Byte) :
    (s.setT b).storeBytes a bs = (s.storeBytes a bs).setT b := by
  induction bs generalizing s a with
  | nil => rfl
  | cons c bs ih => exact ih (s.setByte a c) (a + 1#32)

@[simp] theorem State.memWrite_setT (s : State) (b : Bool) (a : Word) (n : Nat) (v : Word) :
    (s.setT b).memWrite a n v = (s.memWrite a n v).setT b :=
  State.storeBytes_setT ..

/-- The outcome with `f` applied to the state that it answers. -/
def mapNext (f : State → State) : Result → Result
  | .next t => .next (f t)
  | .fault r => .fault r
  | .refused r => .refused r

@[simp] theorem mapNext_next (f : State → State) (t : State) : mapNext f (.next t) = .next (f t) := rfl
@[simp] theorem mapNext_fault (f : State → State) (r : Fault) : mapNext f (.fault r) = .fault r := rfl
@[simp] theorem mapNext_refused (f : State → State) (r : Refusal) : mapNext f (.refused r) = .refused r := rfl

theorem writeReg_setT (rd : Reg) (v : Word) (s : State) (b : Bool) :
    writeReg rd v (s.setT b) = mapNext (·.setT b) (writeReg rd v s) := by
  simp [writeReg]

theorem branchTo_setT (taken : Bool) (target : Word) (s : State) (b : Bool) :
    branchTo taken target (s.setT b) = mapNext (·.setT b) (branchTo taken target s) := by
  cases taken <;> simp [branchTo]

theorem branchLink_setT (taken : Bool) (target : Word) (s : State) (b : Bool) :
    branchLink taken target (s.setT b) = mapNext (·.setT b) (branchLink taken target s) := by
  simp [branchLink, branchTo_setT]

/-- With `P_TRAP` absent a raise answers no state (60_exceptions.md R236), whatever T is. -/
theorem raise_setT (x : Exc) {s : State} (b : Bool) (htrap : s.cfg.trapSupplied = false) :
    raise x (s.setT b) = mapNext (·.setT b) (raise x s) := by
  simp [raise, htrap]

theorem loadReg_setT (n : Nat) (widen : Word → Word) (rd : Reg) (a : Word) {s : State} (b : Bool)
    (htrap : s.cfg.trapSupplied = false) :
    loadReg n widen rd a (s.setT b) = mapNext (·.setT b) (loadReg n widen rd a s) := by
  rcases loadReg_cases n widen rd a s with ⟨ha, hm, he⟩ | ⟨ha, hm, he⟩ | ⟨ha, he⟩ <;> rw [he]
  · simp [loadReg, ha, hm, writeReg_setT]
  · simp [loadReg, ha, hm]
  · simp [loadReg, ha, raise_setT _ b htrap]

theorem storeReg_setT (n : Nat) (rd : Reg) (a : Word) {s : State} (b : Bool) (htrap : s.cfg.trapSupplied = false) :
    storeReg n rd a (s.setT b) = mapNext (·.setT b) (storeReg n rd a s) := by
  rcases storeReg_cases n rd a s with ⟨ha, hm, he⟩ | ⟨ha, hm, he⟩ | ⟨ha, he⟩ <;> rw [he]
  · simp [storeReg, ha, hm]
  · simp [storeReg, ha, hm]
  · simp [storeReg, ha, raise_setT _ b htrap]

theorem execMulf_setT (rd ra rb : Reg) (s : State) (b : Bool) :
    execMulf rd ra rb (s.setT b) = mapNext (·.setT b) (execMulf rd ra rb s) := by
  simp only [execMulf, State.setT_cfg, State.reg_setT]
  split
  · exact writeReg_setT ..
  · rfl

theorem srRead_setT (n : Imm12) {s : State} (b : Bool) (hsr : s.cfg.sysRegs ≠ .platform) :
    srRead n (s.setT b) = (srRead n s).map fun r => (r.1, r.2.setT b) := by
  unfold srRead
  rcases h : s.cfg.sysRegs with _ | _ | _
  · simp [h]
  · simp only [State.setT_cfg, h]
    rfl
  · exact absurd h hsr

theorem srWriteAdvance_setT (n : Imm12) (v : Word) {s : State} (b : Bool) (hsr : s.cfg.sysRegs ≠ .platform) :
    srWriteAdvance n v (s.setT b) = (srWriteAdvance n v s).map (·.setT b) := by
  unfold srWriteAdvance
  rcases h : s.cfg.sysRegs with _ | _ | _
  · simp [h]
  · simp only [State.setT_cfg, h]
    rfl
  · exact absurd h hsr

theorem execMfs_setT (rd : Reg) (n : Imm12) {s : State} (b : Bool) (htrap : s.cfg.trapSupplied = false)
    (hsr : s.cfg.sysRegs ≠ .platform) :
    execMfs rd n (s.setT b) = mapNext (·.setT b) (execMfs rd n s) := by
  unfold execMfs
  rw [State.setT_priv, srRead_setT n b hsr]
  split
  · rcases srRead n s with _ | ⟨v, s'⟩
    · rfl
    · exact writeReg_setT rd v s' b
  · exact raise_setT .prv b htrap

theorem execMts_setT (rd : Reg) (n : Imm12) {s : State} (b : Bool) (htrap : s.cfg.trapSupplied = false)
    (hsr : s.cfg.sysRegs ≠ .platform) :
    execMts rd n (s.setT b) = mapNext (·.setT b) (execMts rd n s) := by
  unfold execMts
  rw [State.setT_priv, State.reg_setT, srWriteAdvance_setT n _ b hsr]
  split
  · cases srWriteAdvance n (s.reg rd) s <;> rfl
  · exact raise_setT .prv b htrap

/-- An instruction that neither reads nor writes T carries it along. -/
theorem exec_setT_of_ignoresT {i : Instr} {s : State} (b : Bool) (hreads : i.readsT = false)
    (hwrites : i.writesT = false) (htrap : s.cfg.trapSupplied = false)
    (hsr : i.testsPrivilege = true → s.cfg.sysRegs ≠ .platform) :
    exec i (s.setT b) = mapNext (·.setT b) (exec i s) := by
  cases form_of i with
  | reg rd v hexec hT => rw [hexec, hexec, hT hreads, writeReg_setT]
  | flag holds _ hi => simp [hi] at hwrites
  | branch taken target hexec hT htarget _ => rw [hexec, hexec, hT hreads, htarget, branchTo_setT]
  | link taken target hexec hT htarget _ => rw [hexec, hexec, hT hreads, htarget, branchLink_setT]
  | load n widen rd a hexec ha => rw [hexec, hexec, ha, loadReg_setT _ _ _ _ b htrap]
  | store n rd a hexec ha => rw [hexec, hexec, ha, storeReg_setT _ _ _ b htrap]
  | refuses r hexec => rw [hexec, hexec, mapNext_refused]
  | raises x hexec => rw [hexec, hexec, raise_setT x b htrap]
  | mulf rd ra rb hi =>
    subst hi
    exact execMulf_setT rd ra rb s b
  | mfs rd n hi =>
    subst hi
    exact execMfs_setT rd n b htrap (hsr rfl)
  | mts rd n hi =>
    subst hi
    exact execMts_setT rd n b htrap (hsr rfl)

/-- Settles O55: a compare forgets the old T, and every other instruction that does not read T carries it along. -/
theorem onlyFiveFormsReadT : Obligations.OnlyFiveFormsReadT := by
  intro i s b hreads htrap hsr
  cases hwrites : i.writesT with
  | true =>
    rw [exec_setT_of_writesT s b hwrites]
    cases exec i s <;> rfl
  | false =>
    rw [exec_setT_of_ignoresT b hreads hwrites htrap hsr]
    cases exec i s <;> rfl

end Sys2Proof.Machine

/-! IA (10_state.md R24, R25): where an instruction leads, and that it stays a multiple of 4. -/

namespace Sys2Proof.Machine

theorem pc_of_writeReg {rd : Reg} {v : Word} {s t : State} (h : writeReg rd v s = .next t) : t.pc = s.pc + 4#32 := by
  cases h
  simp

theorem pc_of_writeT {b : Bool} {s t : State} (h : writeT b s = .next t) : t.pc = s.pc + 4#32 := by
  cases h
  simp

theorem pc_of_branchTo {taken : Bool} {target : Word} {s t : State} (h : branchTo taken target s = .next t) :
    t.pc = s.pc + 4#32 ∨ t.pc = target := by
  cases h
  cases taken <;> simp

theorem pc_of_branchLink {taken : Bool} {target : Word} {s t : State} (h : branchLink taken target s = .next t) :
    t.pc = s.pc + 4#32 ∨ t.pc = target := by
  simpa using pc_of_branchTo h

theorem raise_ne_next {x : Exc} {s t : State} (htrap : s.cfg.trapSupplied = false) : raise x s ≠ .next t := by
  simp [raise, htrap]

theorem pc_of_loadReg {n : Nat} {widen : Word → Word} {rd : Reg} {a : Word} {s t : State}
    (htrap : s.cfg.trapSupplied = false) (h : loadReg n widen rd a s = .next t) : t.pc = s.pc + 4#32 := by
  rcases loadReg_cases n widen rd a s with ⟨_, _, he⟩ | ⟨_, _, he⟩ | ⟨_, he⟩ <;> rw [he] at h
  · exact pc_of_writeReg h
  · cases h
  · exact absurd h (raise_ne_next htrap)

@[simp] theorem State.memWrite_pc (s : State) (a : Word) (n : Nat) (v : Word) : (s.memWrite a n v).pc = s.pc := by
  obtain ⟨_, hpc, _⟩ := State.memWrite_same s a n v
  exact hpc

theorem pc_of_storeReg {n : Nat} {rd : Reg} {a : Word} {s t : State}
    (htrap : s.cfg.trapSupplied = false) (h : storeReg n rd a s = .next t) : t.pc = s.pc + 4#32 := by
  rcases storeReg_cases n rd a s with ⟨_, _, he⟩ | ⟨_, _, he⟩ | ⟨_, he⟩ <;> rw [he] at h
  · cases h
    simp
  · cases h
  · exact absurd h (raise_ne_next htrap)

theorem pc_of_execMulf {rd ra rb : Reg} {s t : State} (h : execMulf rd ra rb s = .next t) : t.pc = s.pc + 4#32 := by
  unfold execMulf at h
  split at h
  · exact pc_of_writeReg h
  · cases h

theorem pc_of_execMfs {rd : Reg} {n : Imm12} {s t : State} (htrap : s.cfg.trapSupplied = false)
    (h : execMfs rd n s = .next t) : t.pc = s.pc + 4#32 := by
  rcases execMfs_next h with ⟨v, s', hread, rfl⟩ | hraise
  · rcases srRead_cases n s with ⟨_, he⟩ | ⟨_, he⟩ | ⟨_, _, e, _, he⟩ <;> rw [he] at hread <;> cases hread
    · simp
    · obtain ⟨_, hpc, _⟩ := State.applySr_fields s e
      simp [hpc]
  · exact absurd hraise (raise_ne_next htrap)

theorem pc_of_execMts {rd : Reg} {n : Imm12} {s t : State} (hsrc : s.sourceOnly)
    (h : execMts rd n s = .next t) : t.pc = s.pc + 4#32 := by
  obtain ⟨htrap, hsr⟩ := hsrc
  rcases execMts_next h with hwrite | hraise
  · rcases srWriteAdvance_cases n (s.reg rd) s with ⟨_, he⟩ | ⟨_, he⟩ | ⟨hplatform, _⟩
    · simp [he] at hwrite
    · rw [he] at hwrite
      cases hwrite
      rfl
    · exact absurd hplatform hsr
  · exact absurd hraise (raise_ne_next htrap)

/-- An instruction that is no register branch leads to the next instruction or to a format-D target. -/
theorem pc_of_exec_next {i : Instr} {s t : State} (hsrc : s.sourceOnly) (hjump : i.jumpsToRegister = false)
    (h : exec i s = .next t) : t.pc = s.pc + 4#32 ∨ ∃ disp, t.pc = s.relTarget disp := by
  have htrap : s.cfg.trapSupplied = false := hsrc.1
  cases form_of i with
  | reg rd v hexec _ => exact .inl (pc_of_writeReg (hexec s ▸ h))
  | flag holds hexec _ => exact .inl (pc_of_writeT (hexec s ▸ h))
  | branch taken target hexec _ _ hrel =>
    obtain ⟨disp, htarget⟩ := hrel hjump
    exact (pc_of_branchTo (hexec s ▸ h)).imp_right fun hpc => ⟨disp, hpc.trans (htarget s)⟩
  | link taken target hexec _ _ hrel =>
    obtain ⟨disp, htarget⟩ := hrel hjump
    exact (pc_of_branchLink (hexec s ▸ h)).imp_right fun hpc => ⟨disp, hpc.trans (htarget s)⟩
  | load n widen rd a hexec _ => exact .inl (pc_of_loadReg htrap (hexec s ▸ h))
  | store n rd a hexec _ => exact .inl (pc_of_storeReg htrap (hexec s ▸ h))
  | refuses r hexec => simp [hexec] at h
  | raises x hexec => exact absurd (hexec s ▸ h) (raise_ne_next htrap)
  | mulf rd ra rb hi =>
    subst hi
    exact .inl (pc_of_execMulf h)
  | mfs rd n hi =>
    subst hi
    exact .inl (pc_of_execMfs htrap h)
  | mts rd n hi =>
    subst hi
    exact .inl (pc_of_execMts hsrc h)

theorem add_four_aligned {a : Word} (h : a.toNat % 4 = 0) : (a + 4#32).toNat % 4 = 0 := by
  rw [BitVec.toNat_add, BitVec.toNat_ofNat]
  omega

theorem branchOffset_aligned (disp : Disp25) : (branchOffset disp).toNat % 4 = 0 := by
  rw [branchOffset, BitVec.toNat_shiftLeft, Nat.shiftLeft_eq]
  omega

theorem relTarget_aligned {s : State} (disp : Disp25) (h : s.pc.toNat % 4 = 0) :
    (s.relTarget disp).toNat % 4 = 0 := by
  have hoffset := branchOffset_aligned disp
  rw [State.relTarget, BitVec.toNat_add]
  omega

/-- The fetch's alignment test comes before everything but the end of the run (70_reset_and_hazards.md R265). -/
theorem step_of_misaligned {s : State} (hend : s.cfg.endIa ≠ some s.pc) (h : s.pc.toNat % 4 ≠ 0) :
    step s = .fault (.misalignedFetch s.pc) := by
  have hlow : s.pc.extractLsb' 0 2 ≠ 0#2 := fun hzero => h ((lowBits_zero_iff s.pc).mp hzero)
  rw [step, stepInstr, if_neg hend, if_pos hlow]

/-- Settles O58: IA moves by 4 or by a format-D offset, both multiples of 4, and the wrap is at one too. -/
theorem alignedIaStaysAligned : Obligations.AlignedIaStaysAligned := by
  refine ⟨fun i s t hsrc hjump haligned hexec => ?_, fun s => step_of_misaligned, fun s hpc => ?_⟩
  · rcases pc_of_exec_next hsrc hjump hexec with hnext | ⟨disp, hrel⟩
    · rw [hnext]
      exact add_four_aligned haligned
    · rw [hrel]
      exact relTarget_aligned disp haligned
  · have hmovh : exec (.movh 1 0) s = .next (s.setReg 1 (highImm 0)).advance := rfl
    exact ⟨_, hmovh, by simp [hpc]⟩

end Sys2Proof.Machine

/-! Memory (20_memory.md): which instructions write it, what is read back from a stored word, and what a data access does
where its address is misaligned or `P_MEMMAP` does not admit it. -/

namespace Sys2Proof.Machine

/-! ### What leaves memory as it is -/

/-- Reading a byte depends on the list of memory bytes only. -/
theorem State.byte_congr {s t : State} (h : t.mem = s.mem) (b : Word) : t.byte b = s.byte b :=
  congrArg (Memory.get · b.toNat) h

theorem srRead_mem {n : Imm12} {v : Word} {s s' : State} (h : srRead n s = some (v, s')) : s'.mem = s.mem := by
  rcases srRead_cases n s with ⟨_, he⟩ | ⟨_, he⟩ | ⟨_, _, e, _, he⟩ <;> rw [he] at h <;> cases h
  · rfl
  · obtain ⟨_, _, _, _, hmem, _⟩ := State.applySr_fields s e
    exact hmem

theorem srWriteAdvance_mem {n : Imm12} {v : Word} {s t : State} (h : srWriteAdvance n v s = some t) :
    t.mem = s.mem := by
  rcases srWriteAdvance_cases n v s with ⟨_, he⟩ | ⟨_, he⟩ | ⟨_, e, _, _, he⟩ <;> rw [he] at h <;> cases h
  · rfl
  · obtain ⟨_, _, _, _, hmem, _⟩ := State.applySr_fields s e
    exact hmem

/-- `MemWrite` leaves every byte outside the `n` bytes from `a` on. The premise bounds `n` by the address space. -/
theorem State.byte_memWrite_of_outside (s : State) {a b : Word} {n : Nat} (v : Word) (h : n ≤ (b - a).toNat) :
    (s.memWrite a n v).byte b = s.byte b := by
  have hn : n ≤ 2 ^ 32 := h.trans (b - a).isLt.le
  obtain ⟨hbyte, _⟩ := State.memWrite_written s a n v hn b
  rw [hbyte, if_neg (Nat.not_lt.mpr h)]

theorem Update.byte_eq {i : Instr} {s t : State} (hupdate : Update i s t) (htrap : s.cfg.trapSupplied = false)
    {b : Word} (hout : ∀ n a, i.dataAccess s = some (.store, n, a) → n ≤ (b - a).toNat) : t.byte b = s.byte b := by
  cases hupdate with
  | reg rd v => simp
  | flag c _ => simp
  | jump a => simp
  | link a => simp
  | store n rd a hacc =>
    rw [State.byte_advance]
    exact State.byte_memWrite_of_outside s _ (hout n a hacc)
  | trap x hsupplied => simp [hsupplied] at htrap
  | mfs rd n v s' _ hread =>
    rw [State.byte_advance, State.byte_setReg]
    exact State.byte_congr (srRead_mem hread) b
  | mts rd n _ _ hwrite => exact State.byte_congr (srWriteAdvance_mem hwrite) b

/-- Settles O59: of the updates an instruction can make, only a store's writes memory where no trap is entered, and it
writes inside its access only. -/
theorem onlyStoresWriteMemory : Obligations.OnlyStoresWriteMemory :=
  fun _ _ _ htrap hexec _ hout => (update_of_exec_next hexec).byte_eq htrap hout

/-! ### What is read back from a stored word (20_memory.md R42) -/

theorem MemWritten.byte_add {s t : State} {a v : Word} {n k : Nat} (h : MemWritten s t a n v) (hk : k < n)
    (hspace : k < 2 ^ 32) : t.byte (a + BitVec.ofNat 32 k) = laidByte s.cfg.byteOrder n v k := by
  have hdist : (a + BitVec.ofNat 32 k - a).toNat = k := by
    rw [BitVec.add_comm, BitVec.add_sub_cancel, BitVec.toNat_ofNat, Nat.mod_eq_of_lt hspace]
  obtain ⟨hbyte, _⟩ := h (a + BitVec.ofNat 32 k)
  rw [hbyte, hdist, if_pos hk]

theorem MemWritten.byte_self {s t : State} {a v : Word} {n : Nat} (h : MemWritten s t a n v) (hn : 0 < n) :
    t.byte a = laidByte s.cfg.byteOrder n v 0 := by
  simpa using h.byte_add hn (by decide)

theorem append_bytes_eq (v : Word) :
    v.extractLsb' 24 8 ++ v.extractLsb' 16 8 ++ v.extractLsb' 8 8 ++ v.extractLsb' 0 8 = v := by
  have htop : v.extractLsb' 24 8 ++ v.extractLsb' 16 8 = v.extractLsb' 16 16 :=
    BitVec.extractLsb'_append_extractLsb'_eq_extractLsb' rfl
  have hmid : v.extractLsb' 16 16 ++ v.extractLsb' 8 8 = v.extractLsb' 8 24 :=
    BitVec.extractLsb'_append_extractLsb'_eq_extractLsb' rfl
  have hall : v.extractLsb' 8 24 ++ v.extractLsb' 0 8 = v.extractLsb' 0 32 :=
    BitVec.extractLsb'_append_extractLsb'_eq_extractLsb' rfl
  rw [htop, hmid, hall]
  exact BitVec.extractLsb'_eq_self

/-- A written word reads back, whatever the byte order. -/
theorem MemWritten.wordAt_eq {s t : State} {a v : Word} (h : MemWritten s t a 4 v) (hcfg : t.cfg = s.cfg) :
    wordAt t a = v := by
  rw [wordAt, hcfg, h.byte_self (by decide), h.byte_add (k := 1) (by decide) (by decide),
    h.byte_add (k := 2) (by decide) (by decide), h.byte_add (k := 3) (by decide) (by decide)]
  cases s.cfg.byteOrder <;> exact append_bytes_eq v

/-- The halfword at the address of a written word is the half that the byte order puts first. -/
theorem MemWritten.halfAt_eq {s t : State} {a v : Word} (h : MemWritten s t a 4 v) (hcfg : t.cfg = s.cfg) :
    (s.cfg.byteOrder = .little → halfAt t a = v.extractLsb' 0 16) ∧
    (s.cfg.byteOrder = .big → halfAt t a = v.extractLsb' 16 16) := by
  rw [halfAt, hcfg, h.byte_self (by decide), h.byte_add (k := 1) (by decide) (by decide)]
  constructor <;> intro ho <;> rw [ho] <;> exact BitVec.extractLsb'_append_extractLsb'_eq_extractLsb' rfl

/-- A store at an address that passes the alignment test raises nothing, so it completes by writing its bytes. -/
theorem storeReg_next {n : Nat} {rd : Reg} {a : Word} {s t : State} (hn : n ≤ 2 ^ 32) (ha : Aligned s a n)
    (h : storeReg n rd a s = .next t) : MemWritten s t a n (s.reg rd) ∧ t.cfg = s.cfg := by
  have haligned : s.aligned a n = true := (State.aligned_iff s a n).mpr ha
  have hadmitted : s.admitted a n .store = true := by
    rcases storeReg_cases n rd a s with ⟨_, hm, _⟩ | ⟨_, _, he⟩ | ⟨hmis, _⟩
    · exact hm
    · rw [he] at h
      cases h
    · simp [haligned] at hmis
  obtain ⟨u, hu, hwritten, _, _, _, _, _, _, hcfg⟩ := storeReg_stores n rd a s hn haligned hadmitted
  obtain rfl : u = t := Host.Outcome.next.inj (hu.symm.trans h)
  exact ⟨hwritten, hcfg⟩

/-- Settles O37: the store has written the four bytes of v, and each read is of those at its own address. -/
theorem narrowReadsAfterWordStore : Obligations.NarrowReadsAfterWordStore := by
  rintro s t rd rs ra rb imm a v rfl ha hform
  have hstore : storeReg 4 rd a s = .next t := by
    rcases hform with ⟨rfl, hexec⟩ | ⟨rfl, hexec⟩ <;> exact hexec
  obtain ⟨hwritten, hcfg⟩ := storeReg_next (by decide) ha hstore
  obtain ⟨hlittle, hbig⟩ := hwritten.halfAt_eq hcfg
  have hbyte := hwritten.byte_self (by decide)
  refine ⟨hwritten.wordAt_eq hcfg, fun ho => ⟨hlittle ho, ?_⟩, fun ho => ⟨hbig ho, ?_⟩⟩ <;> rw [hbyte, ho] <;> rfl

/-! ### The sixteen loads and stores (45_load_store.md R190) -/

/-- An instruction with a data access is the load or the store of that size at that address. -/
theorem exec_of_dataAccess {i : Instr} {s : State} {k : AccessKind} {n : Nat} {a : Word}
    (h : i.dataAccess s = some (k, n, a)) :
    (k = .load ∧ ∃ widen rd, exec i s = loadReg n widen rd a s) ∨
    (k = .store ∧ ∃ rd, exec i s = storeReg n rd a s) := by
  cases i <;> cases h
  case lb1 | lb2 | lbs1 | lbs2 | lh1 | lh2 | lhs1 | lhs2 | lw1 | lw2 => exact .inl ⟨rfl, _, _, rfl⟩
  case sb1 | sb2 | sh1 | sh2 | sw1 | sw2 => exact .inr ⟨rfl, _, rfl⟩

/-- The alignment test comes first (20_memory.md R44): a misaligned access raises ALI without a look at `P_MEMMAP`. -/
theorem exec_of_misaligned {i : Instr} {s : State} {k : AccessKind} {n : Nat} {a : Word}
    (h : i.dataAccess s = some (k, n, a)) (ha : ¬Aligned s a n) : exec i s = raise (.ali a) s := by
  rw [← State.aligned_iff] at ha
  rcases exec_of_dataAccess h with ⟨_, widen, rd, he⟩ | ⟨_, rd, he⟩ <;> rw [he]
  · rw [loadReg, if_neg ha]
  · rw [storeReg, if_neg ha]

/-- Settles O38: whatever its kind, a misaligned access is the raise of ALI. -/
theorem misalignedAccessRaisesAli : Obligations.MisalignedAccessRaisesAli := by
  intro s i k n a hacc ha
  rw [exec_of_misaligned hacc ha]
  exact raise_raises (.ali a) s

theorem exec_of_unadmitted {i : Instr} {s : State} {k : AccessKind} {n : Nat} {a : Word}
    (h : i.dataAccess s = some (k, n, a)) (ha : Aligned s a n) (hm : s.admitted a n k = false) :
    exec i s = .fault (.stuck k n a) := by
  rw [← State.aligned_iff] at ha
  have hnot : ¬s.admitted a n k = true := Bool.eq_false_iff.mp hm
  rcases exec_of_dataAccess h with ⟨rfl, widen, rd, he⟩ | ⟨rfl, rd, he⟩ <;> rw [he]
  · rw [loadReg, if_pos ha, if_neg hnot]
  · rw [storeReg, if_pos ha, if_neg hnot]

/-- Settles O39: admission is what the model computes, and both shapes of a data access stop where it fails. -/
theorem unadmittedAccessIsStuck : Obligations.UnadmittedAccessIsStuck :=
  ⟨State.admitted_iff, fun _ _ _ _ _ => exec_of_unadmitted⟩

/-! ### Effective addresses (20_memory.md R47) -/

theorem State.eaDisp_eq (s : State) (rs : Reg) (imm : Imm12) :
    s.eaDisp rs imm = BitVec.ofInt 32 ((s.reg rs).toNat + imm.toInt) :=
  calc s.eaDisp rs imm = s.reg rs + BitVec.ofInt 32 imm.toInt := rfl
    _ = BitVec.ofInt 32 ((s.reg rs).toNat + imm.toInt) := by
      rw [BitVec.ofInt_add, BitVec.ofInt_natCast, BitVec.ofNat_toNat, BitVec.setWidth_eq]

theorem State.eaIndex_eq (s : State) (ra rb : Reg) :
    s.eaIndex ra rb = BitVec.ofNat 32 ((s.reg ra).toNat + (s.reg rb).toNat) := by
  rw [State.eaIndex, BitVec.ofNat_add, BitVec.ofNat_toNat, BitVec.ofNat_toNat, BitVec.setWidth_eq, BitVec.setWidth_eq]

/-- Settles O30: reduction modulo 2^32 distributes over the two sums. -/
theorem effectiveAddresses : Obligations.EffectiveAddresses :=
  fun s rs ra rb imm => ⟨State.eaDisp_eq s rs imm, State.eaIndex_eq s ra rb⟩

end Sys2Proof.Machine

/-! Encoding (30_encoding.md): a word and the fields that a well-formed layout reads from it determine each other. -/

namespace Sys2Proof

/-! ### The fields of formats I and R cover the word (R65, R66) -/

theorem card_bitVec (n : Nat) : Fintype.card (BitVec n) = 2 ^ n :=
  FinEnum.card_eq_fintypeCard.symm.trans (FinEnum.card_bitVec n)

/-- The opcode, `rd`, `rs`, `sec3` and `imm` of format I. -/
abbrev FieldsI := BitVec 7 × Reg × Reg × BitVec 3 × Imm12

/-- The opcode, `rd`, `ra`, `rb` and `sec10` of format R. -/
abbrev FieldsR := BitVec 7 × Reg × Reg × Reg × BitVec 10

/-- The fields that a layout reads from a word in format I (R65). -/
def readI (l : Layout) (w : Word) : FieldsI := (opcodeOf w, iRdOf l w, iRsOf l w, sec3Of l w, immOf l w)

/-- The word of format I with the given fields (R65). -/
def writeI (l : Layout) : FieldsI → Word
  | (op, rd, rs, sec, imm) => packI l op rd rs sec imm

/-- The fields that a layout reads from a word in format R (R66). -/
def readR (l : Layout) (w : Word) : FieldsR := (opcodeOf w, rRdOf l w, rRaOf l w, rRbOf l w, sec10Of l w)

/-- The word of format R with the given fields (R66). -/
def writeR (l : Layout) : FieldsR → Word
  | (op, rd, ra, rb, sec) => packR l op rd ra rb sec

section
variable {l : Layout} (h : l.wf)
include h

theorem fields_packI (op : BitVec 7) (rd rs : Reg) (sec : BitVec 3) (imm : Imm12) :
    opcodeOf (packI l op rd rs sec imm) = op ∧ iRdOf l (packI l op rd rs sec imm) = rd ∧
      iRsOf l (packI l op rd rs sec imm) = rs ∧ sec3Of l (packI l op rd rs sec imm) = sec ∧
      immOf l (packI l op rd rs sec imm) = imm :=
  ⟨opcodeOf_packI h .., iRdOf_packI h .., iRsOf_packI h .., sec3Of_packI h .., immOf_packI h ..⟩

theorem fields_packR (op : BitVec 7) (rd ra rb : Reg) (sec : BitVec 10) :
    opcodeOf (packR l op rd ra rb sec) = op ∧ rRdOf l (packR l op rd ra rb sec) = rd ∧
      rRaOf l (packR l op rd ra rb sec) = ra ∧ rRbOf l (packR l op rd ra rb sec) = rb ∧
      sec10Of l (packR l op rd ra rb sec) = sec :=
  ⟨opcodeOf_packR h .., rRdOf_packR h .., rRaOf_packR h .., rRbOf_packR h .., sec10Of_packR h ..⟩

theorem readI_writeI : Function.LeftInverse (readI l) (writeI l) := by
  rintro ⟨op, rd, rs, sec, imm⟩
  simp [readI, writeI, fields_packI h]

theorem readR_writeR : Function.LeftInverse (readR l) (writeR l) := by
  rintro ⟨op, rd, ra, rb, sec⟩
  simp [readR, writeR, fields_packR h]

/-- Reading inverts writing, and there are as many words as tuples of fields: so writing inverts reading, whatever the
places of the fields are. -/
theorem writeI_readI (w : Word) : writeI l (readI l w) = w :=
  (readI_writeI h).rightInverse_of_card_le (by simp [card_bitVec]) w

theorem writeR_readR (w : Word) : writeR l (readR l w) = w :=
  (readR_writeR h).rightInverse_of_card_le (by simp [card_bitVec]) w

theorem packI_eq_iff {op : BitVec 7} {rd rs : Reg} {sec : BitVec 3} {imm : Imm12} {w : Word} :
    packI l op rd rs sec imm = w ↔
      opcodeOf w = op ∧ iRdOf l w = rd ∧ iRsOf l w = rs ∧ sec3Of l w = sec ∧ immOf l w = imm := by
  constructor
  · rintro rfl
    exact fields_packI h op rd rs sec imm
  · rintro ⟨rfl, rfl, rfl, rfl, rfl⟩
    exact writeI_readI h w

theorem packR_eq_iff {op : BitVec 7} {rd ra rb : Reg} {sec : BitVec 10} {w : Word} :
    packR l op rd ra rb sec = w ↔
      opcodeOf w = op ∧ rRdOf l w = rd ∧ rRaOf l w = ra ∧ rRbOf l w = rb ∧ sec10Of l w = sec := by
  constructor
  · rintro rfl
    exact fields_packR h op rd ra rb sec
  · rintro ⟨rfl, rfl, rfl, rfl, rfl⟩
    exact writeR_readR h w

end

/-! ### Formats L and D cover the word (R63, R64) -/

theorem packL_fields {op : BitVec 7} {w : Word} (hop : opcodeOf w = op) : packL op (lRdOf w) (limmOf w) = w := by
  have hlow : w.extractLsb' 12 20 ++ w.extractLsb' 7 5 = w.extractLsb' 7 25 :=
    BitVec.extractLsb'_append_extractLsb'_eq_extractLsb' rfl
  have hall : w.extractLsb' 7 25 ++ w.extractLsb' 0 7 = w.extractLsb' 0 32 :=
    BitVec.extractLsb'_append_extractLsb'_eq_extractLsb' rfl
  rw [← hop, packL, limmOf, lRdOf, opcodeOf, hlow, hall]
  exact BitVec.extractLsb'_eq_self

theorem packD_fields {op : BitVec 7} {w : Word} (hop : opcodeOf w = op) : packD op (dispOf w) = w := by
  have hall : w.extractLsb' 7 25 ++ w.extractLsb' 0 7 = w.extractLsb' 0 32 :=
    BitVec.extractLsb'_append_extractLsb'_eq_extractLsb' rfl
  rw [← hop, packD, dispOf, opcodeOf, hall]
  exact BitVec.extractLsb'_eq_self

/-- `size` and `shift` are the two halves of `secopc` (R66). -/
theorem bfShiftOf_append_bfSizeOf (l : Layout) (w : Word) : bfShiftOf l w ++ bfSizeOf l w = sec10Of l w := by
  have hall : (sec10Of l w).extractLsb' 5 5 ++ (sec10Of l w).extractLsb' 0 5 = (sec10Of l w).extractLsb' 0 10 :=
    BitVec.extractLsb'_append_extractLsb'_eq_extractLsb' rfl
  rw [bfShiftOf, bfSizeOf, hall]
  exact BitVec.extractLsb'_eq_self

end Sys2Proof

/-! What the decoder can answer (R81), each answer with everything that leads to it. -/

namespace Sys2Proof

/-! ### The test of the unused fields (R76) -/

@[simp] theorem accept_true (p : Params) (i : Instr) : accept p true i = .instr i := by
  unfold accept
  split
  · contradiction
  · rfl

theorem acceptLink_true (p : Params) (i : Instr) {rd : Reg} (hrd : rd ≠ 31#5) : acceptLink p true rd i = .instr i := by
  unfold acceptLink
  split
  · contradiction
  · exact if_neg hrd

/-- The answers of the decoder to `w`, and what each says of `w` under the parameters `p`. -/
inductive Reading (p : Params) (w : Word) : Decoded → Prop
  | instr (i : Instr) (hwf : i.wellFormed = true)
      (hselect : ∀ k, i.bitfieldKind = some k → selectBitfield p.bitfieldSelect w = some k)
      (halloc : allocated p.layout w = true)
      (hcanon : p.layout.wf → p.unusedBits = .refuse → encode p.layout i = w) : Reading p w (.instr i)
  | unusedBits (hrefuse : p.unusedBits = .refuse) (halloc : allocated p.layout w = true) :
      Reading p w .unusedBitsNonZero
  | link (halloc : allocated p.layout w = true) : Reading p w .linkRegisterAsTarget
  | reserved (hfree : allocated p.layout w = false) : Reading p w .reservedEncoding
  | bitfield (hop : opcodeOf w = 0b0001100#7) (hselect : selectBitfield p.bitfieldSelect w = none)
      (halloc : allocated p.layout w = true) : Reading p w .bitfieldUndecodable

section
variable {p : Params} {w : Word} {i : Instr}

/-- An instruction whose word has no unused field is read as it stands. -/
theorem Reading.whole (hwf : i.wellFormed = true)
    (hselect : ∀ k, i.bitfieldKind = some k → selectBitfield p.bitfieldSelect w = some k)
    (halloc : allocated p.layout w = true)
    (hcanon : p.layout.wf → encode p.layout i = w) : Reading p w (.instr i) :=
  .instr i hwf hselect halloc fun h _ => hcanon h

/-- With `refuse` the test has seen that the unused fields are zero, as they are in the canonical word. -/
theorem Reading.accept {unusedZero : Bool} (hwf : i.wellFormed = true)
    (hselect : ∀ k, i.bitfieldKind = some k → selectBitfield p.bitfieldSelect w = some k)
    (halloc : allocated p.layout w = true)
    (hcanon : p.layout.wf → unusedZero = true → encode p.layout i = w) : Reading p w (accept p unusedZero i) := by
  unfold Sys2Proof.accept
  split
  · next hrefuse => exact .unusedBits hrefuse halloc
  · next hnot => exact .instr i hwf hselect halloc fun h hrefuse => hcanon h (by simpa [hrefuse] using hnot)

/-- R31 as the target is refused, so the premise on the operands asks for another register. -/
theorem Reading.acceptLink {unusedZero : Bool} {rd : Reg} (hwf : rd ≠ 31#5 → i.wellFormed = true)
    (hselect : ∀ k, i.bitfieldKind = some k → selectBitfield p.bitfieldSelect w = some k)
    (halloc : allocated p.layout w = true)
    (hcanon : p.layout.wf → unusedZero = true → encode p.layout i = w) :
    Reading p w (acceptLink p unusedZero rd i) := by
  unfold Sys2Proof.acceptLink
  split
  · next hrefuse => exact .unusedBits hrefuse halloc
  · next hnot =>
    split
    · exact .link halloc
    · next hrd =>
      exact .instr i (hwf hrd) hselect halloc fun h hrefuse => hcanon h (by simpa [hrefuse] using hnot)

end

/-! ### One lemma per group of R74 -/

section
variable (p : Params) {w : Word}

theorem reading_aluImm (hop : opcodeOf w = 0b1001000#7) : Reading p w (decodeAluImm p.layout w) := by
  unfold decodeAluImm
  split
  case h_7 => exact .reserved (by simp_all [allocated])
  all_goals
    next hsec =>
    exact .whole rfl nofun (by simp [allocated, hop, hsec]) fun h =>
      (packI_eq_iff h).mpr ⟨hop, rfl, rfl, BitVec.eq_of_toNat_eq hsec, rfl⟩

/-- NEG and MOVN alone in this group have an unused field, `ra` (R75). -/
theorem reading_aluReg (hop : opcodeOf w = 0b0001000#7) : Reading p w (decodeAluReg p w) := by
  simp only [decodeAluReg]
  split
  case h_9 => exact .reserved (by simp_all [allocated]; omega)
  case h_3 | h_4 =>
    next hsec =>
    exact .accept rfl nofun (by simp [allocated, hop, hsec]) fun h hra =>
      (packR_eq_iff h).mpr ⟨hop, rfl, beq_iff_eq.mp hra, rfl, BitVec.eq_of_toNat_eq hsec⟩
  all_goals
    next hsec =>
    exact .whole rfl nofun (by simp [allocated, hop, hsec]) fun h =>
      (packR_eq_iff h).mpr ⟨hop, rfl, rfl, rfl, BitVec.eq_of_toNat_eq hsec⟩

theorem reading_unary (hop : opcodeOf w = 0b1001001#7) : Reading p w (decodeUnary p w) := by
  simp only [decodeUnary]
  split
  case h_6 => exact .reserved (by simp_all [allocated])
  all_goals
    next hsec =>
    exact .accept rfl nofun (by simp [allocated, hop, hsec]) fun h himm =>
      (packI_eq_iff h).mpr ⟨hop, rfl, rfl, BitVec.eq_of_toNat_eq hsec, beq_iff_eq.mp himm⟩

theorem reading_clip (hop : opcodeOf w = 0b1001010#7) : Reading p w (decodeClip p w) := by
  simp only [decodeClip]
  split
  case h_5 => exact .reserved (by simp_all [allocated])
  all_goals
    next hsec =>
    exact .accept rfl nofun (by simp [allocated, hop, hsec]) fun h himm =>
      (packI_eq_iff h).mpr ⟨hop, rfl, rfl, BitVec.eq_of_toNat_eq hsec, beq_iff_eq.mp himm⟩

theorem decodeBitfield_of_none (hselect : selectBitfield p.bitfieldSelect w = none) :
    decodeBitfield p w = .bitfieldUndecodable := by
  simp only [decodeBitfield, hselect]

/-- Here `secopc` holds two operands, and the selector has named the instruction (R67). -/
theorem reading_bitfield (hop : opcodeOf w = 0b0001100#7) : Reading p w (decodeBitfield p w) := by
  have halloc : allocated p.layout w = true := by simp [allocated, hop]
  have hsec := (bfShiftOf_append_bfSizeOf p.layout w).symm
  simp only [decodeBitfield]
  split
  case h_1 hselect => exact .bitfield hop hselect halloc
  case h_2 hselect | h_3 hselect =>
    exact .accept rfl (fun _ hk => hselect.trans hk) halloc fun h hrb =>
      (packR_eq_iff h).mpr ⟨hop, rfl, rfl, beq_iff_eq.mp hrb, hsec⟩
  case h_4 hselect =>
    exact .whole rfl (fun _ hk => hselect.trans hk) halloc fun h =>
      (packR_eq_iff h).mpr ⟨hop, rfl, rfl, rfl, hsec⟩
  case h_5 hselect =>
    exact .accept rfl (fun _ hk => hselect.trans hk) halloc fun h hra =>
      (packR_eq_iff h).mpr ⟨hop, rfl, beq_iff_eq.mp hra, rfl, hsec⟩

theorem reading_multiply (hop : opcodeOf w = 0b0001101#7) : Reading p w (decodeMultiply p.layout w) := by
  unfold decodeMultiply
  split
  case h_4 => exact .reserved (by simp_all [allocated]; omega)
  all_goals
    next hsec =>
    exact .whole rfl nofun (by simp [allocated, hop, hsec]) fun h =>
      (packR_eq_iff h).mpr ⟨hop, rfl, rfl, rfl, BitVec.eq_of_toNat_eq hsec⟩

theorem reading_compareImm (hop : opcodeOf w = 0b1001110#7) : Reading p w (decodeCompareImm p w) := by
  simp only [decodeCompareImm]
  split
  case h_7 => exact .reserved (by simp_all [allocated])
  all_goals
    next hsec =>
    exact .accept rfl nofun (by simp [allocated, hop, hsec]) fun h hrd =>
      (packI_eq_iff h).mpr ⟨hop, beq_iff_eq.mp hrd, rfl, BitVec.eq_of_toNat_eq hsec, rfl⟩

theorem reading_compareReg (hop : opcodeOf w = 0b0001110#7) : Reading p w (decodeCompareReg p w) := by
  simp only [decodeCompareReg]
  split
  case h_7 => exact .reserved (by simp_all [allocated])
  all_goals
    next hsec =>
    exact .accept rfl nofun (by simp [allocated, hop, hsec]) fun h hrd =>
      (packR_eq_iff h).mpr ⟨hop, beq_iff_eq.mp hrd, rfl, rfl, BitVec.eq_of_toNat_eq hsec⟩

theorem reading_loadImm (hop : opcodeOf w = 0b1010000#7) : Reading p w (decodeLoadImm p.layout w) := by
  unfold decodeLoadImm
  split
  case h_6 => exact .reserved (by simp_all [allocated])
  all_goals
    next hsec =>
    exact .whole rfl nofun (by simp [allocated, hop, hsec]) fun h =>
      (packI_eq_iff h).mpr ⟨hop, rfl, rfl, BitVec.eq_of_toNat_eq hsec, rfl⟩

theorem reading_loadReg (hop : opcodeOf w = 0b0010000#7) : Reading p w (decodeLoadReg p.layout w) := by
  unfold decodeLoadReg
  split
  case h_6 => exact .reserved (by simp_all [allocated])
  all_goals
    next hsec =>
    exact .whole rfl nofun (by simp [allocated, hop, hsec]) fun h =>
      (packR_eq_iff h).mpr ⟨hop, rfl, rfl, rfl, BitVec.eq_of_toNat_eq hsec⟩

theorem reading_storeImm (hop : opcodeOf w = 0b1010001#7) : Reading p w (decodeStoreImm p.layout w) := by
  unfold decodeStoreImm
  split
  case h_4 => exact .reserved (by simp_all [allocated])
  all_goals
    next hsec =>
    exact .whole rfl nofun (by simp [allocated, hop, hsec]) fun h =>
      (packI_eq_iff h).mpr ⟨hop, rfl, rfl, BitVec.eq_of_toNat_eq hsec, rfl⟩

theorem reading_storeReg (hop : opcodeOf w = 0b0010001#7) : Reading p w (decodeStoreReg p.layout w) := by
  unfold decodeStoreReg
  split
  case h_4 => exact .reserved (by simp_all [allocated])
  all_goals
    next hsec =>
    exact .whole rfl nofun (by simp [allocated, hop, hsec]) fun h =>
      (packR_eq_iff h).mpr ⟨hop, rfl, rfl, rfl, BitVec.eq_of_toNat_eq hsec⟩

end

end Sys2Proof

/-! Every answer of the decoder, by primary opcode (R73). -/

namespace Sys2Proof

theorem upperRFieldsZero_iff (l : Layout) (w : Word) :
    upperRFieldsZero l w = true ↔ rRaOf l w = 0#5 ∧ rRbOf l w = 0#5 ∧ sec10Of l w = 0#10 := by
  simp [upperRFieldsZero, and_assoc]

/-- The inversion of the decoder: its answer comes with everything that leads to it. -/
theorem reading (p : Params) (w : Word) : Reading p w (decode p w) := by
  simp only [decode]
  split
  case h_1 | h_2 => -- UDF, SYSCALL
    next hop =>
    refine .accept rfl nofun (by simp [allocated, hop]) fun h hz => ?_
    simp only [Bool.and_eq_true, beq_iff_eq, upperRFieldsZero_iff] at hz
    exact (packR_eq_iff h).mpr ⟨BitVec.eq_of_toNat_eq hop, hz⟩
  case h_3 hop => exact reading_aluReg p (BitVec.eq_of_toNat_eq hop)
  case h_4 | h_8 => -- ROR (2), SEL
    next hop =>
    exact .accept rfl nofun (by simp [allocated, hop]) fun h hz =>
      (packR_eq_iff h).mpr ⟨BitVec.eq_of_toNat_eq hop, rfl, rfl, rfl, beq_iff_eq.mp hz⟩
  case h_5 hop => exact reading_bitfield p (BitVec.eq_of_toNat_eq hop)
  case h_6 hop => exact reading_multiply p (BitVec.eq_of_toNat_eq hop)
  case h_7 hop => exact reading_compareReg p (BitVec.eq_of_toNat_eq hop)
  case h_9 hop => exact reading_loadReg p (BitVec.eq_of_toNat_eq hop)
  case h_10 hop => exact reading_storeReg p (BitVec.eq_of_toNat_eq hop)
  case h_11 | h_12 => -- B (2), BT (2)
    next hop =>
    exact .accept rfl nofun (by simp [allocated, hop]) fun h hz =>
      (packR_eq_iff h).mpr ⟨BitVec.eq_of_toNat_eq hop, rfl, (upperRFieldsZero_iff p.layout w).mp hz⟩
  case h_13 | h_14 => -- BL (2), BLT (2)
    next hop =>
    exact .acceptLink bne_iff_ne.mpr nofun (by simp [allocated, hop]) fun h hz =>
      (packR_eq_iff h).mpr ⟨BitVec.eq_of_toNat_eq hop, rfl, (upperRFieldsZero_iff p.layout w).mp hz⟩
  case h_15 | h_16 => -- MFS, MTS
    next hop =>
    refine .accept rfl nofun (by simp [allocated, hop]) fun h hz => ?_
    obtain ⟨hrs, hsec⟩ : iRsOf p.layout w = 0#5 ∧ sec3Of p.layout w = 0#3 := by simpa using hz
    exact (packI_eq_iff h).mpr ⟨BitVec.eq_of_toNat_eq hop, rfl, hrs, hsec, rfl⟩
  case h_17 hop => exact reading_aluImm p (BitVec.eq_of_toNat_eq hop)
  case h_18 hop => exact reading_unary p (BitVec.eq_of_toNat_eq hop)
  case h_19 hop => exact reading_clip p (BitVec.eq_of_toNat_eq hop)
  case h_20 hop => -- ROR (1)
    exact .accept rfl nofun (by simp [allocated, hop]) fun h hz =>
      (packI_eq_iff h).mpr ⟨BitVec.eq_of_toNat_eq hop, rfl, rfl, beq_iff_eq.mp hz, rfl⟩
  case h_21 hop => exact reading_compareImm p (BitVec.eq_of_toNat_eq hop)
  case h_22 hop => exact reading_loadImm p (BitVec.eq_of_toNat_eq hop)
  case h_23 hop => exact reading_storeImm p (BitVec.eq_of_toNat_eq hop)
  case h_24 | h_25 | h_26 | h_27 => -- format L
    next hop =>
    exact .whole rfl nofun (by simp [allocated, hop]) fun _ => packL_fields (BitVec.eq_of_toNat_eq hop)
  case h_28 | h_29 | h_30 | h_31 => -- format D
    next hop =>
    exact .whole rfl nofun (by simp [allocated, hop]) fun _ => packD_fields (BitVec.eq_of_toNat_eq hop)
  case h_32 => exact .reserved (by simp_all [allocated])

theorem decode_of_bitfieldOpcode (p : Params) {w : Word} (hop : opcodeOf w = 0b0001100#7) :
    decode p w = decodeBitfield p w := by
  simp [decode, hop]

end Sys2Proof

/-! The statements of 30_encoding.md on words. -/

namespace Sys2Proof.Machine

/-- Settles O3: `Reading` has it of every answer that is an instruction. -/
theorem acceptedWordIsCanonical : Obligations.AcceptedWordIsCanonical := by
  intro p w i hl hrefuse hdecode
  have hread := reading p w
  rw [hdecode] at hread
  cases hread with
  | instr _ hwf _ _ hcanon => exact ⟨hwf, hcanon hl hrefuse⟩

theorem decode_eq_reservedEncoding_iff (p : Params) (w : Word) :
    decode p w = .reservedEncoding ↔ allocated p.layout w = false := by
  have hread := reading p w
  generalize decode p w = d at hread
  cases hread with
  | reserved hfree => simp [hfree]
  | instr _ _ _ halloc _ | unusedBits _ halloc | link halloc | bitfield _ _ halloc => simp [halloc]

/-- Settles O4: `Reading` has `allocated` false of the reserved words, and true of all others. -/
theorem reservedWords : Obligations.ReservedWords := by
  refine ⟨decode_eq_reservedEncoding_iff, fun s w hfree => ?_⟩
  rw [runDecoded, (decode_eq_reservedEncoding_iff s.cfg w).mpr hfree]

/-- A word of the bit-field group on which the selector answers none (30_encoding.md R67). -/
theorem decode_eq_bitfieldUndecodable {p : Params} {w : Word} (hop : opcodeOf w = 0b0001100#7)
    (hselect : selectBitfield p.bitfieldSelect w = none) : decode p w = .bitfieldUndecodable :=
  (decode_of_bitfieldOpcode p hop).trans (decodeBitfield_of_none p hselect)

/-- Settles O6: the selector is all that the bit-field group asks for, and the default one has no row. -/
theorem bitfieldWordsNeedSelector : Obligations.BitfieldWordsNeedSelector := by
  refine ⟨fun s w hop hselect => ?_, fun w hop => decode_eq_bitfieldUndecodable hop rfl⟩
  rw [runDecoded, decode_eq_bitfieldUndecodable hop hselect]

end Sys2Proof.Machine

/-! Decoding a canonical word (R72), group by group. -/

namespace Sys2Proof

theorem decode_encode {p : Params} {i : Instr} (h : p.layout.wf) (hwf : i.wellFormed = true)
    (hselect : ∀ k, i.bitfieldKind = some k → selectBitfield p.bitfieldSelect (encode p.layout i) = some k) :
    decode p (encode p.layout i) = .instr i := by
  have hI := fields_packI h
  have hR := fields_packR h
  cases i
  case add1 | sub1 | or1 | xor1 | and1 | andn1 => simp [encode, decode, decodeAluImm, hI]
  case add2 | sub2 | neg | movn | or2 | xor2 | and2 | andn2 => simp [encode, decode, decodeAluReg, hR]
  case movh | addh | orh | xorh => simp [encode, decode, opcodeOf_packL, lRdOf_packL, limmOf_packL]
  case rev | clz | clo | swpb | swph => simp [encode, decode, decodeUnary, hI]
  case clpb | clph | clpbs | clphs => simp [encode, decode, decodeClip, hI]
  case ext | exts | ins | insz =>
    have hkind := hselect _ rfl
    simp only [encode] at hkind
    simp [encode, decode, decodeBitfield, hkind, hR, bfSizeOf_packR h, bfShiftOf_packR h]
  case mul | mulf | mac => simp [encode, decode, decodeMultiply, hR]
  case ceq1 | cne1 | chi1 | cls1 | cgt1 | cle1 => simp [encode, decode, decodeCompareImm, hI]
  case ceq2 | cne2 | chi2 | cls2 | cgt2 | cle2 => simp [encode, decode, decodeCompareReg, hR]
  case lb1 | lbs1 | lh1 | lhs1 | lw1 => simp [encode, decode, decodeLoadImm, hI]
  case lb2 | lbs2 | lh2 | lhs2 | lw2 => simp [encode, decode, decodeLoadReg, hR]
  case sb1 | sh1 | sw1 => simp [encode, decode, decodeStoreImm, hI]
  case sb2 | sh2 | sw2 => simp [encode, decode, decodeStoreReg, hR]
  case b1 | bt1 | bl1 | blt1 => simp [encode, decode, opcodeOf_packD, dispOf_packD]
  case bl2 | blt2 =>
    simp [encode, decode, upperRFieldsZero, hR, acceptLink_true _ _ (bne_iff_ne.mp hwf)]
  case ror1 | mfs | mts => simp [encode, decode, hI]
  case ror2 | sel => simp [encode, decode, hR]
  case b2 | bt2 | udf | syscall => simp [encode, decode, upperRFieldsZero, hR]

end Sys2Proof

namespace Sys2Proof.Machine

/-- Settles O2: each field reads back from the canonical word, so each group of the decoder finds its instruction. -/
theorem decodeEncodeRoundTrip : Obligations.DecodeEncodeRoundTrip :=
  fun _ _ => decode_encode

/-! ### What P_UNUSED_BITS changes (R75, R76) -/

/-- The policy on unused bits cannot tell a canonical word's instruction. -/
theorem decode_unusedBits_of_canonical {p : Params} (h : p.layout.wf) {w : Word} {i : Instr} {u : UnusedBits}
    (v : UnusedBits) (hread : Reading { p with unusedBits := u } w (.instr i)) (hcanon : encode p.layout i = w) :
    decode { p with unusedBits := v } w = .instr i := by
  subst hcanon
  cases hread with
  | instr _ hwf hselect _ _ => exact decode_encode (p := { p with unusedBits := v }) h hwf hselect

theorem decode_ignore_of_refuse {p : Params} (h : p.layout.wf) {w : Word} {i : Instr}
    (hdecode : decode { p with unusedBits := .refuse } w = .instr i) :
    decode { p with unusedBits := .ignore } w = .instr i := by
  obtain ⟨_, hcanon⟩ := acceptedWordIsCanonical { p with unusedBits := .refuse } w i h rfl hdecode
  exact decode_unusedBits_of_canonical h .ignore (hdecode ▸ reading _ w) hcanon

theorem decode_ne_unusedBitsNonZero {p : Params} (hignore : p.unusedBits = .ignore) (w : Word) :
    decode p w ≠ .unusedBitsNonZero := by
  intro hdecode
  have hread := reading p w
  rw [hdecode] at hread
  cases hread with
  | unusedBits hrefuse _ => simp [hignore] at hrefuse

/-- What a refused word decodes to with `ignore`: every other answer would have been the answer with `refuse`. -/
theorem decode_ignore_of_refused {p : Params} (h : p.layout.wf) {w : Word}
    (hrefused : decode { p with unusedBits := .refuse } w = .unusedBitsNonZero) :
    (∃ i, decode { p with unusedBits := .ignore } w = .instr i ∧ encode p.layout i ≠ w) ∨
    decode { p with unusedBits := .ignore } w = .linkRegisterAsTarget := by
  have hread := reading { p with unusedBits := .ignore } w
  generalize decode { p with unusedBits := .ignore } w = answer at hread ⊢
  cases hread with
  | instr i hwf hselect halloc hcanon =>
    refine .inl ⟨i, rfl, fun heq => ?_⟩
    have hinstr := decode_unusedBits_of_canonical h .refuse (.instr i hwf hselect halloc hcanon) heq
    exact nomatch hrefused.symm.trans hinstr
  | unusedBits hrefuse _ => cases hrefuse
  | link _ => exact .inr rfl
  | reserved hfree => exact nomatch hrefused.symm.trans ((decode_eq_reservedEncoding_iff _ w).mpr hfree)
  | bitfield hop hselect _ => exact nomatch hrefused.symm.trans (decode_eq_bitfieldUndecodable hop hselect)

/-- Settles O5: the policy decides on the words that are not canonical, and on no others. -/
theorem unusedBitsPolicy : Obligations.UnusedBitsPolicy :=
  fun _ w h => ⟨fun _ => decode_ignore_of_refuse h, decode_ne_unusedBitsNonZero rfl w, decode_ignore_of_refused h⟩

/-! ### A 32-bit constant in two instructions (R70, R85) -/

theorem getLsbD_highImm (limm : Imm20) (i : Nat) :
    (highImm limm).getLsbD i = (decide (12 ≤ i) && limm.getLsbD (i - 12)) := by
  have happ : (highImm limm).getLsbD i = if i < 12 then (0#12).getLsbD i else limm.getLsbD (i - 12) :=
    BitVec.getLsbD_append
  by_cases hi : i < 12
  · simp [happ, hi]
  · simp [happ, hi, Nat.not_lt.mp hi]

/-- The upper 20 and the lower 12 bits of a word put it together. -/
theorem highImm_or_zext12 (c : Word) : highImm (c.extractLsb' 12 20) ||| zext12 (c.extractLsb' 0 12) = c := by
  refine BitVec.eq_of_getLsbD_eq fun i hi => ?_
  rw [BitVec.getLsbD_or, getLsbD_highImm]
  by_cases hlow : i < 12
  · simp [zext12, hlow, hi]
  · simp [zext12, show 12 ≤ i by omega, show i - 12 < 20 by omega, show 12 + (i - 12) = i by omega]

/-- Settles O13: OR reads the RD that MOVH has written, and the two halves do not overlap. -/
theorem movhThenOrBuildsConstant : Obligations.MovhThenOrBuildsConstant := by
  intro s rd c hrd
  refine ⟨_, _, rfl, rfl, ?_, ?_, fun r hr => ?_⟩
  · simp [State.reg_setReg, hrd, highImm_or_zext12]
  · simp [BitVec.add_assoc]
  · simp [State.reg_setReg, hr]

end Sys2Proof.Machine

/-! The ALU family (40_alu.md): the model's sums, differences and negation on words are the exact results of the rules,
reduced modulo 2^32. -/

namespace Sys2Proof.Machine

/-! ### Word arithmetic as reduction modulo 2^32 (R114) -/

theorem toNat_zext12 (imm : Imm12) : (zext12 imm).toNat = imm.toNat :=
  BitVec.toNat_setWidth_of_le (by decide)

theorem add_zext12_eq_ofNat (a : Word) (imm : Imm12) : a + zext12 imm = BitVec.ofNat 32 (a.toNat + imm.toNat) := by
  rw [BitVec.add_def, toNat_zext12]

theorem ofInt_toNat (a : Word) : BitVec.ofInt 32 a.toNat = a := by
  rw [BitVec.ofInt_natCast, BitVec.ofNat_toNat, BitVec.setWidth_eq]

theorem sub_eq_ofInt (a b : Word) : a - b = BitVec.ofInt 32 ((a.toNat : Int) - b.toNat) := by
  rw [Int.sub_eq_add_neg, BitVec.ofInt_add, BitVec.ofInt_neg, ofInt_toNat, ofInt_toNat, BitVec.sub_eq_add_neg]

theorem sub_zext12_eq_ofInt (a : Word) (imm : Imm12) :
    a - zext12 imm = BitVec.ofInt 32 ((a.toNat : Int) - imm.toNat) := by
  rw [sub_eq_ofInt, toNat_zext12]

theorem zero_sub_eq_ofInt (a : Word) : 0#32 - a = BitVec.ofInt 32 (-(a.toNat : Int)) := by
  rw [BitVec.zero_sub, BitVec.ofInt_neg, ofInt_toNat]

/-! ### The forms -/

/-- `writeReg_sets` for a value that a rule words in another way. -/
theorem writeReg_sets_of_eq (rd : Reg) {v w : Word} (s : State) (h : v = w) : SetsReg (writeReg rd v s) s rd w :=
  h ▸ writeReg_sets rd v s

/-- Settles O10: every form is one register write; the bitwise ones write the rule's value as it stands, and for the sum
and the difference the zero-extended immediate counts as its unsigned value. -/
theorem aluImmediate : Obligations.AluImmediate := by
  intro s rd rs imm
  refine ⟨packI_default .., ?add, packI_default .., ?sub, packI_default .., ?or, packI_default .., ?xor,
    packI_default .., ?and, packI_default .., ?andn⟩
  case add => exact writeReg_sets_of_eq rd s (add_zext12_eq_ofNat ..)
  case sub => exact writeReg_sets_of_eq rd s (sub_zext12_eq_ofInt ..)
  case or | xor | and | andn => exact writeReg_sets ..

/-- Settles O11: every form is one register write; NEG is the difference from zero, and NEG and MOVN have RA's field zero
in their words. -/
theorem aluRegister : Obligations.AluRegister := by
  intro s rd ra rb
  refine ⟨packR_default .., ?add, packR_default .., ?sub, packR_default .., ?or, packR_default .., ?xor,
    packR_default .., ?and, packR_default .., ?andn, packR_default .., ?neg, packR_default .., ?movn⟩
  case add => exact writeReg_sets_of_eq rd s (BitVec.add_def ..)
  case sub => exact writeReg_sets_of_eq rd s (sub_eq_ofInt ..)
  case neg => exact writeReg_sets_of_eq rd s (zero_sub_eq_ofInt ..)
  case or | xor | and | andn | movn => exact writeReg_sets ..

end Sys2Proof.Machine

/-! The long-immediate family (41_long_immediate.md): the 20-bit immediate shifted left by 12 is its unsigned value times
4096; and the examples of 30_encoding.md, read back from their canonical words. -/

namespace Sys2Proof.Machine

/-! ### The shifted immediate as a number (R124) -/

theorem toNat_highImm (limm : Imm20) : (highImm limm).toNat = limm.toNat * 4096 := by
  rw [highImm, BitVec.toNat_append, BitVec.toNat_zero, Nat.or_zero, Nat.shiftLeft_eq]

theorem highImm_eq_ofNat (limm : Imm20) : highImm limm = BitVec.ofNat 32 (limm.toNat * 4096) := by
  rw [← toNat_highImm, BitVec.ofNat_toNat, BitVec.setWidth_eq]

theorem add_highImm_eq_ofNat (a : Word) (limm : Imm20) :
    a + highImm limm = BitVec.ofNat 32 (a.toNat + limm.toNat * 4096) := by
  rw [BitVec.add_def, toNat_highImm]

/-! ### The forms -/

/-- Settles O12: every form is one register write, and a format-L word is by definition the three fields side by side;
the sum of ADDH is taken on unsigned values, where the other forms have H itself as the word of its value. -/
theorem longImmediate : Obligations.LongImmediate := by
  intro s rd limm
  rw [← highImm_eq_ofNat]
  refine ⟨rfl, ?movh, rfl, ?addh, rfl, ?orh, rfl, ?xorh⟩
  case addh => exact writeReg_sets_of_eq rd s (add_highImm_eq_ofNat ..)
  case movh | orh | xorh => exact writeReg_sets ..

/-! ### The examples of the instruction files (R72, R81) -/

/-- Under the default parameters the word of an instruction outside the bit-field group decodes to it: the default layout
is well-formed, and the selector is not asked. -/
theorem decode_default_of_encode {i : Instr} {w : Word} (hencode : encode defaultLayout i = w)
    (hwf : i.wellFormed = true) (hkind : i.bitfieldKind = none) : decode defaultParams w = .instr i := by
  subst hencode
  exact decode_encode (p := defaultParams) (by decide) hwf fun k hk => nomatch hkind.symm.trans hk

/-- Settles O1: each of the fourteen words is the canonical word of its instruction, and none of the fourteen is in the
bit-field group. -/
theorem decodeSpecWords : Obligations.DecodeSpecWords := by
  refine ⟨?movh, ?add1, ?sub2, ?rev, ?ror1, ?mulf, ?cls1, ?sel, ?lw1, ?sb2, ?b2, ?blt1, ?syscall, ?mfs⟩
  all_goals exact decode_default_of_encode (by decide) rfl rfl

end Sys2Proof.Machine

/-! The bit family (42_bit_ops.md): each function of the rules bit by bit, or by the value it has as a number; then the
forms, each of which is one register write. -/

namespace Sys2Proof.Machine

/-! ### Reversal and rotation (R132, R133) -/

theorem getLsbD_reversedBits (v : Word) (n i : Nat) :
    (reversedBits v n).getLsbD i = (decide (i < n) && v.getLsbD (31 - i)) := by
  induction n with
  | zero => simp [reversedBits]
  | succ n ih =>
    rw [reversedBits, BitVec.getLsbD_cons]
    by_cases hi : i = n
    · simp [hi]
    · simp [hi, ih, show i < n + 1 ↔ i < n by omega]

theorem getLsbD_rev (v : Word) {i : Nat} (hi : i < 32) : (rev v).getLsbD i = v.getLsbD (31 - i) := by
  rw [rev, getLsbD_reversedBits, decide_eq_true hi, Bool.true_and]

/-- A rotate is the or of the two shifts; for an amount of 0 the left shift is by the whole width and adds nothing. -/
theorem ror_eq_or (v : Word) (k : BitVec 5) : ror v k = v >>> k.toNat ||| v <<< (32 - k.toNat) := by
  rw [ror, BitVec.rotateRight_def, Nat.mod_eq_of_lt k.isLt]

theorem ror_zero (v : Word) : ror v 0#5 = v := by
  simp [ror_eq_or]

theorem ror_eq_ofNat (v : Word) (k : BitVec 5) :
    ror v k = BitVec.ofNat 32 (v.toNat / 2 ^ k.toNat ||| v.toNat * 2 ^ (32 - k.toNat)) := by
  have hright : v >>> k.toNat = BitVec.ofNat 32 (v.toNat / 2 ^ k.toNat) := by
    rw [← Nat.shiftRight_eq_div_pow, ← BitVec.toNat_ushiftRight, BitVec.ofNat_toNat, BitVec.setWidth_eq]
  have hleft : v <<< (32 - k.toNat) = BitVec.ofNat 32 (v.toNat * 2 ^ (32 - k.toNat)) := by
    exact BitVec.eq_of_toNat_eq (by rw [BitVec.toNat_shiftLeft, BitVec.toNat_ofNat, Nat.shiftLeft_eq])
  rw [ror_eq_or, BitVec.ofNat_or, hright, hleft]

theorem getLsbD_ror (v : Word) (k : BitVec 5) {i : Nat} (hi : i < 32) :
    (ror v k).getLsbD i = v.getLsbD ((i + k.toNat) % 32) := by
  have hk : k.toNat < 32 := k.isLt
  rw [ror_eq_or, BitVec.getLsbD_or, BitVec.getLsbD_ushiftRight, BitVec.getLsbD_shiftLeft]
  by_cases hwrap : i + k.toNat < 32
  · simp [Nat.mod_eq_of_lt hwrap, Nat.add_comm k.toNat, show i < 32 - k.toNat by omega]
  · have hmod : (i + k.toNat) % 32 = i - (32 - k.toNat) := by omega
    simp [hmod, hi, show ¬i < 32 - k.toNat by omega, show 32 ≤ k.toNat + i by omega]

/-- Settles O60: the equations above are the statement. -/
theorem reverseAndRotateFunctions : Obligations.ReverseAndRotateFunctions :=
  fun v k => ⟨fun _ => getLsbD_rev v, fun hk => hk ▸ ror_zero v, fun _ => ror_eq_ofNat v k, fun _ => getLsbD_ror v k⟩

/-! ### Counting leading bits (R130, R131) -/

theorem leadingZeros_le (v : Word) (n : Nat) : leadingZeros v n ≤ n := by
  induction n with
  | zero => simp [leadingZeros]
  | succ n ih =>
    rw [leadingZeros]
    split <;> omega

/-- The bits counted are 0, from bit `n - 1` down. -/
theorem getLsbD_of_lt_leadingZeros (v : Word) {n i : Nat} (hi : i < leadingZeros v n) :
    v.getLsbD (n - 1 - i) = false := by
  induction n generalizing i with
  | zero => simp [leadingZeros] at hi
  | succ n ih =>
    rw [leadingZeros] at hi
    split at hi
    case isTrue => omega
    case isFalse htop =>
      cases i with
      | zero => simpa using htop
      | succ i => rw [show n + 1 - 1 - (i + 1) = n - 1 - i by omega]; exact ih (by omega)

/-- The count stops at a 1, unless it has passed all `n` bits. -/
theorem getLsbD_leadingZeros (v : Word) {n : Nat} (hn : leadingZeros v n < n) :
    v.getLsbD (n - 1 - leadingZeros v n) = true := by
  induction n with
  | zero => omega
  | succ n ih =>
    rw [leadingZeros] at hn ⊢
    split at hn
    case isTrue htop => simp [htop]
    case isFalse htop =>
      rw [if_neg htop, show n + 1 - 1 - (leadingZeros v n + 1) = n - 1 - leadingZeros v n by omega]
      exact ih (by omega)

/-- Settles O15: CLO counts the leading zeros of the complement. -/
theorem countLeading : Obligations.CountLeading := by
  intro s rd rs
  refine ⟨packI_default .., packI_default .., ?clz, ?clo⟩
  case clz =>
    exact ⟨_, leadingZeros_le _ 32, writeReg_sets .., fun _ => getLsbD_of_lt_leadingZeros _, getLsbD_leadingZeros _⟩
  case clo =>
    refine ⟨_, leadingZeros_le (~~~s.reg rs) 32, writeReg_sets .., fun i hi => ?_, fun hc => ?_⟩
    · simpa [show 31 - i < 32 by omega] using getLsbD_of_lt_leadingZeros _ hi
    · simpa [show 31 - leadingZeros (~~~s.reg rs) 32 < 32 by omega] using getLsbD_leadingZeros _ hc

/-! ### Bytes and halfwords in another order (R137, R138) -/

theorem extractLsb'_zero_append {m n : Nat} (x : BitVec m) (y : BitVec n) : (x ++ y).extractLsb' 0 n = y :=
  (BitVec.extractLsb'_append_eq_of_add_le (by omega)).trans BitVec.extractLsb'_eq_self

/-- Past the lowest byte the upper part is read. -/
theorem extractLsb'_append_byte {m : Nat} (x : BitVec m) (b : Byte) (start len : Nat) :
    (x ++ b).extractLsb' (start + 8) len = x.extractLsb' start len :=
  BitVec.extractLsb'_append_eq_of_le (by omega)

theorem extractLsb'_swapBytes (v : Word) {k : Nat} (hk : k < 4) :
    (swapBytes v).extractLsb' (8 * k) 8 = v.extractLsb' (8 * (3 - k)) 8 := by
  interval_cases k
  · exact extractLsb'_zero_append ..
  · exact (extractLsb'_append_byte ..).trans (extractLsb'_zero_append ..)
  · exact (extractLsb'_append_byte _ _ 8 8).trans <| (extractLsb'_append_byte ..).trans (extractLsb'_zero_append ..)
  · exact (extractLsb'_append_byte _ _ 16 8).trans <| (extractLsb'_append_byte _ _ 8 8).trans <|
      (extractLsb'_append_byte ..).trans BitVec.extractLsb'_eq_self

theorem extractLsb'_swapHalves (v : Word) :
    (swapHalves v).extractLsb' 16 16 = v.extractLsb' 0 16 ∧ (swapHalves v).extractLsb' 0 16 = v.extractLsb' 16 16 :=
  ⟨(BitVec.extractLsb'_append_eq_of_le le_rfl).trans BitVec.extractLsb'_eq_self, extractLsb'_zero_append ..⟩

/-- Bit `i` of either is bit `(i + 16) mod 32`: the low half comes from above bit 15, the high half from below bit 16. -/
theorem swapHalves_eq_ror (v : Word) : swapHalves v = ror v 16#5 := by
  refine BitVec.eq_of_getLsbD_eq fun i hi => ?_
  have happ : (swapHalves v).getLsbD i =
      if i < 16 then (v.extractLsb' 16 16).getLsbD i else (v.extractLsb' 0 16).getLsbD (i - 16) :=
    BitVec.getLsbD_append
  rw [happ, getLsbD_ror v _ hi, show (16#5).toNat = 16 from rfl]
  by_cases hlow : i < 16
  · simp [hlow, show (i + 16) % 32 = 16 + i by omega]
  · simp [hlow, show i - 16 < 16 by omega, show (i + 16) % 32 = i - 16 by omega]

/-- Settles O16: as instructions too, SWPH is the rotate by 16, since the value written is the same. -/
theorem swapBytesAndHalves : Obligations.SwapBytesAndHalves := by
  intro s rd rs
  refine ⟨packI_default .., packI_default .., ?swpb, ?swph, ?ror⟩
  case swpb => exact ⟨_, writeReg_sets .., fun _ => extractLsb'_swapBytes _⟩
  case swph => exact ⟨_, writeReg_sets .., extractLsb'_swapHalves _⟩
  case ror => exact congrArg (writeReg rd · s) (swapHalves_eq_ror _)

/-! ### Clips (R139 to R142) -/

theorem clipUnsigned_eq_ofNat (hi v : Word) : clipUnsigned hi v = BitVec.ofNat 32 (min v.toNat hi.toNat) := by
  rw [clipUnsigned, BitVec.ult_eq_decide]
  by_cases hv : hi.toNat < v.toNat
  · simp [hv, Nat.min_eq_right hv.le]
  · simp [hv, Nat.min_eq_left (Nat.le_of_not_lt hv)]

theorem clipSigned_eq_ofInt {lo hi : Word} (hle : lo.toInt ≤ hi.toInt) (v : Word) :
    clipSigned lo hi v = BitVec.ofInt 32 (max lo.toInt (min v.toInt hi.toInt)) := by
  rw [clipSigned, BitVec.slt_eq_decide, BitVec.slt_eq_decide]
  by_cases habove : hi.toInt < v.toInt
  · simp [habove, min_eq_right habove.le, max_eq_right hle]
  · by_cases hbelow : v.toInt < lo.toInt
    · simp [habove, hbelow, min_eq_left (not_lt.mp habove), max_eq_left hbelow.le]
    · simp [habove, hbelow, min_eq_left (not_lt.mp habove), max_eq_right (not_lt.mp hbelow)]

/-- Settles O17: the bounds are below 2^32, so each is its word's unsigned value. -/
theorem clipsUnsigned : Obligations.ClipsUnsigned := by
  intro s rd rs
  refine ⟨packI_default .., packI_default .., ?clpb, ?clph⟩
  all_goals exact writeReg_sets_of_eq rd s (clipUnsigned_eq_ofNat ..)

/-- Settles O18: the words of the lower bounds are those of -128 and -32768. -/
theorem clipsSigned : Obligations.ClipsSigned := by
  intro s rd rs
  refine ⟨packI_default .., packI_default .., ?clpbs, ?clphs⟩
  all_goals exact writeReg_sets_of_eq rd s (clipSigned_eq_ofInt (by decide) _)

/-! ### The forms of R134, R143 and R144 -/

/-- Settles O14: REV writes `rev` of RS, whose bits are those of the rule. -/
theorem reverseBits : Obligations.ReverseBits :=
  fun _ _ _ => ⟨packI_default .., _, writeReg_sets .., fun _ => getLsbD_rev _⟩

/-- A rotate by the low five bits of a wider amount. -/
theorem getLsbD_ror_setWidth (v : Word) {n : Nat} (a : BitVec n) {i : Nat} (hi : i < 32) :
    (ror v (a.setWidth 5)).getLsbD i = v.getLsbD ((i + a.toNat % 32) % 32) := by
  rw [getLsbD_ror v _ hi, BitVec.toNat_setWidth]

/-- Settles O19: both forms cut the amount to its low five bits, which is its value modulo 32. -/
theorem rotates : Obligations.Rotates := by
  intro s rd rs ra rb imm
  refine ⟨packI_default .., packR_default .., ?ror1, ?ror2⟩
  all_goals exact ⟨_, writeReg_sets .., fun _ => getLsbD_ror_setWidth _ _⟩

/-! ### Bit-fields (R145 to R149) -/

theorem trueSize_eq_ite (size : BitVec 5) : trueSize size = if size.toNat = 0 then 32 else size.toNat := by
  rw [trueSize]
  exact if_congr BitVec.toNat_eq rfl rfl

theorem trueSize_le (size : BitVec 5) : trueSize size ≤ 32 := by
  rw [trueSize_eq_ite]
  split <;> omega

theorem trueSize_pos (size : BitVec 5) : 0 < trueSize size := by
  rw [trueSize_eq_ite]
  split <;> omega

theorem getLsbD_lowMask {n : Nat} (hn : n ≤ 32) (i : Nat) : (lowMask n).getLsbD i = decide (i < n) := by
  rw [lowMask, BitVec.getLsbD_ushiftRight, BitVec.getLsbD_allOnes]
  exact decide_eq_decide.mpr (by omega)

/-- The field, from bit `h` of the source on; what lies past bit 31 reads as 0 (D27). -/
theorem getLsbD_extract (v : Word) (size shift : BitVec 5) (i : Nat) :
    (extract v size shift).getLsbD i = (decide (i < trueSize size) && v.getLsbD (i + shift.toNat)) := by
  rw [extract, BitVec.getLsbD_and, BitVec.getLsbD_ushiftRight, getLsbD_lowMask (trueSize_le size), Bool.and_comm,
    Nat.add_comm]

/-- Bit `i` after a shift to the top and an arithmetic shift back: the low `n` bits, and bit `n - 1` above them. -/
theorem getLsbD_shiftLeft_sshiftRight (v : Word) {n : Nat} (hpos : 0 < n) (hn : n ≤ 32) {i : Nat} (hi : i < 32) :
    ((v <<< (32 - n)).sshiftRight (32 - n)).getLsbD i = v.getLsbD (min i (n - 1)) := by
  rw [BitVec.getLsbD_sshiftRight, BitVec.msb_eq_getLsbD_last, BitVec.getLsbD_shiftLeft, BitVec.getLsbD_shiftLeft]
  by_cases hin : i < n
  · simp [hi, show 32 - n + i < 32 by omega, show min i (n - 1) = i by omega]
  · simp [hi, show ¬32 - n + i < 32 by omega, show min i (n - 1) = n - 1 by omega,
      show ¬31 < 32 - n by omega, show 31 - (32 - n) = n - 1 by omega]

theorem getLsbD_extractSigned (v : Word) (size shift : BitVec 5) {i : Nat} (hi : i < 32) :
    (extractSigned v size shift).getLsbD i = v.getLsbD (min i (trueSize size - 1) + shift.toNat) := by
  have hpos := trueSize_pos size
  rw [extractSigned, getLsbD_shiftLeft_sshiftRight _ hpos (trueSize_le size) hi, getLsbD_extract,
    decide_eq_true (by omega), Bool.true_and]

/-- Settles O20: `shift` and `size` side by side are the ten bits above RB's field. -/
theorem bitfieldExtract : Obligations.BitfieldExtract := by
  intro s rd ra size shift
  refine ⟨packR_default .., packR_default .., ?ext, ?exts, trueSize_eq_ite size⟩
  case ext => exact ⟨_, writeReg_sets .., fun i _ => getLsbD_extract _ _ _ i⟩
  case exts => exact ⟨_, writeReg_sets .., fun _ => getLsbD_extractSigned _ _ _⟩

theorem getLsbD_insertMask (size shift : BitVec 5) {i : Nat} (hi : i < 32) :
    (insertMask size shift).getLsbD i = decide (shift.toNat ≤ i ∧ i < shift.toNat + trueSize size) := by
  rw [insertMask, BitVec.getLsbD_shiftLeft, getLsbD_lowMask (trueSize_le size), Bool.eq_iff_iff]
  simp only [Bool.and_eq_true, Bool.not_eq_true', decide_eq_true_eq, decide_eq_false_iff_not]
  omega

theorem getLsbD_insert (background v : Word) (size shift : BitVec 5) {i : Nat} (hi : i < 32) :
    (insert background v size shift).getLsbD i =
      if shift.toNat ≤ i ∧ i < shift.toNat + trueSize size then v.getLsbD (i - shift.toNat)
      else background.getLsbD i := by
  rw [insert, BitVec.getLsbD_or, BitVec.getLsbD_and, BitVec.getLsbD_and, BitVec.getLsbD_not,
    getLsbD_insertMask size shift hi, BitVec.getLsbD_shiftLeft]
  by_cases hfield : shift.toNat ≤ i ∧ i < shift.toNat + trueSize size
  · simp [hfield, hi]
  · simp [hfield, hi]

/-- INSZ is INS on a background of 0 (R149): the mask and the field are shifted together. -/
theorem insertZero_eq_insert (v : Word) (size shift : BitVec 5) :
    insertZero v size shift = insert 0#32 v size shift := by
  rw [insertZero, insert, insertMask, BitVec.shiftLeft_and_distrib, BitVec.zero_and, BitVec.zero_or]

theorem getLsbD_insertZero (v : Word) (size shift : BitVec 5) {i : Nat} (hi : i < 32) :
    (insertZero v size shift).getLsbD i =
      (decide (shift.toNat ≤ i ∧ i < shift.toNat + trueSize size) && v.getLsbD (i - shift.toNat)) := by
  rw [insertZero_eq_insert, getLsbD_insert _ _ _ _ hi]
  split
  case isTrue hfield => simp [hfield]
  case isFalse hfield => simp [hfield]

/-- Settles O21: INSZ writes what INS writes on a background of 0. -/
theorem bitfieldInsert : Obligations.BitfieldInsert := by
  intro s rd ra rb size shift
  refine ⟨packR_default .., packR_default .., ?ins, ?insz, fun hzero => ?_⟩
  case ins => exact ⟨_, writeReg_sets .., fun _ => getLsbD_insert _ _ _ _⟩
  case insz => exact ⟨_, writeReg_sets .., fun _ => getLsbD_insertZero _ _ _⟩
  have hvalue : insert (s.reg ra) (s.reg rb) size shift = insertZero (s.reg rb) size shift := by
    rw [hzero, insertZero_eq_insert]
  exact congrArg (writeReg rd · s) hvalue

end Sys2Proof.Machine

/-! The multiply family (43_multiply.md): the products on words are the exact products, reduced modulo 2^32; MULF's two
readings are bits 47 to 16 of two exact products whose difference R161 derives. -/

namespace Sys2Proof.Machine

/-! ### The low 32 bits of a product (R160, R162) -/

theorem mul_eq_ofNat (a b : Word) : a * b = BitVec.ofNat 32 (a.toNat * b.toNat) :=
  BitVec.mul_def

theorem mul_eq_ofInt (a b : Word) : a * b = BitVec.ofInt 32 (a.toInt * b.toInt) := by
  rw [BitVec.ofInt_mul, BitVec.ofInt_toInt, BitVec.ofInt_toInt]

theorem mul_add_eq_ofNat (a b c : Word) : a * b + c = BitVec.ofNat 32 (a.toNat * b.toNat + c.toNat) := by
  rw [BitVec.ofNat_add, ← mul_eq_ofNat, BitVec.ofNat_toNat, BitVec.setWidth_eq]

/-- Settles O22: multiplication of words is multiplication modulo 2^32 of either reading of them. -/
theorem multiplyLow : Obligations.MultiplyLow := by
  intro s rd ra rb
  refine ⟨packR_default .., ?unsigned, ?signed⟩
  case unsigned => exact writeReg_sets_of_eq rd s (mul_eq_ofNat ..)
  case signed => exact writeReg_sets_of_eq rd s (mul_eq_ofInt ..)

/-- Settles O23: RD is read as the addend before it is written, so the equation on words is all it takes. -/
theorem multiplyAccumulate : Obligations.MultiplyAccumulate :=
  fun _ _ _ _ => ⟨packR_default .., writeReg_sets_of_eq _ _ (mul_add_eq_ofNat ..)⟩

/-! ### The two readings of MULF (R161) -/

/-- Bits 47 to 16 of an exact product of either sign: the division rounds down, as dropping the low bits does. -/
theorem extractLsb'_ofInt (z : Int) : (BitVec.ofInt 64 z).extractLsb' 16 32 = BitVec.ofInt 32 (z / 2 ^ 16) := by
  refine BitVec.eq_of_toNat_eq ?_
  rw [BitVec.extractLsb'_toNat, BitVec.toNat_ofInt, BitVec.toNat_ofInt, Nat.shiftRight_eq_div_pow]
  omega

theorem mulfUnsigned_eq_ofInt (a b : Word) :
    mulfUnsigned a b = BitVec.ofInt 32 ((a.toNat : Int) * b.toNat / 2 ^ 16) := by
  have hwiden (v : Word) : v.setWidth 64 = BitVec.ofInt 64 v.toNat := by
    rw [BitVec.ofInt_natCast, BitVec.ofNat_toNat]
  rw [mulfUnsigned, hwiden, hwiden, ← BitVec.ofInt_mul, extractLsb'_ofInt]

theorem mulfUnsigned_eq_ofNat (a b : Word) : mulfUnsigned a b = BitVec.ofNat 32 (a.toNat * b.toNat / 2 ^ 16) := by
  rw [mulfUnsigned_eq_ofInt, ← BitVec.ofInt_natCast]
  norm_cast

theorem mulfSigned_eq_ofInt (a b : Word) : mulfSigned a b = BitVec.ofInt 32 (a.toInt * b.toInt / 2 ^ 16) := by
  rw [mulfSigned, BitVec.signExtend, BitVec.signExtend, ← BitVec.ofInt_mul, extractLsb'_ofInt]

/-- The sum of each operand taken where the other has bit 31 set, which tells the two products apart. -/
def signCorrection (a b : Word) : Nat :=
  (if a.getLsbD 31 then b.toNat else 0) + (if b.getLsbD 31 then a.toNat else 0)

theorem signCorrection_eq (a b : Word) :
    signCorrection a b = (a.getLsbD 31).toNat * b.toNat + (b.getLsbD 31).toNat * a.toNat := by
  have hterm (p : Bool) (n : Nat) : (if p then n else 0) = p.toNat * n := by cases p <;> simp
  rw [signCorrection, hterm, hterm]

theorem toInt_eq_sub (a : Word) : a.toInt = (a.toNat : Int) - 2 ^ 32 * (a.getLsbD 31).toNat := by
  rw [BitVec.toInt_eq_msb_cond, BitVec.msb_eq_getLsbD_last]
  cases a.getLsbD (32 - 1) <;> simp

/-- R161's derivation: the signed product falls short of the unsigned one by `2^32 * signCorrection`, modulo 2^64. -/
theorem toInt_mul_toInt (a b : Word) :
    a.toInt * b.toInt = (a.toNat : Int) * b.toNat - 2 ^ 32 * signCorrection a b +
      2 ^ 64 * ((a.getLsbD 31).toNat * (b.getLsbD 31).toNat : Int) := by
  rw [toInt_eq_sub, toInt_eq_sub, signCorrection_eq]
  push_cast
  ring

theorem ofInt_eq_ofInt_iff (y z : Int) : BitVec.ofInt 32 y = BitVec.ofInt 32 z ↔ (y - z) % 2 ^ 32 = 0 := by
  rw [BitVec.toNat_eq, BitVec.toNat_ofInt, BitVec.toNat_ofInt]
  omega

theorem mulfUnsigned_eq_mulfSigned_iff (a b : Word) :
    mulfUnsigned a b = mulfSigned a b ↔ signCorrection a b % 2 ^ 16 = 0 := by
  rw [mulfUnsigned_eq_ofInt, mulfSigned_eq_ofInt, ofInt_eq_ofInt_iff, toInt_mul_toInt]
  omega

/-- Settles O25: divided by 2^16, the difference of the two products is `2^16 * signCorrection` modulo 2^32. -/
theorem mulfReadingsAgree : Obligations.MulfReadingsAgree :=
  fun a b => ⟨mulfUnsigned_eq_ofNat a b, mulfSigned_eq_ofInt a b, mulfUnsigned_eq_mulfSigned_iff a b⟩

/-! ### MULF under P_MULF_SIGNED -/

/-- Where the readings agree the parameter has nothing to choose. -/
theorem mulfValue_of_agree {a b : Word} (h : mulfUnsigned a b = mulfSigned a b) (m : MulfSign) :
    mulfValue m a b = some (mulfUnsigned a b) := by
  cases m <;> simp [mulfValue, h]

theorem mulfValue_absent_of_differ {a b : Word} (h : mulfUnsigned a b ≠ mulfSigned a b) :
    mulfValue .absent a b = none :=
  if_neg h

/-- Nothing is known of `Config.mulfSigned`, so neither reading is ruled out. -/
theorem mulfValue_unknown (a b : Word) :
    ∃ v, (v = mulfUnsigned a b ∨ v = mulfSigned a b) ∧ mulfValue .unknown a b = some v := by
  refine ⟨_, ?_, rfl⟩
  cases Config.mulfSigned
  · exact .inl rfl
  · exact .inr rfl

theorem execMulf_sets {rd ra rb : Reg} {s : State} {v : Word}
    (h : mulfValue s.cfg.mulfSign (s.reg ra) (s.reg rb) = some v) : SetsReg (execMulf rd ra rb s) s rd v := by
  rw [execMulf, h]
  exact writeReg_sets rd v s

theorem execMulf_refused {rd ra rb : Reg} {s : State}
    (h : mulfValue s.cfg.mulfSign (s.reg ra) (s.reg rb) = none) :
    execMulf rd ra rb s = .refused .mulfSignDependent := by
  rw [execMulf, h]

/-- Settles O24: `ru` and `rs` are the model's two readings, and `mulfValue` says which of them is written. -/
theorem multiplyFixedPoint : Obligations.MultiplyFixedPoint := by
  intro s rd ra rb ru rs hru hrs
  rw [← mulfUnsigned_eq_ofNat] at hru
  rw [← mulfSigned_eq_ofInt] at hrs
  subst hru hrs
  refine ⟨packR_default .., fun hm => ?signed, fun hm => ?unsigned, fun hagree => ?agree, fun hm hdiffer => ?absent,
    fun hm => ?unknown⟩
  case signed => exact execMulf_sets (by rw [hm, mulfValue])
  case unsigned => exact execMulf_sets (by rw [hm, mulfValue])
  case agree => exact execMulf_sets (mulfValue_of_agree hagree _)
  case absent => exact execMulf_refused (by rw [hm, mulfValue_absent_of_differ hdiffer])
  case unknown =>
    obtain ⟨v, hv, hvalue⟩ := mulfValue_unknown (s.reg ra) (s.reg rb)
    exact ⟨v, hv, execMulf_sets (by rw [hm, hvalue])⟩

end Sys2Proof.Machine

/-! The compare and select family (44_compare_select.md): each relation on words is the relation on the numbers that R183
names, and an extended immediate has the immediate's own number; every compare is then one write of T, and SEL one register
write. -/

namespace Sys2Proof.Machine

/-! ### The relations as relations on numbers (R183) -/

theorem isEqual_iff (a b : Word) : isEqual a b = true ↔ a.toNat = b.toNat := by
  rw [isEqual, beq_iff_eq, BitVec.toNat_eq]

theorem isNotEqual_iff (a b : Word) : isNotEqual a b = true ↔ a.toNat ≠ b.toNat := by
  rw [isNotEqual, bne_iff_ne, BitVec.toNat_ne_iff_ne]

theorem isHigher_iff (a b : Word) : isHigher a b = true ↔ a.toNat > b.toNat :=
  BitVec.ult_iff_lt.trans BitVec.lt_def

theorem isLowerSame_iff (a b : Word) : isLowerSame a b = true ↔ a.toNat ≤ b.toNat :=
  BitVec.ule_iff_le.trans BitVec.le_def

theorem isGreater_iff (a b : Word) : isGreater a b = true ↔ a.toInt > b.toInt :=
  BitVec.slt_iff_toInt_lt

theorem isLessEqual_iff (a b : Word) : isLessEqual a b = true ↔ a.toInt ≤ b.toInt :=
  BitVec.sle_iff_toInt_le

theorem toInt_sext12 (imm : Imm12) : (sext12 imm).toInt = imm.toInt :=
  BitVec.toInt_signExtend_of_le (by decide)

/-! ### The compares -/

/-- `writeT_sets` for a relation that a rule words in another way. -/
theorem writeT_sets_of_iff {b : Bool} {holds : Prop} (s : State) (h : b = true ↔ holds) :
    SetsT (writeT b s) s holds :=
  propext h ▸ writeT_sets b s

/-- Settles O26: words are equal where their unsigned numbers are, and that of the zero-extended immediate is the
immediate's. -/
theorem compareEquality : Obligations.CompareEquality := by
  intro s rs ra rb imm
  rw [← toNat_zext12 imm]
  refine ⟨packI_default .., packR_default .., ?ceq1, ?ceq2, packI_default .., packR_default .., ?cne1, ?cne2⟩
  case ceq1 | ceq2 => exact writeT_sets_of_iff s (isEqual_iff ..)
  case cne1 | cne2 => exact writeT_sets_of_iff s (isNotEqual_iff ..)

/-- Settles O27: CHI and CLS order words by their unsigned numbers, and that of the zero-extended immediate is the
immediate's. -/
theorem compareUnsigned : Obligations.CompareUnsigned := by
  intro s rs ra rb imm
  rw [← toNat_zext12 imm]
  refine ⟨packI_default .., packR_default .., ?chi1, ?chi2, packI_default .., packR_default .., ?cls1, ?cls2⟩
  case chi1 | chi2 => exact writeT_sets_of_iff s (isHigher_iff ..)
  case cls1 | cls2 => exact writeT_sets_of_iff s (isLowerSame_iff ..)

/-- Settles O28: CGT and CLE order words by their signed numbers, and that of the sign-extended immediate is the
immediate's. -/
theorem compareSigned : Obligations.CompareSigned := by
  intro s rs ra rb imm
  rw [← toInt_sext12 imm]
  refine ⟨packI_default .., packR_default .., ?cgt1, ?cgt2, packI_default .., packR_default .., ?cle1, ?cle2⟩
  case cgt1 | cgt2 => exact writeT_sets_of_iff s (isGreater_iff ..)
  case cle1 | cle2 => exact writeT_sets_of_iff s (isLessEqual_iff ..)

/-! ### SEL -/

/-- Settles O29: SEL is one register write, of the value that T selects. -/
theorem selectOnT : Obligations.SelectOnT := by
  intro s rd ra rb
  refine ⟨packR_default .., fun hset => ?set, fun hclear => ?clear⟩
  case set => exact writeReg_sets_of_eq rd s (if_pos hset)
  case clear => exact writeReg_sets_of_eq rd s (if_neg (by simp [hclear]))

end Sys2Proof.Machine

/-! The load and store family (45_load_store.md): each form is the shared load or store of its size at its effective
address, so what is left is the value that each size and extension reads, and the alignment test, which no byte access
fails. -/

namespace Sys2Proof.Machine

/-! ### The sign extensions of an assembled value (R193, R197) -/

/-- The byte that `MemRead` has zero-extended is still its low byte. -/
theorem sext8_setWidth (b : Byte) : sext8 (b.setWidth 32) = b.signExtend 32 := by
  rw [sext8, BitVec.setWidth_setWidth_of_le b (by decide), BitVec.setWidth_eq]

/-- The halfword that `MemRead` has zero-extended is still its low halfword. -/
theorem sext16_setWidth (h : BitVec 16) : sext16 (h.setWidth 32) = h.signExtend 32 := by
  rw [sext16, BitVec.setWidth_setWidth_of_le h (by decide), BitVec.setWidth_eq]

theorem sext8_memRead (s : State) (a : Word) : sext8 (s.memRead a 1) = (s.byte a).signExtend 32 := by
  rw [State.memRead_one, sext8_setWidth]

theorem sext16_memRead (s : State) (a : Word) : sext16 (s.memRead a 2) = (halfAt s a).signExtend 32 := by
  rw [State.memRead_two, sext16_setWidth]

/-! ### The shared load and store under the alignment test of R44 -/

/-- No address is misaligned for one byte. -/
theorem aligned_byte (s : State) (a : Word) : Aligned s a 1 := .inl (Nat.mod_one _)

section

variable {n : Nat} {rd : Reg} {a : Word} {s : State}

/-- `loadReg_sets` for a value that a rule words in another way. -/
theorem loadReg_sets_of_eq {widen : Word → Word} {v : Word} (hv : widen (s.memRead a n) = v) (ha : Aligned s a n)
    (hm : s.admitted a n .load = true) : SetsReg (loadReg n widen rd a s) s rd v :=
  hv ▸ loadReg_sets n widen rd a s ((State.aligned_iff s a n).mpr ha) hm

theorem storeReg_stores_of_aligned (hn : n ≤ 2 ^ 32) (ha : Aligned s a n) (hm : s.admitted a n .store = true) :
    Stores (storeReg n rd a s) s a n (s.reg rd) :=
  storeReg_stores n rd a s hn ((State.aligned_iff s a n).mpr ha) hm

end

/-! ### The loads -/

/-- Settles O31: each form is the load of one byte, which passes the alignment test everywhere. -/
theorem loadByte : Obligations.LoadByte := by
  intro s rd rs ra rb imm
  refine ⟨packI_default .., packR_default .., ?lb1, ?lb2, packI_default .., packR_default .., ?lbs1, ?lbs2⟩
  case lb1 | lb2 => exact loadReg_sets_of_eq (State.memRead_one ..) (aligned_byte ..)
  case lbs1 | lbs2 => exact loadReg_sets_of_eq (sext8_memRead ..) (aligned_byte ..)

/-- Settles O32: each form is the load of two bytes, which `MemRead` assembles by the byte order. -/
theorem loadHalfword : Obligations.LoadHalfword := by
  intro s rd rs ra rb imm
  refine ⟨packI_default .., packR_default .., ?lh1, ?lh2, packI_default .., packR_default .., ?lhs1, ?lhs2⟩
  case lh1 | lh2 => exact loadReg_sets_of_eq (State.memRead_two ..)
  case lhs1 | lhs2 => exact loadReg_sets_of_eq (sext16_memRead ..)

/-- Settles O33: each form is the load of four bytes, which fill the register and need no extension. -/
theorem loadWord : Obligations.LoadWord := by
  intro s rd rs ra rb imm
  refine ⟨packI_default .., packR_default .., ?lw1, ?lw2⟩
  case lw1 | lw2 => exact loadReg_sets_of_eq (State.memRead_four ..)

/-! ### The stores -/

/-- Settles O34: each form is the store of one byte, which passes the alignment test everywhere. -/
theorem storeByte : Obligations.StoreByte := by
  intro s rd rs ra rb imm
  refine ⟨packI_default .., packR_default .., ?sb1, ?sb2⟩
  case sb1 | sb2 => exact storeReg_stores_of_aligned (by decide) (aligned_byte ..)

/-- Settles O35: each form is the store of two bytes, which `MemWrite` lays out by the byte order. -/
theorem storeHalfword : Obligations.StoreHalfword := by
  intro s rd rs ra rb imm
  refine ⟨packI_default .., packR_default .., ?sh1, ?sh2⟩
  case sh1 | sh2 => exact storeReg_stores_of_aligned (by decide)

/-- Settles O36: each form is the store of four bytes, which `MemWrite` lays out by the byte order. -/
theorem storeWord : Obligations.StoreWord := by
  intro s rd rs ra rb imm
  refine ⟨packI_default .., packR_default .., ?sw1, ?sw2⟩
  case sw1 | sw2 => exact storeReg_stores_of_aligned (by decide)

end Sys2Proof.Machine

/-! The branch family (46_branch.md): the word that a format-D branch goes to is the exact target modulo 2^32; every form is
then the shared branch, taken or not, with or without the link, and R31 as the target of a register branch with link is
refused both as an instruction and as a word. -/

namespace Sys2Proof.Machine

/-! ### The pc-relative target as a number (R219) -/

theorem branchOffset_eq_ofInt (disp : Disp25) : branchOffset disp = BitVec.ofInt 32 (4 * disp.toInt) := by
  rw [branchOffset, BitVec.shiftLeft_eq_mul_twoPow, BitVec.signExtend, BitVec.mul_comm, BitVec.ofInt_mul]
  rfl

theorem relTarget_eq_ofInt (s : State) (disp : Disp25) :
    s.relTarget disp = BitVec.ofInt 32 (s.pc.toNat + 4 * disp.toInt) := by
  rw [State.relTarget, branchOffset_eq_ofInt, BitVec.ofInt_add, ofInt_toNat]

/-! ### The shared branch, taken and not taken -/

section

variable {taken : Bool} (target : Word) (s : State)

theorem branchTo_goes_of_taken (h : taken = true) : GoesTo (branchTo taken target s) s target :=
  h ▸ branchTo_goes true target s

theorem branchTo_goes_of_not_taken (h : taken = false) : GoesTo (branchTo taken target s) s (s.pc + 4#32) :=
  h ▸ branchTo_goes false target s

theorem branchLink_goes_of_taken (h : taken = true) : LinksAndGoesTo (branchLink taken target s) s target :=
  h ▸ branchLink_goes true target s

/-- The link is written all the same (90_conflicts.md C7). -/
theorem branchLink_goes_of_not_taken (h : taken = false) :
    LinksAndGoesTo (branchLink taken target s) s (s.pc + 4#32) :=
  h ▸ branchLink_goes false target s

end

/-! ### R31 as the target of a register branch with link (R215, R217) -/

theorem exec_bl2_of_ne_link {rd : Reg} (s : State) (hrd : rd ≠ 31#5) :
    exec (.bl2 rd) s = branchLink true (s.reg rd) s :=
  if_neg hrd

theorem exec_blt2_of_ne_link {rd : Reg} (s : State) (hrd : rd ≠ 31#5) :
    exec (.blt2 rd) s = branchLink s.t (s.reg rd) s :=
  if_neg hrd

theorem acceptLink_link (p : Params) (i : Instr) : acceptLink p true 31#5 i = .linkRegisterAsTarget := by
  unfold acceptLink
  split
  · contradiction
  · exact if_pos rfl

/-- The canonical word of BL (2) or BLT (2) with R31: its unused fields are zero, so its target alone is what the decoder
refuses, whatever P_UNUSED_BITS is. -/
theorem decode_encode_link {p : Params} {i : Instr} (h : p.layout.wf) (hi : i = .bl2 31#5 ∨ i = .blt2 31#5) :
    decode p (encode p.layout i) = .linkRegisterAsTarget := by
  rcases hi with rfl | rfl <;> simp [encode, decode, upperRFieldsZero, fields_packR h, acceptLink_link]

theorem runDecoded_encode_link {s : State} {i : Instr} {w : Word} (hlayout : s.cfg.layout = defaultLayout)
    (hencode : encode defaultLayout i = w) (hi : i = .bl2 31#5 ∨ i = .blt2 31#5) :
    runDecoded w s = .refused .linkRegisterAsTarget := by
  have hwf : s.cfg.layout.wf := hlayout ▸ defaultLayout_wf
  rw [← hencode, ← hlayout, runDecoded, decode_encode_link hwf hi]

/-! ### The forms -/

/-- Settles O44: the link register is not R0, so it reads back what BL has written, and B writes no register. -/
theorem callAndReturn : Obligations.CallAndReturn := by
  intro s disp
  obtain ⟨t, hcall, _, hlink, htT, _, htMem⟩ := branchLink_goes true (s.relTarget disp) s
  obtain ⟨u, hreturn, hpc, huT, hregs, _, huMem⟩ := branchTo_goes true (t.reg 31#5) t
  refine ⟨t, u, hcall, hreturn, ?pc, huT.trans htT, fun r hr => ?reg, fun a => ?mem⟩
  case pc => simp [hpc, hlink 31#5]
  case reg => simp [hregs r, hlink r, hr]
  case mem =>
    obtain ⟨htByte, htStored⟩ := htMem a
    obtain ⟨huByte, huStored⟩ := huMem a
    exact ⟨huByte.trans htByte, huStored.trans htStored⟩

/-- Settles O40: both forms are the shared branch to the pc-relative target, B always taken and BT taken on T. -/
theorem branchRelative : Obligations.BranchRelative := by
  intro s disp
  rw [← relTarget_eq_ofInt]
  refine ⟨rfl, rfl, ?b1, ?bt1_taken, ?bt1_not_taken⟩
  case b1 => exact branchTo_goes_of_taken _ s rfl
  case bt1_taken => exact branchTo_goes_of_taken _ s
  case bt1_not_taken => exact branchTo_goes_of_not_taken _ s

/-- Settles O41: both forms are the shared branch to the value of RD as it stands. -/
theorem branchRegister : Obligations.BranchRegister := by
  intro s rd
  refine ⟨packR_default .., packR_default .., ?b2, ?bt2_taken, ?bt2_not_taken⟩
  case b2 => exact branchTo_goes_of_taken _ s rfl
  case bt2_taken => exact branchTo_goes_of_taken _ s
  case bt2_not_taken => exact branchTo_goes_of_not_taken _ s

/-- Settles O42: both forms are the shared branch with link to the pc-relative target, which links whether or not BLT is
taken. -/
theorem branchLinkRelative : Obligations.BranchLinkRelative := by
  intro s disp
  rw [← relTarget_eq_ofInt]
  refine ⟨rfl, rfl, ?bl1, ?blt1_taken, ?blt1_not_taken⟩
  case bl1 => exact branchLink_goes_of_taken _ s rfl
  case blt1_taken => exact branchLink_goes_of_taken _ s
  case blt1_not_taken => exact branchLink_goes_of_not_taken _ s

/-- Settles O43: away from R31 both forms are the shared branch with link to the old value of RD; with R31 the meanings
refuse, and the two words are canonical ones, which the decoder refuses. -/
theorem branchLinkRegister : Obligations.BranchLinkRegister := by
  intro s rd
  refine ⟨packR_default .., packR_default .., fun hrd => ?bl2, fun hrd => ?blt2_taken, fun hrd => ?blt2_not_taken,
    rfl, rfl, fun hlayout => ?bl2_word, fun hlayout => ?blt2_word⟩
  case bl2 => exact exec_bl2_of_ne_link s hrd ▸ branchLink_goes_of_taken _ s rfl
  case blt2_taken => exact exec_blt2_of_ne_link s hrd ▸ branchLink_goes_of_taken _ s
  case blt2_not_taken => exact exec_blt2_of_ne_link s hrd ▸ branchLink_goes_of_not_taken _ s
  case bl2_word => exact runDecoded_encode_link hlayout (i := .bl2 31#5) (by decide) (.inl rfl)
  case blt2_word => exact runDecoded_encode_link hlayout (i := .blt2 31#5) (by decide) (.inr rfl)

end Sys2Proof.Machine

/-! Privilege (10_state.md R28, 60_exceptions.md R241, R242): which updates can change PRIV, and that no form but MFS
and MTS looks at it. -/

namespace Sys2Proof.Machine

/-! ### What leaves PRIV as it is -/

@[simp] theorem State.memWrite_priv (s : State) (a : Word) (n : Nat) (v : Word) : (s.memWrite a n v).priv = s.priv := by
  obtain ⟨_, _, _, hpriv, _⟩ := State.memWrite_same s a n v
  exact hpriv

theorem srRead_priv {n : Imm12} {v : Word} {s s' : State} (hsr : s.cfg.sysRegs ≠ .platform)
    (h : srRead n s = some (v, s')) : s'.priv = s.priv := by
  rcases srRead_cases n s with ⟨_, he⟩ | ⟨_, he⟩ | ⟨hplatform, _⟩
  · simp [he] at h
  · rw [he] at h
    cases h
    rfl
  · exact absurd hplatform hsr

theorem srWriteAdvance_priv {n : Imm12} {v : Word} {s t : State} (hsr : s.cfg.sysRegs ≠ .platform)
    (h : srWriteAdvance n v s = some t) : t.priv = s.priv := by
  rcases srWriteAdvance_cases n v s with ⟨_, he⟩ | ⟨_, he⟩ | ⟨hplatform, _⟩
  · simp [he] at h
  · rw [he] at h
    cases h
    rfl
  · exact absurd hplatform hsr

theorem Update.priv_eq {i : Instr} {s t : State} (h : Update i s t) (hsrc : s.sourceOnly) : t.priv = s.priv := by
  obtain ⟨htrap, hsr⟩ := hsrc
  cases h with
  | reg rd v => simp
  | flag b _ => simp
  | jump a => simp
  | link a => simp
  | store n rd a _ => simp
  | trap x hsupplied => simp [hsupplied] at htrap
  | mfs rd n v s' _ hread => simpa using srRead_priv hsr hread
  | mts rd n _ _ hwrite => exact srWriteAdvance_priv hsr hwrite

/-- Settles O53: the only updates that can touch PRIV are a trap entry and a platform's system register. -/
theorem stepKeepsPrivilege : Obligations.StepKeepsPrivilege := by
  intro s t hsrc h
  obtain ⟨_, _, hupdate⟩ := update_of_step_next h
  exact hupdate.priv_eq hsrc

/-! ### Setting PRIV commutes with what does not look at it -/

/-- `PRIV <- b`: the same state with the other privilege. No instruction does this (R241). -/
def State.setPriv (s : State) (b : Bool) : State := { s with priv := b }

@[simp] theorem State.setPriv_cfg (s : State) (b : Bool) : (s.setPriv b).cfg = s.cfg := rfl

@[simp] theorem State.reg_setPriv (s : State) (b : Bool) (r : Reg) : (s.setPriv b).reg r = s.reg r := rfl

@[simp] theorem State.advance_setPriv (s : State) (b : Bool) : (s.setPriv b).advance = s.advance.setPriv b := rfl

@[simp] theorem State.setPc_setPriv (s : State) (b : Bool) (a : Word) :
    (s.setPriv b).setPc a = (s.setPc a).setPriv b := rfl

@[simp] theorem State.setReg_setPriv (s : State) (b : Bool) (i : Reg) (v : Word) :
    (s.setPriv b).setReg i v = (s.setReg i v).setPriv b := by
  rw [State.setReg, State.setReg, apply_ite (State.setPriv · b)]
  rfl

@[simp] theorem State.link_setPriv (s : State) (b : Bool) : (s.setPriv b).link = s.link.setPriv b :=
  State.setReg_setPriv ..

@[simp] theorem State.aligned_setPriv (s : State) (b : Bool) (a : Word) (n : Nat) :
    (s.setPriv b).aligned a n = s.aligned a n := rfl

@[simp] theorem State.admitted_setPriv (s : State) (b : Bool) (a : Word) (n : Nat) (k : AccessKind) :
    (s.setPriv b).admitted a n k = s.admitted a n k := rfl

@[simp] theorem State.memRead_setPriv (s : State) (b : Bool) (a : Word) (n : Nat) :
    (s.setPriv b).memRead a n = s.memRead a n :=
  State.memRead_congr (s := s) (t := s.setPriv b) rfl rfl a n

theorem State.storeBytes_setPriv (s : State) (b : Bool) (a : Word) (bs : List Byte) :
    (s.setPriv b).storeBytes a bs = (s.storeBytes a bs).setPriv b := by
  induction bs generalizing s a with
  | nil => rfl
  | cons c bs ih => exact ih (s.setByte a c) (a + 1#32)

@[simp] theorem State.memWrite_setPriv (s : State) (b : Bool) (a : Word) (n : Nat) (v : Word) :
    (s.setPriv b).memWrite a n v = (s.memWrite a n v).setPriv b :=
  State.storeBytes_setPriv ..

theorem writeReg_setPriv (rd : Reg) (v : Word) (s : State) (b : Bool) :
    writeReg rd v (s.setPriv b) = mapNext (·.setPriv b) (writeReg rd v s) := by
  simp [writeReg]

theorem writeT_setPriv (c : Bool) (s : State) (b : Bool) :
    writeT c (s.setPriv b) = mapNext (·.setPriv b) (writeT c s) := rfl

theorem branchTo_setPriv (taken : Bool) (target : Word) (s : State) (b : Bool) :
    branchTo taken target (s.setPriv b) = mapNext (·.setPriv b) (branchTo taken target s) := by
  cases taken <;> simp [branchTo]

theorem branchLink_setPriv (taken : Bool) (target : Word) (s : State) (b : Bool) :
    branchLink taken target (s.setPriv b) = mapNext (·.setPriv b) (branchLink taken target s) := by
  simp [branchLink, branchTo_setPriv]

/-- With `P_TRAP` absent a raise answers no state (60_exceptions.md R236), whatever PRIV is. -/
theorem raise_setPriv (x : Exc) {s : State} (b : Bool) (htrap : s.cfg.trapSupplied = false) :
    raise x (s.setPriv b) = mapNext (·.setPriv b) (raise x s) := by
  simp [raise, htrap]

theorem loadReg_setPriv (n : Nat) (widen : Word → Word) (rd : Reg) (a : Word) {s : State} (b : Bool)
    (htrap : s.cfg.trapSupplied = false) :
    loadReg n widen rd a (s.setPriv b) = mapNext (·.setPriv b) (loadReg n widen rd a s) := by
  rcases loadReg_cases n widen rd a s with ⟨ha, hm, he⟩ | ⟨ha, hm, he⟩ | ⟨ha, he⟩ <;> rw [he]
  · simp [loadReg, ha, hm, writeReg_setPriv]
  · simp [loadReg, ha, hm]
  · simp [loadReg, ha, raise_setPriv _ b htrap]

theorem storeReg_setPriv (n : Nat) (rd : Reg) (a : Word) {s : State} (b : Bool)
    (htrap : s.cfg.trapSupplied = false) :
    storeReg n rd a (s.setPriv b) = mapNext (·.setPriv b) (storeReg n rd a s) := by
  rcases storeReg_cases n rd a s with ⟨ha, hm, he⟩ | ⟨ha, hm, he⟩ | ⟨ha, he⟩ <;> rw [he]
  · simp [storeReg, ha, hm]
  · simp [storeReg, ha, hm]
  · simp [storeReg, ha, raise_setPriv _ b htrap]

theorem execMulf_setPriv (rd ra rb : Reg) (s : State) (b : Bool) :
    execMulf rd ra rb (s.setPriv b) = mapNext (·.setPriv b) (execMulf rd ra rb s) := by
  simp only [execMulf, State.setPriv_cfg, State.reg_setPriv]
  split
  · exact writeReg_setPriv ..
  · rfl

/-- An instruction that does not test privilege carries PRIV along: its operands do not look at PRIV, and neither does
the shared shape that gives it its meaning. -/
theorem exec_setPriv {i : Instr} {s : State} (b : Bool) (htests : i.testsPrivilege = false)
    (htrap : s.cfg.trapSupplied = false) : exec i (s.setPriv b) = mapNext (·.setPriv b) (exec i s) := by
  cases i
  case mfs | mts => cases htests
  case udf | syscall => exact raise_setPriv _ b htrap
  case mulf rd ra rb => exact execMulf_setPriv rd ra rb s b
  case ceq1 | ceq2 | cne1 | cne2 | chi1 | chi2 | cls1 | cls2 | cgt1 | cgt2 | cle1 | cle2 => exact writeT_setPriv ..
  case b1 | b2 | bt1 | bt2 => exact branchTo_setPriv ..
  case bl1 | blt1 => exact branchLink_setPriv ..
  case bl2 rd =>
    by_cases hrd : rd = 31#5
    · subst hrd
      rfl
    · rw [exec_bl2_of_ne_link _ hrd, exec_bl2_of_ne_link _ hrd]
      exact branchLink_setPriv ..
  case blt2 rd =>
    by_cases hrd : rd = 31#5
    · subst hrd
      rfl
    · rw [exec_blt2_of_ne_link _ hrd, exec_blt2_of_ne_link _ hrd]
      exact branchLink_setPriv ..
  case lb1 | lb2 | lbs1 | lbs2 | lh1 | lh2 | lhs1 | lhs2 | lw1 | lw2 => exact loadReg_setPriv _ _ _ _ b htrap
  case sb1 | sb2 | sh1 | sh2 | sw1 | sw2 => exact storeReg_setPriv _ _ _ b htrap
  all_goals exact writeReg_setPriv ..

/-- Settles O56: PRIV is carried along to every state answered, and no fault or refusal depends on it. -/
theorem privilegeMattersToMfsMtsOnly : Obligations.PrivilegeMattersToMfsMtsOnly := by
  intro i s b htests htrap
  refine (exec_setPriv b htests htrap).trans ?_
  cases exec i s <;> rfl

end Sys2Proof.Machine

/-! Exceptions (60_exceptions.md R230, R236) and the system family (47_system.md): UDF and SYSCALL are a raise, and so
are MFS and MTS without privilege; with it, MFS is a register write after SRRead, and MTS is SRWrite with the advance. -/

namespace Sys2Proof.Machine

/-! ### MFS and MTS by the test of PRIV (R222, R223) -/

section

variable {s : State} {n : Imm12}

theorem execMfs_of_unprivileged (rd : Reg) (hpriv : s.priv = false) : execMfs rd n s = raise .prv s := by
  simp [execMfs, hpriv]

theorem execMts_of_unprivileged (rd : Reg) (hpriv : s.priv = false) : execMts rd n s = raise .prv s := by
  simp [execMts, hpriv]

theorem execMfs_of_refused (rd : Reg) (hpriv : s.priv = true) (hread : srRead n s = none) :
    execMfs rd n s = .refused (.systemRegisterUnmodelled n) := by
  simp [execMfs, hpriv, hread]

theorem execMts_of_refused {rd : Reg} (hpriv : s.priv = true) (hwrite : srWriteAdvance n (s.reg rd) s = none) :
    execMts rd n s = .refused (.systemRegisterUnmodelled n) := by
  simp [execMts, hpriv, hwrite]

theorem execMfs_of_read (rd : Reg) {v : Word} {s' : State} (hpriv : s.priv = true)
    (hread : srRead n s = some (v, s')) : execMfs rd n s = writeReg rd v s' := by
  simp [execMfs, hpriv, hread]

theorem execMts_of_written {rd : Reg} {t : State} (hpriv : s.priv = true)
    (hwrite : srWriteAdvance n (s.reg rd) s = some t) : execMts rd n s = .next t := by
  simp [execMts, hpriv, hwrite]

end

/-! ### SRRead and SRWrite by `P_SR` (10_state.md R30) -/

section

variable {s : State} (n : Imm12) (v : Word)

theorem srRead_absent (hsr : s.cfg.sysRegs = .absent) : srRead n s = none := by
  simp [srRead, hsr]

theorem srRead_draw (hsr : s.cfg.sysRegs = .draw) :
    srRead n s = some (Config.srDraw s.draws, { s with draws := s.draws + 1 }) := by
  simp [srRead, hsr]

theorem srRead_platform (hsr : s.cfg.sysRegs = .platform) :
    ∃ v e, (v, e) = Config.srRead s.draws n s.regs s.pc s.t s.priv s.sr s.mem ∧
      srRead n s = some (v, s.applySr e) := by
  simpa [hsr] using srRead_cases n s

theorem srWriteAdvance_absent (hsr : s.cfg.sysRegs = .absent) : srWriteAdvance n v s = none := by
  simp [srWriteAdvance, hsr]

theorem srWriteAdvance_draw (hsr : s.cfg.sysRegs = .draw) :
    srWriteAdvance n v s = some { s with sr := srSet s.sr n.toNat v }.advance := by
  simp [srWriteAdvance, hsr]

theorem srWriteAdvance_platform (hsr : s.cfg.sysRegs = .platform) :
    ∃ e resume, (e, resume) = Config.srWrite s.draws n v s.regs s.pc s.t s.priv s.sr s.mem ∧
      srWriteAdvance n v s = some ((s.applySr e).setPc (resume.getD (s.pc + 4#32))) := by
  simpa [hsr] using srWriteAdvance_cases n v s

end

/-! ### What an access to a platform's system register leaves as it is -/

theorem State.applySr_sameRegs (s : State) (e : SrEffect) : SameRegs s (s.applySr e) := by
  obtain ⟨hregs, _, _, _, _, _, _, hcfg⟩ := State.applySr_fields s e
  exact State.reg_congr hregs hcfg

theorem State.applySr_sameMemory (s : State) (e : SrEffect) : SameMemory s (s.applySr e) := by
  obtain ⟨_, _, _, _, hmem, hstored, _, _⟩ := State.applySr_fields s e
  exact fun a => ⟨State.byte_congr hmem a, congrArg (List.contains · a.toNat) hstored⟩

theorem SameMemory.trans {s t u : State} (hst : SameMemory s t) (htu : SameMemory t u) : SameMemory s u := by
  intro a
  obtain ⟨hbyte, hstored⟩ := hst a
  obtain ⟨hbyte', hstored'⟩ := htu a
  exact ⟨hbyte'.trans hbyte, hstored'.trans hstored⟩

/-- A register written after an update that writes none is all that differs from before it. -/
theorem RegWritten.of_sameRegs {s t u : State} {rd : Reg} {v : Word} (hregs : SameRegs s t) (hcfg : t.cfg = s.cfg)
    (h : RegWritten t u rd v) : RegWritten s u rd v := by
  intro r
  rw [h r, hregs r, hcfg]

/-! ### The forms -/

/-- Settles O45: both forms are a raise and nothing else. -/
theorem udfAndSyscallRaise : Obligations.UdfAndSyscallRaise := by
  intro s
  obtain ⟨hudfFault, hudfEnters⟩ := raise_raises .udf s
  obtain ⟨hsysFault, hsysEnters⟩ := raise_raises .sys s
  exact ⟨packR_default .., packR_default .., fun h => ⟨hudfFault h, hsysFault h⟩,
    fun h => ⟨hudfEnters h, hsysEnters h⟩⟩

/-- Settles O46: the test of PRIV comes before any look at the register number or at P_SR. -/
theorem unprivilegedMfsMtsRaisePrv : Obligations.UnprivilegedMfsMtsRaisePrv := by
  intro s rd n hpriv
  rw [exec, exec, execMfs_of_unprivileged rd hpriv, execMts_of_unprivileged rd hpriv]
  exact ⟨raise_raises .prv s, raise_raises .prv s⟩

/-- Settles O47: the register write starts from the state that SRRead leaves, in which no general register and no byte
of memory differs. -/
theorem mfsPrivileged : Obligations.MfsPrivileged := by
  intro s rd n hpriv
  refine ⟨packI_default .., fun hsr => ?absent, fun hsr => ?draw, fun hsr => ?platform⟩
  case absent => exact execMfs_of_refused rd hpriv (srRead_absent n hsr)
  case draw =>
    obtain ⟨t, hexec, hreg, hpc, ht, ⟨htpriv, htsr, htdraws, htcfg⟩, hmem⟩ :=
      writeReg_sets rd (Config.srDraw s.draws) { s with draws := s.draws + 1 }
    exact ⟨t, (execMfs_of_read rd hpriv (srRead_draw n hsr)).trans hexec, hreg, hpc, ht, htpriv, htsr, htdraws, htcfg,
      hmem⟩
  case platform =>
    obtain ⟨v, e, he, hread⟩ := srRead_platform n hsr
    obtain ⟨t, hexec, hreg, hpc, ht, ⟨htpriv, htsr, htdraws, htcfg⟩, hmem⟩ := writeReg_sets rd v (s.applySr e)
    obtain ⟨_, hepc, het, hepriv, _, _, hedraws, hecfg⟩ := State.applySr_fields s e
    refine ⟨t, v, e, (execMfs_of_read rd hpriv hread).trans hexec, he,
      hreg.of_sameRegs (s.applySr_sameRegs e) hecfg, ?_, fun m => ?_, ht.trans het, htpriv.trans hepriv,
      htdraws.trans hedraws, htcfg.trans hecfg, (s.applySr_sameMemory e).trans hmem⟩
    · rw [hpc, hepc]
    · rw [htsr, State.srGet_applySr]

/-- Settles O48: SRWrite sets one system register under a draw, and what the platform answers otherwise; IA is the only
other thing that moves. -/
theorem mtsPrivileged : Obligations.MtsPrivileged := by
  intro s rd n hpriv
  refine ⟨packI_default .., fun hsr => ?absent, fun hsr => ?draw, fun hsr => ?platform⟩
  case absent => exact execMts_of_refused hpriv (srWriteAdvance_absent n _ hsr)
  case draw =>
    refine ⟨_, execMts_of_written hpriv (srWriteAdvance_draw n _ hsr), fun m => ?_, rfl, rfl, rfl, rfl, rfl,
      fun _ => rfl, fun _ => ⟨rfl, rfl⟩⟩
    simp only [State.advance_sr, srGet_srSet, BitVec.toNat_inj]
  case platform =>
    obtain ⟨e, resume, he, hwrite⟩ := srWriteAdvance_platform n (s.reg rd) hsr
    obtain ⟨_, _, het, hepriv, _, _, hedraws, hecfg⟩ := State.applySr_fields s e
    exact ⟨_, e, resume, execMts_of_written hpriv hwrite, he, s.srGet_applySr e, het, hepriv, rfl, hedraws, hecfg,
      s.applySr_sameRegs e, s.applySr_sameMemory e⟩

/-! ### The raisers of each exception (60_exceptions.md R230) -/

theorem raise_of_trapAbsent (x : Exc) {s : State} (htrap : s.cfg.trapSupplied = false) :
    raise x s = .fault (.exception x) := by
  simp [raise, htrap]

/-- With `P_TRAP` absent a raise ends in its own exception and in no other. -/
theorem raise_eq_exception_iff {x y : Exc} {s : State} (htrap : s.cfg.trapSupplied = false) :
    raise y s = .fault (.exception x) ↔ x = y := by
  simp [raise_of_trapAbsent y htrap, eq_comm]

section

variable {rd : Reg} {s : State} {x : Exc}

theorem loadReg_eq_exception {n : Nat} {widen : Word → Word} {a : Word} (htrap : s.cfg.trapSupplied = false)
    (h : loadReg n widen rd a s = .fault (.exception x)) : ¬Aligned s a n ∧ x = .ali a := by
  rw [← State.aligned_iff, Bool.not_eq_true]
  rcases loadReg_cases n widen rd a s with ⟨_, _, he⟩ | ⟨_, _, he⟩ | ⟨hmis, he⟩ <;> rw [he] at h
  · cases h
  · cases h
  · exact ⟨hmis, (raise_eq_exception_iff htrap).mp h⟩

theorem storeReg_eq_exception {n : Nat} {a : Word} (htrap : s.cfg.trapSupplied = false)
    (h : storeReg n rd a s = .fault (.exception x)) : ¬Aligned s a n ∧ x = .ali a := by
  rw [← State.aligned_iff, Bool.not_eq_true]
  rcases storeReg_cases n rd a s with ⟨_, _, he⟩ | ⟨_, _, he⟩ | ⟨hmis, he⟩ <;> rw [he] at h
  · cases h
  · cases h
  · exact ⟨hmis, (raise_eq_exception_iff htrap).mp h⟩

theorem execMfs_eq_exception {n : Imm12} (htrap : s.cfg.trapSupplied = false)
    (h : execMfs rd n s = .fault (.exception x)) : s.priv = false ∧ x = .prv := by
  cases hpriv : s.priv with
  | false =>
    rw [execMfs_of_unprivileged rd hpriv, raise_eq_exception_iff htrap] at h
    exact ⟨rfl, h⟩
  | true =>
    rcases hread : srRead n s with _ | ⟨v, s'⟩
    · rw [execMfs_of_refused rd hpriv hread] at h
      cases h
    · rw [execMfs_of_read rd hpriv hread] at h
      cases h

theorem execMts_eq_exception {n : Imm12} (htrap : s.cfg.trapSupplied = false)
    (h : execMts rd n s = .fault (.exception x)) : s.priv = false ∧ x = .prv := by
  cases hpriv : s.priv with
  | false =>
    rw [execMts_of_unprivileged rd hpriv, raise_eq_exception_iff htrap] at h
    exact ⟨rfl, h⟩
  | true =>
    rcases hwrite : srWriteAdvance n (s.reg rd) s with _ | t
    · rw [execMts_of_refused hpriv hwrite] at h
      cases h
    · rw [execMts_of_written hpriv hwrite] at h
      cases h

end

/-- Why an instruction can end in exception `x`: the four rows of R230. -/
def RaiserOf (i : Instr) (s : State) (x : Exc) : Prop :=
  (∃ k n a, i.dataAccess s = some (k, n, a) ∧ ¬Aligned s a n ∧ x = .ali a) ∨
  (((∃ rd n, i = .mfs rd n) ∨ (∃ rd n, i = .mts rd n)) ∧ s.priv = false ∧ x = .prv) ∨
  (i = .syscall ∧ x = .sys) ∨ (i = .udf ∧ x = .udf)

/-- Each raiser's meaning is the raise of its exception. -/
theorem RaiserOf.exec_eq_raise {i : Instr} {s : State} {x : Exc} (h : RaiserOf i s x) : exec i s = raise x s := by
  rcases h with ⟨k, n, a, hacc, hmis, rfl⟩ | ⟨⟨rd, n, rfl⟩ | ⟨rd, n, rfl⟩, hpriv, rfl⟩ | ⟨rfl, rfl⟩ | ⟨rfl, rfl⟩
  · exact exec_of_misaligned hacc hmis
  · exact execMfs_of_unprivileged rd hpriv
  · exact execMts_of_unprivileged rd hpriv
  · rfl
  · rfl

/-- No instruction but the raisers ends in an exception: of the shared shapes only the raise, the misaligned access and
the unprivileged MFS and MTS do. -/
theorem raiserOf_of_exception {i : Instr} {s : State} {x : Exc} (htrap : s.cfg.trapSupplied = false)
    (h : exec i s = .fault (.exception x)) : RaiserOf i s x := by
  rcases exec_cases i s with ⟨_, _, he⟩ | ⟨_, _, he⟩ | ⟨_, _, he⟩ | ⟨_, _, he⟩ | ⟨_, _, _, _, hacc, he⟩ |
    ⟨_, _, _, hacc, he⟩ | he | he | ⟨hi, he⟩ | ⟨hi, he⟩ | ⟨rd, n, rfl⟩ | ⟨rd, n, rfl⟩
  on_goal 11 => exact .inr (.inl ⟨.inl ⟨rd, n, rfl⟩, execMfs_eq_exception htrap h⟩)
  on_goal 11 => exact .inr (.inl ⟨.inr ⟨rd, n, rfl⟩, execMts_eq_exception htrap h⟩)
  all_goals rw [he] at h
  · cases h
  · cases h
  · cases h
  · cases h
  · exact .inl ⟨_, _, _, hacc, loadReg_eq_exception htrap h⟩
  · exact .inl ⟨_, _, _, hacc, storeReg_eq_exception htrap h⟩
  · cases h
  · cases h
  · exact .inr (.inr (.inr ⟨hi, (raise_eq_exception_iff htrap).mp h⟩))
  · exact .inr (.inr (.inl ⟨hi, (raise_eq_exception_iff htrap).mp h⟩))

/-- Settles O57: the four rows are exactly the ways into an exception. -/
theorem exceptionsComplete : Obligations.ExceptionsComplete :=
  fun _ _ x htrap => ⟨raiserOf_of_exception htrap, fun h =>
    (RaiserOf.exec_eq_raise h).trans (raise_of_trapAbsent x htrap)⟩

end Sys2Proof.Machine

/-! The step (70_reset_and_hazards.md R265): each test before the decoder in its order, the decoder's answers after them,
and a word placed at IA from outside. -/

namespace Sys2Proof.Machine

/-! ### The tests before the decoder -/

section

variable {s : State}

theorem step_of_runEnded (hend : s.cfg.endIa = some s.pc) : step s = .fault .runEnded :=
  if_pos hend

/-- Where the run has not ended and IA is aligned, the test of admission comes next. -/
theorem step_of_aligned (hend : s.cfg.endIa ≠ some s.pc) (haligned : s.pc.toNat % 4 = 0) :
    step s = if s.admitted s.pc 4 .fetch then
        if s.fetchesStored then .refused (.fetchFromWrittenMemory s.pc) else runDecoded s.fetchWord s
      else .fault (.stuck .fetch 4 s.pc) := by
  rw [step, stepInstr, if_neg hend, if_neg (not_not.mpr ((lowBits_zero_iff s.pc).mpr haligned))]

theorem step_of_unadmitted (hend : s.cfg.endIa ≠ some s.pc) (haligned : s.pc.toNat % 4 = 0)
    (hadmitted : s.admitted s.pc 4 .fetch = false) : step s = .fault (.stuck .fetch 4 s.pc) := by
  simp [step_of_aligned hend haligned, hadmitted]

theorem step_of_fetchesStored (hend : s.cfg.endIa ≠ some s.pc) (haligned : s.pc.toNat % 4 = 0)
    (hadmitted : s.admitted s.pc 4 .fetch = true) (hstored : s.fetchesStored = true) :
    step s = .refused (.fetchFromWrittenMemory s.pc) := by
  simp [step_of_aligned hend haligned, hadmitted, hstored]

/-- Past the tests the word at IA is decoded. -/
theorem step_of_fetched (hend : s.cfg.endIa ≠ some s.pc) (haligned : s.pc.toNat % 4 = 0)
    (hadmitted : s.admitted s.pc 4 .fetch = true) (hfresh : s.fetchesStored = false) :
    step s = runDecoded (wordAt s s.pc) s := by
  simp [step_of_aligned hend haligned, hadmitted, hfresh, State.fetchWord, State.memRead_four]

end

/-! ### What each answer of the decoder leads to -/

theorem runDecoded_instr {w : Word} {s : State} {i : Instr} (h : decode s.cfg w = .instr i) :
    runDecoded w s = exec i s := by
  rw [runDecoded, h]

/-- A fetch reads four bytes, and `Reading` has no way to this answer. -/
theorem decode_ne_tooShort (p : Params) (w : Word) : decode p w ≠ .tooShort := by
  intro h
  have hread := reading p w
  rw [h] at hread
  cases hread

theorem State.fetchesStored_eq_false {s : State}
    (h : s.cfg.smc = .refuse → ∀ k < 4, s.isStored (s.pc + BitVec.ofNat 32 k) = false) : s.fetchesStored = false := by
  rw [Bool.eq_false_iff, Ne, State.fetchesStored_iff]
  rintro ⟨hsmc, k, hk, hstored⟩
  simp [h hsmc k hk] at hstored

/-- Settles O8: each test by its own lemma, and past them `runDecoded` at the decoder's answer. -/
theorem stepTestsInOrder : Obligations.StepTestsInOrder := by
  refine fun s => ⟨step_of_runEnded, fun hend => ⟨step_of_misaligned hend, fun haligned =>
    ⟨step_of_unadmitted hend haligned, fun hadmitted => ?_⟩⟩⟩
  rw [← State.fetchesStored_iff, Bool.not_eq_true]
  refine ⟨step_of_fetchesStored hend haligned hadmitted, fun hfresh => ?_⟩
  rw [step_of_fetched hend haligned hadmitted hfresh]
  refine ⟨fun i => runDecoded_instr, ?reserved, ?bitfield, ?unused, ?link, decode_ne_tooShort _ _⟩
  all_goals
    intro hdecode
    rw [runDecoded, hdecode]

/-- Settles O7: past the tests the decoder's answer is the instruction. -/
theorem stepRunsDecoded : Obligations.StepRunsDecoded := by
  intro s i hend haligned hadmitted hfresh hdecode
  rw [step_of_fetched hend haligned hadmitted (State.fetchesStored_eq_false hfresh), runDecoded_instr hdecode]

/-! ### A word placed at IA (20_memory.md R43) -/

/-- Admission depends on the parameters only. -/
theorem State.admitted_congr {s t : State} (hcfg : t.cfg = s.cfg) (a : Word) (n : Nat) (k : AccessKind) :
    t.admitted a n k = s.admitted a n k := by
  rw [State.admitted, State.admitted, hcfg]

/-- A word of memory depends on memory and the parameters only. -/
theorem wordAt_congr {s t : State} (hmem : t.mem = s.mem) (hcfg : t.cfg = s.cfg) (a : Word) :
    wordAt t a = wordAt s a := by
  rw [← State.memRead_four, ← State.memRead_four, State.memRead_congr hmem hcfg]

/-- Placing bytes and storing them leave the same memory; they differ in the addresses that count as stored. -/
theorem State.loadImage_mem {s t : State} (hmem : s.mem = t.mem) (a : Word) (bs : List Byte) :
    (s.loadImage a bs).mem = (t.storeBytes a bs).mem := by
  induction bs generalizing s t a with
  | nil => exact hmem
  | cons b bs ih => exact ih (congrArg (·.set a.toNat b) hmem) (a + 1#32)

section

variable (s : State) (nbits w : Nat)

/-- In memory the placed word is what a store of it would have written. -/
theorem State.withFetchWord_mem :
    (s.withFetchWord nbits w).mem = (s.memWrite s.pc 4 (BitVec.ofNat 32 (w % 2 ^ nbits))).mem :=
  State.loadImage_mem rfl ..

theorem State.withFetchWord_same :
    (s.withFetchWord nbits w).regs = s.regs ∧ (s.withFetchWord nbits w).pc = s.pc ∧
      (s.withFetchWord nbits w).t = s.t ∧ (s.withFetchWord nbits w).priv = s.priv ∧
      (s.withFetchWord nbits w).sr = s.sr ∧ (s.withFetchWord nbits w).draws = s.draws ∧
      (s.withFetchWord nbits w).cfg = s.cfg :=
  State.loadImage_same ..

@[simp] theorem State.withFetchWord_pc : (s.withFetchWord nbits w).pc = s.pc := by
  obtain ⟨_, hpc, _⟩ := s.withFetchWord_same nbits w
  exact hpc

@[simp] theorem State.withFetchWord_cfg : (s.withFetchWord nbits w).cfg = s.cfg := by
  obtain ⟨_, _, _, _, _, _, hcfg⟩ := s.withFetchWord_same nbits w
  exact hcfg

theorem wordAt_withFetchWord : wordAt (s.withFetchWord nbits w) s.pc = BitVec.ofNat 32 (w % 2 ^ nbits) := by
  have hcfg := State.memWrite_cfg s s.pc 4 (BitVec.ofNat 32 (w % 2 ^ nbits))
  rw [wordAt_congr (s.withFetchWord_mem nbits w) ((s.withFetchWord_cfg nbits w).trans hcfg.symm)]
  exact (s.memWrite_written s.pc 4 _ (by decide)).wordAt_eq hcfg

theorem byte_withFetchWord_of_outside {b : Word} (h : 4 ≤ (b - s.pc).toNat) :
    (s.withFetchWord nbits w).byte b = s.byte b :=
  (State.byte_congr (s.withFetchWord_mem nbits w) b).trans (s.byte_memWrite_of_outside _ h)

/-- The placed bytes have left the stored ones, so P_SMC does not refuse their fetch. -/
theorem fetchesStored_withFetchWord : (s.withFetchWord nbits w).fetchesStored = false := by
  refine State.fetchesStored_eq_false fun _ k hk => ?_
  have hdist : (s.pc + BitVec.ofNat 32 k - s.pc).toNat = k := by
    rw [BitVec.add_comm, BitVec.add_sub_cancel, BitVec.toNat_ofNat, Nat.mod_eq_of_lt (by omega)]
  rw [State.withFetchWord_pc, State.withFetchWord, placeFetchWord, State.isStored_loadImage _ _ _ (by simp), hdist,
    split_length, decide_eq_true hk, Bool.not_true, Bool.and_false]

end

/-- Settles O9: the placed word passes the tests of the fetch, and it is what the step reads. -/
theorem placedWordRuns : Obligations.PlacedWordRuns := by
  intro s nbits w i hend haligned hadmitted hdecode
  obtain ⟨hregs, hpc, ht, hpriv, hsr, hdraws, hcfg⟩ := s.withFetchWord_same nbits w
  have hword := wordAt_withFetchWord s nbits w
  refine ⟨?step, hword, fun b => byte_withFetchWord_of_outside s nbits w, State.reg_congr hregs hcfg,
    ⟨hpriv, hsr, hdraws, hcfg⟩, hpc, ht⟩
  have hstep : step (s.withFetchWord nbits w) = _ :=
    step_of_fetched (by rwa [hpc, hcfg]) (by rwa [hpc]) (by rwa [hpc, State.admitted_congr hcfg])
      (fetchesStored_withFetchWord s nbits w)
  rw [hstep, hpc, hword]
  exact runDecoded_instr (by rwa [hcfg])

end Sys2Proof.Machine
